-- ==== Sys2Proof/Word.lean ====
section
/-! DEFINITION. The two value types: Byte (8 bits) and Word (16 bits), whose arithmetic wraps (00_scope.md R9, R14, R17). -/

namespace Sys2Proof

/-- An unsigned 8-bit value; `+` and `-` wrap modulo 256 (R12, R14). -/
abbrev Byte := BitVec 8

/-- An unsigned 16-bit value; `+` and `-` carry fully and wrap modulo 65,536 (R16, R17). -/
abbrev Word := BitVec 16

end Sys2Proof
end

