-- ==== Sys2Proof/Config.lean ====
section
/-! DEFINITION. The named parameters of 00_scope.md R7: `Params`, all ten as construction takes them, and `Config`, the seven a step consults; and the storage cells of the mapper (20_memory.md R74), over which INIT_MEM is given. -/

namespace Sys2Proof.Machine

/-- The storage cells of the fixed-bank mapper (20_memory.md R74): a general-RAM cell by its address, a PRG-RAM cell and a
PRG-ROM cell by its number. -/
inductive StorageCell where
  | generalRam (a : Word)
  | prgRam (k : Nat)
  | prgRom (k : Nat)
deriving DecidableEq, Repr

end Sys2Proof.Machine

namespace Sys2Proof

/-- PRG-ROM of length 0, 16384 or 32768: the only lengths the fixed-bank mapper has (20_memory.md R80). -/
inductive RomBanks where
  | none
  | one
  | two
deriving DecidableEq, Repr

/-- What a write into the PRG-ROM window does (R79, D6). -/
inductive RomWrite where
  | ignore
  | store
deriving DecidableEq, Repr

/-- Whether BRK pushes and vectors before it reports Break (46 R228, D3). -/
inductive BrkEffects where
  | full
  | signalOnly
deriving DecidableEq, Repr

/-- The addresses `first` to `last`, both included. GENERAL_RAM, a set of addresses, is written as a list of these. -/
structure AddrRange where
  first : Word
  last  : Word
deriving DecidableEq, Repr

/-- The parameters a step consults. No step changes them (10_state.md R48); `State.cfg` carries them. -/
structure Config where
  romBanks   : RomBanks
  prgRamSize : Nat
  generalRam : List AddrRange
  romWrite   : RomWrite
  brkEffects : BrkEffects
  plpLoadsB  : Bool
  usbcEb     : Bool
deriving DecidableEq, Repr

/-- The ten parameters of R7 as the host gives them to construction (70 R340).
`initMem` is INIT_MEM, a function from RAM cell to byte, as a list: the first entry of a cell is its byte, and a cell that
no entry names draws 0x00 (log entry 18). -/
structure Params where
  prgRom     : List Byte
  prgRamSize : Nat
  generalRam : List AddrRange
  romWrite   : RomWrite
  initMem    : List (Machine.StorageCell × Byte)
  spReset    : Byte
  cycleReset : Nat
  brkEffects : BrkEffects
  plpLoadsB  : Bool
  usbcEb     : Bool
deriving DecidableEq, Repr

/-- The defaults of R7. The three construction inputs that have none (PRG_ROM, PRG_RAM_SIZE, INIT_MEM) are those of
95_test_vectors.md section 0: no PRG-ROM, no PRG-RAM, an all-zero draw.
DESIGN CHOICE (log entry 6), unsafe: another cartridge or draw gives another machine. -/
def Params.default : Params where
  prgRom     := []
  prgRamSize := 0
  generalRam := [⟨0x0000, 0xFFFF⟩]
  romWrite   := .ignore
  initMem    := []
  spReset    := 0xFD
  cycleReset := 7
  brkEffects := .full
  plpLoadsB  := false
  usbcEb     := true

/-- What of the parameters stays with the machine once it has PRG-ROM banks `b`. -/
def Params.config (p : Params) (b : RomBanks) : Config where
  romBanks   := b
  prgRamSize := p.prgRamSize
  generalRam := p.generalRam
  romWrite   := p.romWrite
  brkEffects := p.brkEffects
  plpLoadsB  := p.plpLoadsB
  usbcEb     := p.usbcEb

/-- The configuration at the defaults. -/
def Config.default : Config := Params.default.config .none

end Sys2Proof
end

