-- ==== Sys2Proof/Syntax.lean ====
section
/-! DEFINITION. The instructions: one constructor for each mnemonic of spec/opcode_table.json (for each shape of the unofficial NOP, and for SBC at EB), whose argument is the operand form. The table's rows of one mnemonic are the forms of its constructor. -/

namespace Sys2Proof

/-- An operand in memory: the eight modes whose resolver gives an effective address (40 R122 to R127, R130, R131),
each with its operand byte or little-endian operand word. -/
inductive MemOperand where
  | zeroPage        (b : Byte)
  | zeroPageX       (b : Byte)
  | zeroPageY       (b : Byte)
  | absolute        (w : Word)
  | absoluteX       (w : Word)
  | absoluteY       (w : Word)
  | indexedIndirect (b : Byte)   -- (Indirect,X)
  | indirectIndexed (b : Byte)   -- (Indirect),Y
deriving DecidableEq, Repr

/-- An operand that is only read: a literal byte (R121) or a byte of memory. -/
inductive ReadOperand where
  | immediate (v : Byte)
  | mem       (m : MemOperand)
deriving DecidableEq, Repr

/-- An operand that a shift or rotate reads and writes: A (R133) or a byte of memory. -/
inductive ShiftOperand where
  | accumulator
  | mem (m : MemOperand)
deriving DecidableEq, Repr

/-- Where JMP finds its target: the operand word itself (R125), or the word at the pointer (R129). -/
inductive JumpOperand where
  | absolute (target : Word)
  | indirect (ptr : Word)
deriving DecidableEq, Repr

/-- The instructions of spec/opcode_table.json. -/
inductive Instr where
  -- 41_load_store.md
  | lda (o : ReadOperand)
  | ldx (o : ReadOperand)
  | ldy (o : ReadOperand)
  | sta (m : MemOperand)
  | stx (m : MemOperand)
  | sty (m : MemOperand)
  | tax
  | tay
  | txa
  | tya
  | tsx
  | txs
  -- 42_arithmetic.md
  | adc (o : ReadOperand)
  | sbc (o : ReadOperand)
  -- 43_logic.md
  | and (o : ReadOperand)
  | ora (o : ReadOperand)
  | eor (o : ReadOperand)
  | bit (m : MemOperand)
  -- 44_shift.md
  | asl (o : ShiftOperand)
  | lsr (o : ShiftOperand)
  | rol (o : ShiftOperand)
  | ror (o : ShiftOperand)
  -- 45_compare_incdec.md
  | cmp (o : ReadOperand)
  | cpx (o : ReadOperand)
  | cpy (o : ReadOperand)
  | inc (m : MemOperand)
  | dec (m : MemOperand)
  | inx
  | iny
  | dex
  | dey
  -- 46_stack_subroutine.md
  | pha
  | pla
  | php
  | plp
  | jsr (target : Word)
  | rts
  | brk
  | rti
  -- 47_jump_branch.md
  | jmp (o : JumpOperand)
  | bpl (offset : Byte)
  | bmi (offset : Byte)
  | bvc (offset : Byte)
  | bvs (offset : Byte)
  | bcc (offset : Byte)
  | bcs (offset : Byte)
  | bne (offset : Byte)
  | beq (offset : Byte)
  -- 48_flags_nop.md
  | clc
  | sec
  | cli
  | sei
  | cld
  | sed
  | clv
  | nop
  -- 49_unofficial.md
  | slo (m : MemOperand)
  | rla (m : MemOperand)
  | sre (m : MemOperand)
  | rra (m : MemOperand)
  | dcp (m : MemOperand)
  | isc (m : MemOperand)
  | lax (m : MemOperand)
  | sax (m : MemOperand)
  /-- The unofficial implied NOPs (R289); `op` is the opcode byte, which tells the six apart. -/
  | nopImplied   (op : Byte)
  /-- SKB, the unofficial immediate NOPs (R290). -/
  | nopImmediate (op : Byte) (v : Byte)
  /-- IGN, the unofficial NOPs that read memory (R291). -/
  | nopMemory    (op : Byte) (m : MemOperand)
  /-- The unofficial duplicate of SBC immediate at EB (R292). -/
  | sbcImmediateEB (v : Byte)
  -- 30_encoding.md R107
  /-- An opcode byte that is not recognised (the table's UNKNOWN rows). -/
  | unknown (op : Byte)
deriving DecidableEq, Repr

end Sys2Proof
end

