-- ==== Sys2Proof/WellFormed.lean ====
section
/-! DEFINITION. Which instructions have an encoding: the modes each mnemonic admits (40_addressing.md R136), the opcode bytes of the unofficial NOPs (49 R289 to R291) and the unrecognised bytes (30 R107). -/

namespace Sys2Proof

/-- The memory modes by name, without their operand bytes. -/
inductive MemMode where
  | zeroPage
  | zeroPageX
  | zeroPageY
  | absolute
  | absoluteX
  | absoluteY
  | indexedIndirect
  | indirectIndexed
deriving DecidableEq, Repr

/-- The mode of a memory operand. -/
def MemOperand.mode : MemOperand → MemMode
  | .zeroPage _        => .zeroPage
  | .zeroPageX _       => .zeroPageX
  | .zeroPageY _       => .zeroPageY
  | .absolute _        => .absolute
  | .absoluteX _       => .absoluteX
  | .absoluteY _       => .absoluteY
  | .indexedIndirect _ => .indexedIndirect
  | .indirectIndexed _ => .indirectIndexed

/-- The memory operand's mode is one of `ms`. -/
def MemOperand.isIn (m : MemOperand) (ms : List MemMode) : Bool := ms.contains m.mode

/-- The operand is a literal, or its memory mode is one of `ms`. -/
def ReadOperand.isIn (o : ReadOperand) (ms : List MemMode) : Bool :=
  match o with
  | .immediate _ => true
  | .mem m       => m.isIn ms

/-- The operand is the accumulator, or its memory mode is one of `ms`. -/
def ShiftOperand.isIn (o : ShiftOperand) (ms : List MemMode) : Bool :=
  match o with
  | .accumulator => true
  | .mem m       => m.isIn ms

/-- R136, the row of LDA, AND, ORA, EOR, ADC, SBC, CMP and the row of STA: every memory mode but Zero-page,Y. -/
def modesAlu : List MemMode :=
  [.zeroPage, .zeroPageX, .absolute, .absoluteX, .absoluteY, .indexedIndirect, .indirectIndexed]

/-- R136, the row of SLO, RLA, SRE, RRA, DCP, ISC. -/
def modesCombined : List MemMode :=
  [.zeroPage, .zeroPageX, .absolute, .absoluteX, .absoluteY, .indexedIndirect, .indirectIndexed]

/-- R136, the rows of ASL, LSR, ROL, ROR and of INC, DEC. -/
def modesModify : List MemMode := [.zeroPage, .zeroPageX, .absolute, .absoluteX]

/-- The 25 bytes that no parameter makes an instruction (R107). -/
def unrecognisedBytes : List Byte :=
  [0x02, 0x12, 0x22, 0x32, 0x42, 0x52, 0x62, 0x72, 0x92, 0xB2, 0xD2, 0xF2,
   0x0B, 0x2B, 0x4B, 0x6B, 0x8B, 0x93, 0x9B, 0x9C, 0x9E, 0x9F, 0xAB, 0xBB, 0xCB]

/-- The opcode bytes of the unofficial implied NOP (R289). -/
def nopImpliedBytes : List Byte := [0x1A, 0x3A, 0x5A, 0x7A, 0xDA, 0xFA]

/-- The opcode bytes of the unofficial immediate NOP (R290). -/
def nopImmediateBytes : List Byte := [0x80, 0x82, 0x89, 0xC2, 0xE2]

/-- The opcode bytes of the unofficial memory NOP in a mode; none in the modes it does not have (R291). -/
def nopMemoryBytes : MemMode → List Byte
  | .zeroPage        => [0x04, 0x44, 0x64]
  | .zeroPageX       => [0x14, 0x34, 0x54, 0x74, 0xD4, 0xF4]
  | .absolute        => [0x0C]
  | .absoluteX       => [0x1C, 0x3C, 0x5C, 0x7C, 0xDC, 0xFC]
  | .zeroPageY       => []
  | .absoluteY       => []
  | .indexedIndirect => []
  | .indirectIndexed => []

/-- The instruction has an encoding when USBC_EB is `usbcEb` (R136, R107, R289 to R292). -/
def Instr.wellFormed (usbcEb : Bool) : Instr → Bool
  | .lda o | .adc o | .sbc o | .and o | .ora o | .eor o | .cmp o => o.isIn modesAlu
  | .ldx o => o.isIn [.zeroPage, .zeroPageY, .absolute, .absoluteY]
  | .ldy o => o.isIn [.zeroPage, .zeroPageX, .absolute, .absoluteX]
  | .sta m => m.isIn modesAlu
  | .stx m => m.isIn [.zeroPage, .zeroPageY, .absolute]
  | .sty m => m.isIn [.zeroPage, .zeroPageX, .absolute]
  | .cpx o | .cpy o => o.isIn [.zeroPage, .absolute]
  | .bit m => m.isIn [.zeroPage, .absolute]
  | .asl o | .lsr o | .rol o | .ror o => o.isIn modesModify
  | .inc m | .dec m => m.isIn modesModify
  | .slo m | .rla m | .sre m | .rra m | .dcp m | .isc m => m.isIn modesCombined
  | .lax m => m.isIn [.zeroPage, .zeroPageY, .absolute, .absoluteY, .indexedIndirect, .indirectIndexed]
  | .sax m => m.isIn [.zeroPage, .zeroPageY, .absolute, .indexedIndirect]
  | .nopImplied op => nopImpliedBytes.contains op
  | .nopImmediate op _ => nopImmediateBytes.contains op
  | .nopMemory op m => (nopMemoryBytes m.mode).contains op
  | .sbcImmediateEB _ => usbcEb
  | .unknown op => unrecognisedBytes.contains op || (op == 0xEB && !usbcEb)
  | .tax | .tay | .txa | .tya | .tsx | .txs | .inx | .iny | .dex | .dey => true
  | .pha | .pla | .php | .plp | .jsr _ | .rts | .brk | .rti | .jmp _ => true
  | .bpl _ | .bmi _ | .bvc _ | .bvs _ | .bcc _ | .bcs _ | .bne _ | .beq _ => true
  | .clc | .sec | .cli | .sei | .cld | .sed | .clv | .nop => true

end Sys2Proof
end

