-- ==== Sys2Proof/Decode.lean ====
section
/-! DEFINITION. The opcode map of 30_encoding.md R108 as a table of 256 entries, the decoder that reads it (R106), the opcode bytes of each instruction's rule, and the encoder written from them. -/

namespace Sys2Proof

/-- `w16(l, h)`, the word with low byte `l` and high byte `h` (00_scope.md R8, R16). -/
def w16 (l h : Byte) : Word := h ++ l

/-- `lo(w)`, bits 7 to 0 (R8). -/
def lo (w : Word) : Byte := w.extractLsb' 0 8

/-- `hi(w)`, bits 15 to 8 (R8). -/
def hi (w : Word) : Byte := w.extractLsb' 8 8

/-! ## The opcode map -/

/-- An entry of the opcode map, in one of the three formats of R100: the instruction, given its operand byte or
little-endian operand word. -/
inductive Entry where
  | f1 (i : Instr)
  | f2 (make : Byte → Instr)
  | f3 (make : Word → Instr)

/-- How many operand bytes follow the opcode (R100, R101). -/
def Entry.operandBytes : Entry → Nat
  | .f1 _ => 0
  | .f2 _ => 1
  | .f3 _ => 2

/-- An Immediate entry. -/
def imm (c : ReadOperand → Instr) : Entry := .f2 fun v => c (.immediate v)

/-- A read entry in Zero-page mode; the eight that follow are the other memory modes. -/
def rZp (c : ReadOperand → Instr) : Entry := .f2 fun b => c (.mem (.zeroPage b))
def rZpx (c : ReadOperand → Instr) : Entry := .f2 fun b => c (.mem (.zeroPageX b))
def rZpy (c : ReadOperand → Instr) : Entry := .f2 fun b => c (.mem (.zeroPageY b))
def rAbs (c : ReadOperand → Instr) : Entry := .f3 fun w => c (.mem (.absolute w))
def rAbsx (c : ReadOperand → Instr) : Entry := .f3 fun w => c (.mem (.absoluteX w))
def rAbsy (c : ReadOperand → Instr) : Entry := .f3 fun w => c (.mem (.absoluteY w))
def rIndx (c : ReadOperand → Instr) : Entry := .f2 fun b => c (.mem (.indexedIndirect b))
def rIndy (c : ReadOperand → Instr) : Entry := .f2 fun b => c (.mem (.indirectIndexed b))

/-- An entry whose operand can only be in memory, in Zero-page mode; the others follow. -/
def mZp (c : MemOperand → Instr) : Entry := .f2 fun b => c (.zeroPage b)
def mZpx (c : MemOperand → Instr) : Entry := .f2 fun b => c (.zeroPageX b)
def mZpy (c : MemOperand → Instr) : Entry := .f2 fun b => c (.zeroPageY b)
def mAbs (c : MemOperand → Instr) : Entry := .f3 fun w => c (.absolute w)
def mAbsx (c : MemOperand → Instr) : Entry := .f3 fun w => c (.absoluteX w)
def mAbsy (c : MemOperand → Instr) : Entry := .f3 fun w => c (.absoluteY w)
def mIndx (c : MemOperand → Instr) : Entry := .f2 fun b => c (.indexedIndirect b)
def mIndy (c : MemOperand → Instr) : Entry := .f2 fun b => c (.indirectIndexed b)

/-- A shift entry in Accumulator mode, and in the four memory modes. -/
def sAcc (c : ShiftOperand → Instr) : Entry := .f1 (c .accumulator)
def sZp (c : ShiftOperand → Instr) : Entry := .f2 fun b => c (.mem (.zeroPage b))
def sZpx (c : ShiftOperand → Instr) : Entry := .f2 fun b => c (.mem (.zeroPageX b))
def sAbs (c : ShiftOperand → Instr) : Entry := .f3 fun w => c (.mem (.absolute w))
def sAbsx (c : ShiftOperand → Instr) : Entry := .f3 fun w => c (.mem (.absoluteX w))

/-- An Implied entry. -/
def imp (i : Instr) : Entry := .f1 i

/-- A byte the map marks `--`. -/
def bad (op : Byte) : Entry := .f1 (.unknown op)

/-- Rows 0x to 3x of the map, columns x0 to xF in order. -/
def opcodeMap03 : List Entry :=
  -- 0x
  [imp .brk, rIndx .ora, bad 0x02, mIndx .slo, mZp (.nopMemory 0x04), rZp .ora, sZp .asl, mZp .slo,
   imp .php, imm .ora, sAcc .asl, bad 0x0B, mAbs (.nopMemory 0x0C), rAbs .ora, sAbs .asl, mAbs .slo] ++
  -- 1x
  [.f2 .bpl, rIndy .ora, bad 0x12, mIndy .slo, mZpx (.nopMemory 0x14), rZpx .ora, sZpx .asl, mZpx .slo,
   imp .clc, rAbsy .ora, imp (.nopImplied 0x1A), mAbsy .slo, mAbsx (.nopMemory 0x1C), rAbsx .ora, sAbsx .asl, mAbsx .slo] ++
  -- 2x
  [.f3 .jsr, rIndx .and, bad 0x22, mIndx .rla, mZp .bit, rZp .and, sZp .rol, mZp .rla,
   imp .plp, imm .and, sAcc .rol, bad 0x2B, mAbs .bit, rAbs .and, sAbs .rol, mAbs .rla] ++
  -- 3x
  [.f2 .bmi, rIndy .and, bad 0x32, mIndy .rla, mZpx (.nopMemory 0x34), rZpx .and, sZpx .rol, mZpx .rla,
   imp .sec, rAbsy .and, imp (.nopImplied 0x3A), mAbsy .rla, mAbsx (.nopMemory 0x3C), rAbsx .and, sAbsx .rol, mAbsx .rla]

/-- Rows 4x to 7x. -/
def opcodeMap47 : List Entry :=
  -- 4x
  [imp .rti, rIndx .eor, bad 0x42, mIndx .sre, mZp (.nopMemory 0x44), rZp .eor, sZp .lsr, mZp .sre,
   imp .pha, imm .eor, sAcc .lsr, bad 0x4B, .f3 (fun w => .jmp (.absolute w)), rAbs .eor, sAbs .lsr, mAbs .sre] ++
  -- 5x
  [.f2 .bvc, rIndy .eor, bad 0x52, mIndy .sre, mZpx (.nopMemory 0x54), rZpx .eor, sZpx .lsr, mZpx .sre,
   imp .cli, rAbsy .eor, imp (.nopImplied 0x5A), mAbsy .sre, mAbsx (.nopMemory 0x5C), rAbsx .eor, sAbsx .lsr, mAbsx .sre] ++
  -- 6x
  [imp .rts, rIndx .adc, bad 0x62, mIndx .rra, mZp (.nopMemory 0x64), rZp .adc, sZp .ror, mZp .rra,
   imp .pla, imm .adc, sAcc .ror, bad 0x6B, .f3 (fun w => .jmp (.indirect w)), rAbs .adc, sAbs .ror, mAbs .rra] ++
  -- 7x
  [.f2 .bvs, rIndy .adc, bad 0x72, mIndy .rra, mZpx (.nopMemory 0x74), rZpx .adc, sZpx .ror, mZpx .rra,
   imp .sei, rAbsy .adc, imp (.nopImplied 0x7A), mAbsy .rra, mAbsx (.nopMemory 0x7C), rAbsx .adc, sAbsx .ror, mAbsx .rra]

/-- Rows 8x to Bx. -/
def opcodeMap8B : List Entry :=
  -- 8x
  [.f2 (.nopImmediate 0x80), mIndx .sta, .f2 (.nopImmediate 0x82), mIndx .sax, mZp .sty, mZp .sta, mZp .stx, mZp .sax,
   imp .dey, .f2 (.nopImmediate 0x89), imp .txa, bad 0x8B, mAbs .sty, mAbs .sta, mAbs .stx, mAbs .sax] ++
  -- 9x
  [.f2 .bcc, mIndy .sta, bad 0x92, bad 0x93, mZpx .sty, mZpx .sta, mZpy .stx, mZpy .sax,
   imp .tya, mAbsy .sta, imp .txs, bad 0x9B, bad 0x9C, mAbsx .sta, bad 0x9E, bad 0x9F] ++
  -- Ax
  [imm .ldy, rIndx .lda, imm .ldx, mIndx .lax, rZp .ldy, rZp .lda, rZp .ldx, mZp .lax,
   imp .tay, imm .lda, imp .tax, bad 0xAB, rAbs .ldy, rAbs .lda, rAbs .ldx, mAbs .lax] ++
  -- Bx
  [.f2 .bcs, rIndy .lda, bad 0xB2, mIndy .lax, rZpx .ldy, rZpx .lda, rZpy .ldx, mZpy .lax,
   imp .clv, rAbsy .lda, imp .tsx, bad 0xBB, rAbsx .ldy, rAbsx .lda, rAbsy .ldx, mAbsy .lax]

/-- Rows Cx to Fx. -/
def opcodeMapCF : List Entry :=
  -- Cx
  [imm .cpy, rIndx .cmp, .f2 (.nopImmediate 0xC2), mIndx .dcp, rZp .cpy, rZp .cmp, mZp .dec, mZp .dcp,
   imp .iny, imm .cmp, imp .dex, bad 0xCB, rAbs .cpy, rAbs .cmp, mAbs .dec, mAbs .dcp] ++
  -- Dx
  [.f2 .bne, rIndy .cmp, bad 0xD2, mIndy .dcp, mZpx (.nopMemory 0xD4), rZpx .cmp, mZpx .dec, mZpx .dcp,
   imp .cld, rAbsy .cmp, imp (.nopImplied 0xDA), mAbsy .dcp, mAbsx (.nopMemory 0xDC), rAbsx .cmp, mAbsx .dec, mAbsx .dcp] ++
  -- Ex
  [imm .cpx, rIndx .sbc, .f2 (.nopImmediate 0xE2), mIndx .isc, rZp .cpx, rZp .sbc, mZp .inc, mZp .isc,
   imp .inx, imm .sbc, imp .nop, .f2 .sbcImmediateEB, rAbs .cpx, rAbs .sbc, mAbs .inc, mAbs .isc] ++
  -- Fx
  [.f2 .beq, rIndy .sbc, bad 0xF2, mIndy .isc, mZpx (.nopMemory 0xF4), rZpx .sbc, mZpx .inc, mZpx .isc,
   imp .sed, rAbsy .sbc, imp (.nopImplied 0xFA), mAbsy .isc, mAbsx (.nopMemory 0xFC), rAbsx .sbc, mAbsx .inc, mAbsx .isc]

/-- The map of R108: 256 entries, the entry of byte b at index b. -/
def opcodeMap : List Entry := opcodeMap03 ++ opcodeMap47 ++ opcodeMap8B ++ opcodeMapCF

/-- The entry of an opcode byte. EB is an instruction only when USBC_EB is true (R107, R292). -/
def entryOf (usbcEb : Bool) (op : Byte) : Entry :=
  if op == 0xEB && !usbcEb then bad 0xEB else opcodeMap.getD op.toNat (bad op)

/-- The opcode byte is recognised (R107). -/
def recognised (usbcEb : Bool) (op : Byte) : Bool :=
  match entryOf usbcEb op with
  | .f1 (.unknown _) => false
  | _ => true

/-! ## Decoding -/

/-- Why bytes give no instruction. An unrecognised opcode is not among the reasons: it decodes to `Instr.unknown`,
whose execution raises UnknownOpcode. -/
inductive DecodeError where
  /-- There is no opcode byte. -/
  | noBytes
  /-- The operand bytes of opcode `op` are cut off. -/
  | truncated (op : Byte)
deriving DecidableEq, Repr

/-- Reads one instruction from the front of `bytes` and gives back the rest (R100, R102, R106).
Total on any bytes. Operands are little-endian. -/
def decode (usbcEb : Bool) (bytes : List Byte) : Except DecodeError (Instr × List Byte) :=
  match bytes with
  | [] => .error .noBytes
  | op :: operands =>
    match entryOf usbcEb op, operands with
    | .f1 i, rest => .ok (i, rest)
    | .f2 make, b1 :: rest => .ok (make b1, rest)
    | .f3 make, b1 :: b2 :: rest => .ok (make (w16 b1 b2), rest)
    | .f2 _, [] => .error (.truncated op)
    | .f3 _, [] => .error (.truncated op)
    | .f3 _, [_] => .error (.truncated op)

/-- The three bytes an instruction of `nbits` bits starts with, when its bits are numbered as spec/opcode_table.json
numbers them (bit 0 the least significant bit of the first byte) and every bit from `nbits` up is 0. -/
def tableBytes (nbits w : Nat) : List Byte :=
  let v := w % 2 ^ nbits
  [BitVec.ofNat 8 v, BitVec.ofNat 8 (v / 2 ^ 8), BitVec.ofNat 8 (v / 2 ^ 16)]

/-- The instruction the decoder reads from a word of spec/opcode_table.json, at the default of USBC_EB. -/
def decodeTableWord (nbits w : Nat) : Option Instr :=
  match decode Config.default.usbcEb (tableBytes nbits w) with
  | .ok (i, _) => some i
  | .error _ => none

/-! ## Encoding -/

/-- The opcode bytes of one mnemonic by mode, as its rule's Encoding line lists them; `none` where it lists no byte. -/
structure OpcodeBytes where
  imm  : Option Byte := none
  acc  : Option Byte := none
  zp   : Option Byte := none
  zpx  : Option Byte := none
  zpy  : Option Byte := none
  abs  : Option Byte := none
  absx : Option Byte := none
  absy : Option Byte := none
  indx : Option Byte := none
  indy : Option Byte := none

/-- The byte for a memory operand. -/
def OpcodeBytes.ofMem (t : OpcodeBytes) : MemOperand → Option Byte
  | .zeroPage _        => t.zp
  | .zeroPageX _       => t.zpx
  | .zeroPageY _       => t.zpy
  | .absolute _        => t.abs
  | .absoluteX _       => t.absx
  | .absoluteY _       => t.absy
  | .indexedIndirect _ => t.indx
  | .indirectIndexed _ => t.indy

/-- The byte for a read operand. -/
def OpcodeBytes.ofRead (t : OpcodeBytes) : ReadOperand → Option Byte
  | .immediate _ => t.imm
  | .mem m       => t.ofMem m

/-- The byte for a shift operand. -/
def OpcodeBytes.ofShift (t : OpcodeBytes) : ShiftOperand → Option Byte
  | .accumulator => t.acc
  | .mem m       => t.ofMem m

/-- The opcode byte of an instruction, from the Encoding lines of 41 to 49; `none` for a mode without encoding. -/
def Instr.opcode : Instr → Option Byte
  | .lda o => OpcodeBytes.ofRead { imm := some 0xA9, zp := some 0xA5, zpx := some 0xB5, abs := some 0xAD, absx := some 0xBD, absy := some 0xB9, indx := some 0xA1, indy := some 0xB1 } o
  | .ldx o => OpcodeBytes.ofRead { imm := some 0xA2, zp := some 0xA6, zpy := some 0xB6, abs := some 0xAE, absy := some 0xBE } o
  | .ldy o => OpcodeBytes.ofRead { imm := some 0xA0, zp := some 0xA4, zpx := some 0xB4, abs := some 0xAC, absx := some 0xBC } o
  | .sta m => OpcodeBytes.ofMem { zp := some 0x85, zpx := some 0x95, abs := some 0x8D, absx := some 0x9D, absy := some 0x99, indx := some 0x81, indy := some 0x91 } m
  | .stx m => OpcodeBytes.ofMem { zp := some 0x86, zpy := some 0x96, abs := some 0x8E } m
  | .sty m => OpcodeBytes.ofMem { zp := some 0x84, zpx := some 0x94, abs := some 0x8C } m
  | .tax => some 0xAA
  | .tay => some 0xA8
  | .txa => some 0x8A
  | .tya => some 0x98
  | .tsx => some 0xBA
  | .txs => some 0x9A
  | .adc o => OpcodeBytes.ofRead { imm := some 0x69, zp := some 0x65, zpx := some 0x75, abs := some 0x6D, absx := some 0x7D, absy := some 0x79, indx := some 0x61, indy := some 0x71 } o
  | .sbc o => OpcodeBytes.ofRead { imm := some 0xE9, zp := some 0xE5, zpx := some 0xF5, abs := some 0xED, absx := some 0xFD, absy := some 0xF9, indx := some 0xE1, indy := some 0xF1 } o
  | .and o => OpcodeBytes.ofRead { imm := some 0x29, zp := some 0x25, zpx := some 0x35, abs := some 0x2D, absx := some 0x3D, absy := some 0x39, indx := some 0x21, indy := some 0x31 } o
  | .ora o => OpcodeBytes.ofRead { imm := some 0x09, zp := some 0x05, zpx := some 0x15, abs := some 0x0D, absx := some 0x1D, absy := some 0x19, indx := some 0x01, indy := some 0x11 } o
  | .eor o => OpcodeBytes.ofRead { imm := some 0x49, zp := some 0x45, zpx := some 0x55, abs := some 0x4D, absx := some 0x5D, absy := some 0x59, indx := some 0x41, indy := some 0x51 } o
  | .bit m => OpcodeBytes.ofMem { zp := some 0x24, abs := some 0x2C } m
  | .asl o => OpcodeBytes.ofShift { acc := some 0x0A, zp := some 0x06, zpx := some 0x16, abs := some 0x0E, absx := some 0x1E } o
  | .lsr o => OpcodeBytes.ofShift { acc := some 0x4A, zp := some 0x46, zpx := some 0x56, abs := some 0x4E, absx := some 0x5E } o
  | .rol o => OpcodeBytes.ofShift { acc := some 0x2A, zp := some 0x26, zpx := some 0x36, abs := some 0x2E, absx := some 0x3E } o
  | .ror o => OpcodeBytes.ofShift { acc := some 0x6A, zp := some 0x66, zpx := some 0x76, abs := some 0x6E, absx := some 0x7E } o
  | .cmp o => OpcodeBytes.ofRead { imm := some 0xC9, zp := some 0xC5, zpx := some 0xD5, abs := some 0xCD, absx := some 0xDD, absy := some 0xD9, indx := some 0xC1, indy := some 0xD1 } o
  | .cpx o => OpcodeBytes.ofRead { imm := some 0xE0, zp := some 0xE4, abs := some 0xEC } o
  | .cpy o => OpcodeBytes.ofRead { imm := some 0xC0, zp := some 0xC4, abs := some 0xCC } o
  | .inc m => OpcodeBytes.ofMem { zp := some 0xE6, zpx := some 0xF6, abs := some 0xEE, absx := some 0xFE } m
  | .dec m => OpcodeBytes.ofMem { zp := some 0xC6, zpx := some 0xD6, abs := some 0xCE, absx := some 0xDE } m
  | .inx => some 0xE8
  | .iny => some 0xC8
  | .dex => some 0xCA
  | .dey => some 0x88
  | .pha => some 0x48
  | .pla => some 0x68
  | .php => some 0x08
  | .plp => some 0x28
  | .jsr _ => some 0x20
  | .rts => some 0x60
  | .brk => some 0x00
  | .rti => some 0x40
  | .jmp (.absolute _) => some 0x4C
  | .jmp (.indirect _) => some 0x6C
  | .bpl _ => some 0x10
  | .bmi _ => some 0x30
  | .bvc _ => some 0x50
  | .bvs _ => some 0x70
  | .bcc _ => some 0x90
  | .bcs _ => some 0xB0
  | .bne _ => some 0xD0
  | .beq _ => some 0xF0
  | .clc => some 0x18
  | .sec => some 0x38
  | .cli => some 0x58
  | .sei => some 0x78
  | .cld => some 0xD8
  | .sed => some 0xF8
  | .clv => some 0xB8
  | .nop => some 0xEA
  | .slo m => OpcodeBytes.ofMem { zp := some 0x07, zpx := some 0x17, abs := some 0x0F, absx := some 0x1F, absy := some 0x1B, indx := some 0x03, indy := some 0x13 } m
  | .rla m => OpcodeBytes.ofMem { zp := some 0x27, zpx := some 0x37, abs := some 0x2F, absx := some 0x3F, absy := some 0x3B, indx := some 0x23, indy := some 0x33 } m
  | .sre m => OpcodeBytes.ofMem { zp := some 0x47, zpx := some 0x57, abs := some 0x4F, absx := some 0x5F, absy := some 0x5B, indx := some 0x43, indy := some 0x53 } m
  | .rra m => OpcodeBytes.ofMem { zp := some 0x67, zpx := some 0x77, abs := some 0x6F, absx := some 0x7F, absy := some 0x7B, indx := some 0x63, indy := some 0x73 } m
  | .dcp m => OpcodeBytes.ofMem { zp := some 0xC7, zpx := some 0xD7, abs := some 0xCF, absx := some 0xDF, absy := some 0xDB, indx := some 0xC3, indy := some 0xD3 } m
  | .isc m => OpcodeBytes.ofMem { zp := some 0xE7, zpx := some 0xF7, abs := some 0xEF, absx := some 0xFF, absy := some 0xFB, indx := some 0xE3, indy := some 0xF3 } m
  | .lax m => OpcodeBytes.ofMem { zp := some 0xA7, zpy := some 0xB7, abs := some 0xAF, absy := some 0xBF, indx := some 0xA3, indy := some 0xB3 } m
  | .sax m => OpcodeBytes.ofMem { zp := some 0x87, zpy := some 0x97, abs := some 0x8F, indx := some 0x83 } m
  | .nopImplied op => some op
  | .nopImmediate op _ => some op
  | .nopMemory op _ => some op
  | .sbcImmediateEB _ => some 0xEB
  | .unknown op => some op

/-- The operand bytes of a word, low byte first (R102). -/
def wordBytes (w : Word) : List Byte := [lo w, hi w]

/-- The operand bytes of a memory operand. -/
def MemOperand.bytes : MemOperand → List Byte
  | .zeroPage b | .zeroPageX b | .zeroPageY b | .indexedIndirect b | .indirectIndexed b => [b]
  | .absolute w | .absoluteX w | .absoluteY w => wordBytes w

/-- The operand bytes of a read operand. -/
def ReadOperand.bytes : ReadOperand → List Byte
  | .immediate v => [v]
  | .mem m       => m.bytes

/-- The operand bytes of a shift operand. -/
def ShiftOperand.bytes : ShiftOperand → List Byte
  | .accumulator => []
  | .mem m       => m.bytes

/-- The operand bytes of an instruction (R100, R102 to R105). -/
def Instr.operandBytes : Instr → List Byte
  | .lda o | .ldx o | .ldy o | .adc o | .sbc o | .and o | .ora o | .eor o | .cmp o | .cpx o | .cpy o => o.bytes
  | .sta m | .stx m | .sty m | .bit m | .inc m | .dec m => m.bytes
  | .slo m | .rla m | .sre m | .rra m | .dcp m | .isc m | .lax m | .sax m | .nopMemory _ m => m.bytes
  | .asl o | .lsr o | .rol o | .ror o => o.bytes
  | .jsr w | .jmp (.absolute w) | .jmp (.indirect w) => wordBytes w
  | .bpl b | .bmi b | .bvc b | .bvs b | .bcc b | .bcs b | .bne b | .beq b => [b]
  | .nopImmediate _ v | .sbcImmediateEB v => [v]
  | .tax | .tay | .txa | .tya | .tsx | .txs | .inx | .iny | .dex | .dey => []
  | .pha | .pla | .php | .plp | .rts | .brk | .rti => []
  | .clc | .sec | .cli | .sei | .cld | .sed | .clv | .nop => []
  | .nopImplied _ | .unknown _ => []

/-- The bytes of a well-formed instruction: its opcode byte, then its operand bytes.
An instruction whose mode has no encoding has no bytes. -/
def encode (i : Instr) : List Byte :=
  match i.opcode with
  | some op => op :: i.operandBytes
  | none => []

/-- The byte length of an instruction with this operand (R101). -/
def MemOperand.len (m : MemOperand) : Nat := 1 + m.bytes.length
def ReadOperand.len (o : ReadOperand) : Nat := 1 + o.bytes.length
def ShiftOperand.len (o : ShiftOperand) : Nat := 1 + o.bytes.length

/-- The byte length of an instruction (R101). -/
def Instr.length (i : Instr) : Nat := 1 + i.operandBytes.length

end Sys2Proof
end

