-- ==== Sys2Proof/Machine/State.lean ====
section
/-! DEFINITION. What the machine holds (10_state.md R30, R47), the errors a step reports (60_exceptions.md R300), the reasons a step stops, and the state after construction at the defaults (R49). -/

namespace Sys2Proof.Machine

/-- The direction of a memory access, as MemoryAccessError records it (60 R306). -/
inductive Access where
  | read
  | write
deriving DecidableEq, Repr

/-- The error kinds of R300 with the info each records. -/
inductive StepError where
  /-- Break: a BRK executed (R303). -/
  | brk
  /-- UnknownOpcode: the byte fetched at PC is not recognised (R304). -/
  | unknownOpcode (op : Byte)
  /-- StackOverflow: a push with SP = 0x00 (R305). -/
  | stackOverflow
  /-- StackEmpty: a pull with SP = 0xFF (R305). -/
  | stackEmpty
  /-- FailedParsingEntryPoint: a reset-vector byte cannot be read; construction only (R307). -/
  | failedParsingEntryPoint
  /-- MemoryAccessError: an access to an address the mapper does not map (R306). -/
  | memoryAccess (addr : Word) (dir : Access)
deriving DecidableEq, Repr

/-- The numeric code of an error kind (R300, D27). -/
def StepError.code : StepError → Nat
  | .brk                     => 1
  | .unknownOpcode _         => 2
  | .stackOverflow           => 3
  | .stackEmpty              => 4
  | .failedParsingEntryPoint => 5
  | .memoryAccess _ _        => 6

/-- The run status (10_state.md R47). -/
inductive RunStatus where
  | running
  | stopped (e : StepError)
deriving DecidableEq, Repr

/-- The seven flags (R30, R37). The status byte P is computed from them (R39, R46). -/
structure Flags where
  c : Bool
  z : Bool
  i : Bool
  d : Bool
  b : Bool
  v : Bool
  n : Bool
deriving DecidableEq, Repr

/-- Memory: (address, byte) pairs, addresses strictly rising, no byte 0x00 listed (`Memory.wf`).
A storage cell of the mapper is listed at its home (`StorageCell.home`): the lowest CPU address that resolves to it, or a
number above the address space for a PRG-RAM cell that no address reaches. -/
abbrev Memory := List Host.Cell

/-- Everything the spec gives the machine. `cfg` is the mapper handle of R30 and the step's parameters (R48, log entry 2). -/
structure State where
  a     : Byte
  x     : Byte
  y     : Byte
  sp    : Byte
  pc    : Word
  flags : Flags
  cyc   : Nat
  run   : RunStatus
  mem   : Memory
  cfg   : Config
deriving DecidableEq, Repr

/-- Why the machine stops without a next state. -/
inductive Fault where
  /-- Raised by `step` alone, asked to step a run that error `e` has ended: the step returns the same error and changes
  nothing (60 R310). Safe: the spec gives such a step no other effect. -/
  | stopped (e : StepError)
deriving DecidableEq, Repr

/-- Why the model gives an instruction no meaning. -/
inductive Refusal where
  /-- Raised by an arm of `exec` whose instruction has no meaning in this model (no arm does). Safe. -/
  | notModelled (mnemonic : String)
deriving DecidableEq, Repr

/-- The outcomes of a step of this machine. -/
abbrev Out := Host.Outcome State Fault Refusal

/-- The flags after construction (R49). -/
def Flags.reset : Flags where
  c := false
  z := false
  i := true
  d := false
  b := false
  v := false
  n := false

/-- The state after construction at the defaults (R49, R341).
PC is 0x0000 because the vector bytes 0xFFFC and 0xFFFD are the all-zero draw of INIT_MEM.
DESIGN CHOICE (log entry 6), unsafe: the spec fixes no INIT_MEM; a run from here is the run of one draw. -/
def State.reset : State where
  a     := 0x00
  x     := 0x00
  y     := 0x00
  sp    := Params.default.spReset
  pc    := 0x0000
  flags := Flags.reset
  cyc   := Params.default.cycleReset
  run   := .running
  mem   := []
  cfg   := Config.default

end Sys2Proof.Machine
end

