-- ==== Sys2Proof/Machine/Flags.lean ====
section
/-! DEFINITION. Every flag computation the spec gives: Z and N (00_scope.md R11), the packed status byte (10_state.md R39, R40), the adder (42 R170), the compare (45 R200), the bit test (43 R183) and the carries of the shifts (44 R190 to R194). Pure functions of values and flags. -/

namespace Sys2Proof.Machine

/-- `setZN(v)`: Z from v = 0, N from bit 7 (R11). -/
def Flags.setZN (f : Flags) (v : Byte) : Flags := { f with z := v == 0, n := v.msb }

/-- `pack(b4)`: N V 1 b4 D I Z C, bit 7 first (R39). -/
def Flags.pack (f : Flags) (b4 : Bool) : Byte :=
  BitVec.ofBool f.n ++ BitVec.ofBool f.v ++ 1#1 ++ BitVec.ofBool b4 ++
    BitVec.ofBool f.d ++ BitVec.ofBool f.i ++ BitVec.ofBool f.z ++ BitVec.ofBool f.c

/-- The flags from a pulled status byte; B from bit 4 only if `loadB`; bit 5 is ignored (R40). -/
def Flags.unpack (f : Flags) (loadB : Bool) (p : Byte) : Flags where
  c := p.getLsbD 0
  z := p.getLsbD 1
  i := p.getLsbD 2
  d := p.getLsbD 3
  b := if loadB then p.getLsbD 4 else f.b
  v := p.getLsbD 6
  n := p.getLsbD 7

/-- A byte an operation computes, with the flags it leaves. -/
structure AluResult where
  value : Byte
  flags : Flags
deriving DecidableEq, Repr

/-- The adder: `a + m + C` in exact arithmetic, C its carry-out, V the signed overflow, Z and N of the result (R170).
D is not read (R171). -/
def addC (a m : Byte) (f : Flags) : AluResult :=
  let s := a.toNat + m.toNat + f.c.toNat
  let r := BitVec.ofNat 8 s
  { value := r
    flags := { f with
      v := ((a ^^^ r) &&& (m ^^^ r) &&& 0x80) != 0
      c := decide (255 < s) }.setZN r }

/-- The compare: C from the unsigned `reg ≥ m`, Z from equality, N from bit 7 of the difference (R200). -/
def Flags.compare (f : Flags) (reg m : Byte) : Flags :=
  { f with c := decide (m.toNat ≤ reg.toNat), z := reg == m, n := (reg - m).msb }

/-- The bit test: Z from `a & m`, V and N from bits 6 and 7 of `m` (R183). -/
def Flags.bitTest (f : Flags) (a m : Byte) : Flags :=
  { f with z := (a &&& m) == 0, v := m.getLsbD 6, n := m.getLsbD 7 }

/-- A one-operand primitive before Z and N are set: its result and the flags with the new carry. -/
abbrev Primitive := Byte → Flags → AluResult

/-- ASL: C from the old bit 7, bit 0 cleared (R191). -/
def aslOp : Primitive := fun v f => ⟨v <<< 1, { f with c := v.getLsbD 7 }⟩

/-- LSR: C from the old bit 0, bit 7 cleared (R192). -/
def lsrOp : Primitive := fun v f => ⟨v >>> 1, { f with c := v.getLsbD 0 }⟩

/-- ROL: C from the old bit 7, the previous C into bit 0 (R193). -/
def rolOp : Primitive := fun v f => ⟨v <<< 1 ||| (BitVec.ofBool f.c).setWidth 8, { f with c := v.getLsbD 7 }⟩

/-- ROR: C from the old bit 0, the previous C into bit 7 (R194). -/
def rorOp : Primitive := fun v f => ⟨v >>> 1 ||| (BitVec.ofBool f.c).setWidth 8 <<< 7, { f with c := v.getLsbD 0 }⟩

/-- The increment of INC: no flag of its own before Z and N (R204). -/
def incOp : Primitive := fun v f => ⟨v + 1, f⟩

/-- The decrement of DEC (R205). -/
def decOp : Primitive := fun v f => ⟨v - 1, f⟩

end Sys2Proof.Machine
end

