-- ==== Sys2Proof/Machine/Mapper.lean ====
section
/-! DEFINITION. Memory as a canonical list of (address, byte), and the fixed-bank mapper over it (20_memory.md R70 to R83): which cell an address resolves to, reading a cell and writing one. -/

namespace Sys2Proof.Machine

/-! ## The list -/

/-- What a cell that is not listed holds. No source fixes the content of RAM at construction (R82, D9).
DESIGN CHOICE (log entry 3), unsafe: 0x00, the draw of 95_test_vectors.md section 0. -/
def Memory.unlisted : Byte := 0x00

/-- The byte at address `k`. -/
def Memory.get (m : Memory) (k : Nat) : Byte :=
  match m with
  | [] => Memory.unlisted
  | (j, w) :: rest => if j = k then w else Memory.get rest k

/-- `m` with byte `v` at the front for address `k`, which is below every listed one; not listed if `v` is what an
unlisted cell holds. -/
def Memory.consCell (k : Nat) (v : Byte) (m : Memory) : Memory :=
  if v = Memory.unlisted then m else (k, v) :: m

/-- `m` with byte `v` at address `k`, in canonical form. -/
def Memory.set (m : Memory) (k : Nat) (v : Byte) : Memory :=
  match m with
  | [] => Memory.consCell k v []
  | (j, w) :: rest =>
    if k < j then Memory.consCell k v ((j, w) :: rest)
    else if j = k then Memory.consCell k v rest
    else (j, w) :: Memory.set rest k v

/-- The canonical form: addresses strictly rising, no byte listed that an unlisted cell holds. -/
def Memory.wf (m : Memory) : Bool :=
  match m with
  | [] => true
  | (k, v) :: rest => v != Memory.unlisted && rest.all (fun c => decide (k < c.1)) && Memory.wf rest

/-! ## The mapper -/

/-- Where a cell is listed: the lowest CPU address that resolves to it (R75 to R78); the PRG-RAM cells 8192 and above, which
no address reaches (R77), from 0x10000 on. Log entry 4. -/
def StorageCell.home : StorageCell → Nat
  | .generalRam a => a.toNat
  | .prgRam k     => if k < 0x2000 then 0x6000 + k else 0xE000 + k
  | .prgRom k     => 0x8000 + k

/-- The number of PRG-ROM bytes (R75, R76, R80). -/
def romBytes : RomBanks → Nat
  | .none => 0
  | .one  => 0x4000
  | .two  => 0x8000

/-- The address is in GENERAL_RAM (00_scope.md R7). -/
def inGeneralRam (c : Config) (a : Word) : Bool :=
  c.generalRam.any fun r => decide (r.first.toNat ≤ a.toNat) && decide (a.toNat ≤ r.last.toNat)

/-- The address is in the PRG-ROM window, which exists when PRG_ROM is not empty (R75, R76, R80). -/
def inRomWindow (c : Config) (a : Word) : Bool :=
  decide (0x8000 ≤ a.toNat) && decide (0 < romBytes c.romBanks)

/-- The address is in the PRG-RAM window, which exists when PRG_RAM_SIZE > 0 (R77). -/
def inPrgRamWindow (c : Config) (a : Word) : Bool :=
  decide (0x6000 ≤ a.toNat) && decide (a.toNat < 0x8000) && decide (0 < c.prgRamSize)

/-- The one cell an address resolves to, or none when it is unmapped (R73, R75 to R78). -/
def resolveCell (c : Config) (a : Word) : Option StorageCell :=
  if inRomWindow c a then some (.prgRom ((a.toNat - 0x8000) % romBytes c.romBanks))
  else if inPrgRamWindow c a then some (.prgRam ((a.toNat - 0x6000) % c.prgRamSize))
  else if inGeneralRam c a then some (.generalRam a)
  else none

/-- The cells the mapper has (R74): the bytes of PRG_ROM, PRG_RAM_SIZE PRG-RAM cells, and one general-RAM cell for each
fallback address of GENERAL_RAM (R78). -/
def cellExists (c : Config) : StorageCell → Bool
  | .generalRam a => !inRomWindow c a && !inPrgRamWindow c a && inGeneralRam c a
  | .prgRam k     => decide (k < c.prgRamSize)
  | .prgRom k     => decide (k < romBytes c.romBanks)

/-- `k` is the home of a cell the mapper has. -/
def isHome (c : Config) (k : Nat) : Bool :=
  [StorageCell.generalRam (BitVec.ofNat 16 k), .prgRam (k - 0x6000), .prgRam (k - 0xE000), .prgRom (k - 0x8000)].any
    fun cell => cellExists c cell && decide (cell.home = k)

/-- Memory lists only cells the mapper has. -/
def Memory.within (c : Config) (m : Memory) : Bool := m.all fun entry => isHome c entry.1

/-- A write changes this cell (R77, R78); a PRG-ROM cell only under ROM_WRITE = store (R79). -/
def writable (c : Config) : StorageCell → Bool
  | .generalRam _ => true
  | .prgRam _     => true
  | .prgRom _     => decide (c.romWrite = .store)

/-- The state with memory `m`. -/
def State.setMem (s : State) (m : Memory) : State := { s with mem := m }

/-- The byte a storage cell holds (R83). -/
def State.cellByte (s : State) (cell : StorageCell) : Byte := s.mem.get cell.home

/-- The state with `v` in a storage cell. -/
def State.setCell (s : State) (cell : StorageCell) (v : Byte) : State := s.setMem (s.mem.set cell.home v)

/-- The byte an address reads as, or none when it is unmapped (R71, R83). -/
def State.readByte (s : State) (a : Word) : Option Byte := (resolveCell s.cfg a).map s.cellByte

/-- The state after a write of `v` at `a`: stored, or ignored in PRG-ROM; none when `a` is unmapped (R72, R79). -/
def State.writeByte (s : State) (a : Word) (v : Byte) : Option State :=
  (resolveCell s.cfg a).map fun cell => if writable s.cfg cell then s.setCell cell v else s

/-- The state with `v` placed in the cell of `a`, ROM or RAM, as a loader from outside the machine places it
(log entry 13); unchanged when `a` is unmapped. -/
def State.placeByte (s : State) (a : Word) (v : Byte) : State :=
  match resolveCell s.cfg a with
  | some cell => s.setCell cell v
  | none => s

end Sys2Proof.Machine
end

