-- ==== Sys2Proof/Machine/Ops.lean ====
section
/-! DEFINITION. The named operations of 00_scope.md R11 that every meaning is built from: register updates, MemRead and MemWrite with their error, Push and Pull (10_state.md R41, R42), raising an error (60 R300 to R302), BRK's entry (46 R228, 60 R311) and the return beside it (R229, R312), and the advance of PC and CYC (40 R138). -/

namespace Sys2Proof.Machine

/-! ## Part of a step -/

/-- The result of part of a step: a value, or the error raised and the state it leaves (60 R302). -/
inductive Res (α : Type) where
  | ok (v : α)
  | err (e : StepError) (s : State)
deriving DecidableEq, Repr

/-- `r`, and then `k` of its value; an error ends the step at once (R11, `raise`). -/
def Res.bind {α β : Type} (r : Res α) (k : α → Res β) : Res β :=
  match r with
  | .ok v => k v
  | .err e s => .err e s

/-! ## Registers -/

def State.setA (s : State) (v : Byte) : State := { s with a := v }
def State.setX (s : State) (v : Byte) : State := { s with x := v }
def State.setY (s : State) (v : Byte) : State := { s with y := v }
def State.setSP (s : State) (v : Byte) : State := { s with sp := v }
def State.setPC (s : State) (w : Word) : State := { s with pc := w }
def State.setFlags (s : State) (f : Flags) : State := { s with flags := f }
def State.setRun (s : State) (r : RunStatus) : State := { s with run := r }
/-- CYC only grows (10_state.md R45). -/
def State.addCyc (s : State) (n : Nat) : State := { s with cyc := s.cyc + n }

/-- `setZN(v)` on the state's flags (R11). -/
def State.setZN (s : State) (v : Byte) : State := s.setFlags (s.flags.setZN v)

/-- The *Advancing* state of an instruction that does not set PC: PC by its length, CYC by its cost (40 R138). -/
def State.advance (s : State) (len cycles : Nat) : State := (s.setPC (s.pc + BitVec.ofNat 16 len)).addCyc cycles

/-- The end of an instruction that sets PC itself (10_state.md R35). -/
def State.jumpTo (s : State) (target : Word) (cycles : Nat) : State := (s.setPC target).addCyc cycles

/-! ## Memory -/

/-- `MemRead(a, 1)` (20_memory.md R71). -/
def memRead (a : Word) (s : State) : Res Byte :=
  match s.readByte a with
  | some v => .ok v
  | none => .err (.memoryAccess a .read) s

/-- `MemWrite(a, 1, v)` (R72). -/
def memWrite (a : Word) (v : Byte) (s : State) : Res State :=
  match s.writeByte a v with
  | some t => .ok t
  | none => .err (.memoryAccess a .write) s

/-- The word whose low byte is at `la` and whose high byte is at `ha`, read in that order (R84, 60 R309). -/
def readPair (la ha : Word) (s : State) : Res Word :=
  (memRead la s).bind fun l => (memRead ha s).bind fun h => .ok (w16 l h)

/-- `Read16(a)`: the high byte comes from the next address, with full carry (00_scope.md R11). -/
def read16 (a : Word) (s : State) : Res Word := readPair a (a + 1) s

/-! ## The stack -/

/-- The stack cell that offset `sp` names (10_state.md R34). -/
def stackAddr (sp : Byte) : Word := 0x0100 + sp.setWidth 16

/-- `Push(v)`: store, then decrement; with SP = 0x00 the byte is stored and StackOverflow raised (R41). -/
def push (v : Byte) (s : State) : Res State :=
  (memWrite (stackAddr s.sp) v s).bind fun t =>
    if t.sp = 0x00 then .err .stackOverflow t else .ok (t.setSP (t.sp - 1))

/-- A byte pulled from the stack, and the state after the pull. -/
structure Pulled where
  value : Byte
  state : State
deriving DecidableEq, Repr

/-- `Pull()`: increment, then load; with SP = 0xFF StackEmpty is raised before any change (R42). -/
def pull (s : State) : Res Pulled :=
  if s.sp = 0xFF then .err .stackEmpty s
  else
    let t := s.setSP (s.sp + 1)
    (memRead (stackAddr t.sp) t).bind fun v => .ok ⟨v, t⟩

/-- A word pushed high byte first, so that it lies little-endian on the stack (R85, 46 R226). -/
def pushWord (w : Word) (s : State) : Res State := (push (hi w) s).bind (push (lo w))

/-- A word pulled from the stack, and the state after its two pulls. -/
structure PulledWord where
  value : Word
  state : State
deriving DecidableEq, Repr

/-- A word pulled low byte first (46 R227, R229). -/
def pullWord (s : State) : Res PulledWord :=
  (pull s).bind fun l => (pull l.state).bind fun h => .ok ⟨w16 l.value h.value, h.state⟩

/-! ## Errors, BRK's entry and the return -/

/-- Raising error `e` in state `s`: the step ends, the writes already made stay, PC and CYC are not advanced, and the run
status becomes stopped (60 R300 to R302, 40 R138). Log entry 1. -/
def raise (e : StepError) (s : State) : Out := .next (s.setRun (.stopped e))

/-- The outcome of a whole step from the result of its parts. -/
def finish (r : Res State) : Out :=
  match r with
  | .ok s => .next s
  | .err e s => raise e s

/-- BRK's entry under BRK_EFFECTS = full: push PC + 2 and `pack(1)`, set I, go to the address at 0xFFFE (46 R228, 60 R311). -/
def breakEntry (s : State) : Res State :=
  (pushWord (s.pc + 2) s).bind fun t =>
    (push (t.flags.pack true) t).bind fun u =>
      let w := u.setFlags { u.flags with i := true }
      (read16 0xFFFE w).bind fun target => .ok (w.setPC target)

/-- The return from interrupt: every flag from the pulled status byte, B too, then PC, without adding 1 (46 R229, 60 R312).
`cycles` is RTI's cost. -/
def interruptReturn (cycles : Nat) (s : State) : Res State :=
  (pull s).bind fun p =>
    let t := p.state.setFlags (p.state.flags.unpack true p.value)
    (pullWord t).bind fun r => .ok (r.state.jumpTo r.value cycles)

end Sys2Proof.Machine
end

