-- ==== Sys2Proof/Machine/Operands.lean ====
section
/-! DEFINITION. The address arithmetic of 00_scope.md R15 to R20, the resolvers of the thirteen addressing modes (40_addressing.md R120 to R134) and the operand accesses `Load` and `StoreTo` (R135). -/

namespace Sys2Proof.Machine

/-! ## Address arithmetic -/

/-- `zext_16(v)` (R9). -/
def zext16 (v : Byte) : Word := v.setWidth 16

/-- `sext_16(v)` (R9). -/
def sext16 (v : Byte) : Word := v.signExtend 16

/-- `samepage(w, d)`: the low byte wraps, the high byte stays (R18). -/
def samepage (w : Word) (d : Byte) : Word := w16 (lo w + d) (hi w)

/-- `crossed(base, ea)`: the high bytes differ (R19). -/
def crossed (base ea : Word) : Bool := hi base != hi ea

/-! ## Resolvers -/

/-- What a memory resolver gives: the effective address and the page-cross bit (R120). -/
structure Resolved where
  ea    : Word
  cross : Bool
deriving DecidableEq, Repr

/-- An effective address `base +16 zext_16(index)` with its page-cross bit (R126, R127, R131). -/
def indexed (base : Word) (index : Byte) : Resolved :=
  let ea := base + zext16 index
  ⟨ea, crossed base ea⟩

/-- The word in the zero page at pointer `p`; the second byte wraps inside the page (R130, R131). -/
def zeroPagePointer (p : Byte) (s : State) : Res Word := readPair (zext16 p) (zext16 (p + 1)) s

/-- The resolver of the eight modes whose operand is in memory (R122 to R127, R130, R131). -/
def resolve (m : MemOperand) (s : State) : Res Resolved :=
  match m with
  | .zeroPage b  => .ok ⟨zext16 b, false⟩
  | .zeroPageX b => .ok ⟨zext16 (b + s.x), false⟩
  | .zeroPageY b => .ok ⟨zext16 (b + s.y), false⟩
  | .absolute w  => .ok ⟨w, false⟩
  | .absoluteX w => .ok (indexed w s.x)
  | .absoluteY w => .ok (indexed w s.y)
  | .indexedIndirect b => (zeroPagePointer (b + s.x) s).bind fun ea => .ok ⟨ea, false⟩
  | .indirectIndexed b => (zeroPagePointer b s).bind fun base => .ok (indexed base s.y)

/-- The target of a relative operand: the next instruction's address plus the signed offset (R132). -/
def branchTarget (pc : Word) (offset : Byte) : Word := pc + 2 + sext16 offset

/-- The target of JMP: the operand word (R125), or the word at the pointer, whose high byte is fetched inside the
pointer's page (R129). -/
def jumpTarget (o : JumpOperand) (s : State) : Res Word :=
  match o with
  | .absolute target => .ok target
  | .indirect ptr    => readPair ptr (samepage ptr 1) s

/-! ## Operand accesses -/

/-- A loaded operand byte and the page-cross bit of its resolver. -/
structure Loaded where
  value : Byte
  cross : Bool
deriving DecidableEq, Repr

/-- `Load(o)` of a memory operand (R135). -/
def loadMem (m : MemOperand) (s : State) : Res Loaded :=
  (resolve m s).bind fun r => (memRead r.ea s).bind fun v => .ok ⟨v, r.cross⟩

/-- `Load(o)` of a read operand: the literal (R121) or the byte in memory (R135). -/
def load (o : ReadOperand) (s : State) : Res Loaded :=
  match o with
  | .immediate v => .ok ⟨v, false⟩
  | .mem m       => loadMem m s

end Sys2Proof.Machine
end

