-- ==== Sys2Proof/Machine/Timing.lean ====
section
/-! DEFINITION. The cycle costs (70_reset_and_hazards.md R349 to R352): base cycles by class of instruction and mode, the page-cross penalty (40 R128), the branch penalty (R350), and the metadata table's base cost of every instruction (30_encoding.md R110). -/

namespace Sys2Proof.Machine

/-- Base cycles of an instruction that reads its memory operand (R352: LDA, LDX, LDY, ADC, SBC, AND, ORA, EOR, BIT, CMP,
CPX, CPY, LAX and the memory NOPs). -/
def readMemCycles : MemOperand → Nat
  | .zeroPage _        => 3
  | .zeroPageX _       => 4
  | .zeroPageY _       => 4
  | .absolute _        => 4
  | .absoluteX _       => 4
  | .absoluteY _       => 4
  | .indexedIndirect _ => 6
  | .indirectIndexed _ => 5

/-- Base cycles of a read operand; 2 in Immediate mode (R352). -/
def readCycles : ReadOperand → Nat
  | .immediate _ => 2
  | .mem m       => readMemCycles m

/-- Base cycles of a store (R352: STA, STX, STY, SAX). -/
def storeCycles : MemOperand → Nat
  | .zeroPage _        => 3
  | .zeroPageX _       => 4
  | .zeroPageY _       => 4
  | .absolute _        => 4
  | .absoluteX _       => 5
  | .absoluteY _       => 5
  | .indexedIndirect _ => 6
  | .indirectIndexed _ => 6

/-- Base cycles of a read-modify-write of memory (R352: the shifts, INC, DEC, SLO, RLA, SRE, RRA, DCP, ISC). -/
def modifyCycles : MemOperand → Nat
  | .zeroPage _        => 5
  | .zeroPageX _       => 6
  | .zeroPageY _       => 6
  | .absolute _        => 6
  | .absoluteX _       => 7
  | .absoluteY _       => 7
  | .indexedIndirect _ => 8
  | .indirectIndexed _ => 8

/-- Base cycles of a shift; 2 in Accumulator mode (R352). -/
def shiftCycles : ShiftOperand → Nat
  | .accumulator => 2
  | .mem m       => modifyCycles m

/-- Base cycles of JMP (R352). -/
def jumpCycles : JumpOperand → Nat
  | .absolute _ => 3
  | .indirect _ => 5

/-- The page-cross penalty of the read class: one cycle when the resolver crossed (R351). -/
def crossPenalty (cross : Bool) : Nat := cross.toNat

/-- The cost of a taken branch beyond its base: one, and one more onto another page than the next instruction's (R350). -/
def branchPenalty (next target : Word) : Nat := 1 + (crossed next target).toNat

end Sys2Proof.Machine

namespace Sys2Proof

open Sys2Proof.Machine

/-- The base cost of every recognised instruction, as the metadata table holds it (30 R110, 70 R352).
An unrecognised byte has none: its step adds nothing (R349). -/
def Instr.baseCycles : Instr → Nat
  | .lda o | .ldx o | .ldy o | .adc o | .sbc o | .and o | .ora o | .eor o | .cmp o | .cpx o | .cpy o => readCycles o
  | .bit m | .lax m | .nopMemory _ m => readMemCycles m
  | .sta m | .stx m | .sty m | .sax m => storeCycles m
  | .asl o | .lsr o | .rol o | .ror o => shiftCycles o
  | .inc m | .dec m | .slo m | .rla m | .sre m | .rra m | .dcp m | .isc m => modifyCycles m
  | .tax | .tay | .txa | .tya | .tsx | .txs | .inx | .iny | .dex | .dey => 2
  | .clc | .sec | .cli | .sei | .cld | .sed | .clv | .nop => 2
  | .nopImplied _ | .nopImmediate _ _ | .sbcImmediateEB _ => 2
  | .pha | .php => 3
  | .pla | .plp => 4
  | .jsr _ | .rts | .rti => 6
  | .brk => 7
  | .jmp o => jumpCycles o
  | .bpl _ | .bmi _ | .bvc _ | .bvs _ | .bcc _ | .bcs _ | .bne _ | .beq _ => 2
  | .unknown _ => 0

/-- The mode can set the page-cross bit (40 R128). -/
def MemOperand.canCross : MemOperand → Bool
  | .absoluteX _ | .absoluteY _ | .indirectIndexed _ => true
  | .zeroPage _ | .zeroPageX _ | .zeroPageY _ | .absolute _ | .indexedIndirect _ => false

/-- The page-cross mark of R352, `page_cross_penalty` of spec/opcode_table.json. -/
def Instr.pageCrossPenalty : Instr → Bool
  | .lda (.mem m) | .ldx (.mem m) | .ldy (.mem m) | .adc (.mem m) | .sbc (.mem m) => m.canCross
  | .and (.mem m) | .ora (.mem m) | .eor (.mem m) | .cmp (.mem m) | .lax m | .nopMemory _ m => m.canCross
  | .lda (.immediate _) | .ldx (.immediate _) | .ldy (.immediate _) | .adc (.immediate _) | .sbc (.immediate _) => false
  | .and (.immediate _) | .ora (.immediate _) | .eor (.immediate _) | .cmp (.immediate _) => false
  | .cpx _ | .cpy _ | .bit _ | .sta _ | .stx _ | .sty _ | .sax _ => false
  | .asl _ | .lsr _ | .rol _ | .ror _ | .inc _ | .dec _ => false
  | .slo _ | .rla _ | .sre _ | .rra _ | .dcp _ | .isc _ => false
  | .tax | .tay | .txa | .tya | .tsx | .txs | .inx | .iny | .dex | .dey => false
  | .pha | .pla | .php | .plp | .jsr _ | .rts | .brk | .rti | .jmp _ => false
  | .bpl _ | .bmi _ | .bvc _ | .bvs _ | .bcc _ | .bcs _ | .bne _ | .beq _ => false
  | .clc | .sec | .cli | .sei | .cld | .sed | .clv | .nop => false
  | .nopImplied _ | .nopImmediate _ _ | .sbcImmediateEB _ | .unknown _ => false

end Sys2Proof
end

