-- ==== Sys2Proof/Machine/Shapes.lean ====
section
/-! DEFINITION. The shapes an instruction's pseudocode takes (40_addressing.md R137, R138): resolve, run the primitive, advance PC and CYC. Each meaning is one of these with its own primitive. -/

namespace Sys2Proof.Machine

/-- A read-class instruction: load the operand, do `f`, charge the page-cross cycle (R128). -/
def readWith (o : ReadOperand) (f : Byte → State → State) (s : State) : Out :=
  finish ((load o s).bind fun l => .ok ((f l.value s).advance o.len (readCycles o + crossPenalty l.cross)))

/-- A read-class instruction whose operand can only be in memory. -/
def readMemWith (m : MemOperand) (f : Byte → State → State) (s : State) : Out := readWith (.mem m) f s

/-- A store of `v` (41 R153 to R155): no flag, never charged the page-cross cycle. -/
def storeValue (m : MemOperand) (v : Byte) (s : State) : Out :=
  finish ((resolve m s).bind fun r => (memWrite r.ea v s).bind fun t => .ok (t.advance m.len (storeCycles m)))

/-- A read-modify-write of memory (44 R190, 49 R280): read v, compute the result and its carry, write the result back at
the same address, then `after` with the result, whether or not the write was ignored. Never charged the page-cross cycle. -/
def modifyWith (m : MemOperand) (prim : Primitive) (after : Byte → State → State) (s : State) : Out :=
  finish ((resolve m s).bind fun r => (memRead r.ea s).bind fun v =>
    let p := prim v s.flags
    (memWrite r.ea p.value (s.setFlags p.flags)).bind fun t =>
      .ok ((after p.value t).advance m.len (modifyCycles m)))

/-- A shift or rotate, on A or on memory (44 R190). -/
def shiftWith (o : ShiftOperand) (prim : Primitive) (s : State) : Out :=
  match o with
  | .accumulator =>
    let p := prim s.a s.flags
    .next ((((s.setFlags p.flags).setA p.value).setZN p.value).advance 1 (shiftCycles .accumulator))
  | .mem m => modifyWith m prim (fun r t => t.setZN r) s

/-- An Implied instruction of two cycles that only changes registers and flags. -/
def implied (f : State → State) (s : State) : Out := .next ((f s).advance 1 2)

/-- `Branch(cond)` (47 R241): a taken branch goes to its target and pays the branch penalty (70 R350). -/
def branchIf (cond : Bool) (offset : Byte) (s : State) : Out :=
  let target := branchTarget s.pc offset
  if cond then .next (s.jumpTo target (2 + branchPenalty (s.pc + 2) target)) else .next (s.advance 2 2)

/-- `AddC(m)` on the state (42 R170). -/
def State.adc (s : State) (m : Byte) : State :=
  let r := addC s.a m s.flags
  (s.setA r.value).setFlags r.flags

/-- The subtraction: `AddC` of the complement (42 R173). -/
def State.sbc (s : State) (m : Byte) : State := s.adc (~~~m)

/-- `Compare(reg, m)` on the state (45 R200). -/
def State.compare (s : State) (reg m : Byte) : State := s.setFlags (s.flags.compare reg m)

/-- `A <- v; setZN(v)`, and the same of X and of Y. -/
def State.loadA (s : State) (v : Byte) : State := (s.setA v).setZN v
def State.loadX (s : State) (v : Byte) : State := (s.setX v).setZN v
def State.loadY (s : State) (v : Byte) : State := (s.setY v).setZN v

end Sys2Proof.Machine
end

