-- ==== Sys2Proof/Machine/Arithmetic.lean ====
section
/-! DEFINITION. 42_arithmetic.md, 43_logic.md and 45_compare_incdec.md: add, subtract, logic, bit test, compare, increment and decrement. -/

namespace Sys2Proof.Machine

/-- ADC: `AddC(Load(o))` (42 R172). -/
def execAdc (o : ReadOperand) (s : State) : Out := readWith o (fun m s => s.adc m) s

/-- SBC: `AddC(~Load(o))` (42 R173). -/
def execSbc (o : ReadOperand) (s : State) : Out := readWith o (fun m s => s.sbc m) s

/-- AND: `A <- A & m; setZN(A)` (43 R180). -/
def execAnd (o : ReadOperand) (s : State) : Out := readWith o (fun m s => s.loadA (s.a &&& m)) s

/-- ORA: `A <- A | m; setZN(A)` (43 R181). -/
def execOra (o : ReadOperand) (s : State) : Out := readWith o (fun m s => s.loadA (s.a ||| m)) s

/-- EOR: `A <- A ^ m; setZN(A)` (43 R182). -/
def execEor (o : ReadOperand) (s : State) : Out := readWith o (fun m s => s.loadA (s.a ^^^ m)) s

/-- BIT: Z from `A & m`, V and N from bits 6 and 7 of `m` (43 R183). -/
def execBit (m : MemOperand) (s : State) : Out := readMemWith m (fun v s => s.setFlags (s.flags.bitTest s.a v)) s

/-- CMP: `Compare(A, m)` (45 R201). -/
def execCmp (o : ReadOperand) (s : State) : Out := readWith o (fun m s => s.compare s.a m) s

/-- CPX: `Compare(X, m)` (45 R202). -/
def execCpx (o : ReadOperand) (s : State) : Out := readWith o (fun m s => s.compare s.x m) s

/-- CPY: `Compare(Y, m)` (45 R203). -/
def execCpy (o : ReadOperand) (s : State) : Out := readWith o (fun m s => s.compare s.y m) s

/-- INC: `r = Load(o) +8 1; StoreTo(o, r); setZN(r)` (45 R204). -/
def execInc (m : MemOperand) (s : State) : Out := modifyWith m incOp (fun r t => t.setZN r) s

/-- DEC: `r = Load(o) -8 1; StoreTo(o, r); setZN(r)` (45 R205). -/
def execDec (m : MemOperand) (s : State) : Out := modifyWith m decOp (fun r t => t.setZN r) s

/-- INX: `X <- X +8 1; setZN(X)` (45 R206). -/
def execInx (s : State) : Out := implied (fun s => s.loadX (s.x + 1)) s

/-- INY: `Y <- Y +8 1; setZN(Y)` (45 R207). -/
def execIny (s : State) : Out := implied (fun s => s.loadY (s.y + 1)) s

/-- DEX: `X <- X -8 1; setZN(X)` (45 R208). -/
def execDex (s : State) : Out := implied (fun s => s.loadX (s.x - 1)) s

/-- DEY: `Y <- Y -8 1; setZN(Y)` (45 R209). -/
def execDey (s : State) : Out := implied (fun s => s.loadY (s.y - 1)) s

end Sys2Proof.Machine
end

