-- ==== Sys2Proof/Machine/Control.lean ====
section
/-! DEFINITION. 47_jump_branch.md and 48_flags_nop.md: JMP, the conditional branches, the flag instructions and NOP. -/

namespace Sys2Proof.Machine

/-- JMP: `PC <- target` (47 R240). -/
def execJmp (o : JumpOperand) (s : State) : Out :=
  finish ((jumpTarget o s).bind fun target => .ok (s.jumpTo target (jumpCycles o)))

/-- BPL: branch when N = 0 (47 R242). -/
def execBpl (offset : Byte) (s : State) : Out := branchIf (!s.flags.n) offset s

/-- BMI: branch when N = 1 (47 R243). -/
def execBmi (offset : Byte) (s : State) : Out := branchIf s.flags.n offset s

/-- BVC: branch when V = 0 (47 R244). -/
def execBvc (offset : Byte) (s : State) : Out := branchIf (!s.flags.v) offset s

/-- BVS: branch when V = 1 (47 R245). -/
def execBvs (offset : Byte) (s : State) : Out := branchIf s.flags.v offset s

/-- BCC: branch when C = 0 (47 R246). -/
def execBcc (offset : Byte) (s : State) : Out := branchIf (!s.flags.c) offset s

/-- BCS: branch when C = 1 (47 R247). -/
def execBcs (offset : Byte) (s : State) : Out := branchIf s.flags.c offset s

/-- BNE: branch when Z = 0 (47 R248). -/
def execBne (offset : Byte) (s : State) : Out := branchIf (!s.flags.z) offset s

/-- BEQ: branch when Z = 1 (47 R249). -/
def execBeq (offset : Byte) (s : State) : Out := branchIf s.flags.z offset s

/-- CLC: `C <- 0` (48 R260). -/
def execClc (s : State) : Out := implied (fun s => s.setFlags { s.flags with c := false }) s

/-- SEC: `C <- 1` (48 R261). -/
def execSec (s : State) : Out := implied (fun s => s.setFlags { s.flags with c := true }) s

/-- CLI: `I <- 0` (48 R262). -/
def execCli (s : State) : Out := implied (fun s => s.setFlags { s.flags with i := false }) s

/-- SEI: `I <- 1` (48 R263). -/
def execSei (s : State) : Out := implied (fun s => s.setFlags { s.flags with i := true }) s

/-- CLD: `D <- 0` (48 R264). -/
def execCld (s : State) : Out := implied (fun s => s.setFlags { s.flags with d := false }) s

/-- SED: `D <- 1` (48 R265). -/
def execSed (s : State) : Out := implied (fun s => s.setFlags { s.flags with d := true }) s

/-- CLV: `V <- 0` (48 R266). -/
def execClv (s : State) : Out := implied (fun s => s.setFlags { s.flags with v := false }) s

/-- NOP: nothing but PC and CYC (48 R267). -/
def execNop (s : State) : Out := implied (fun s => s) s

end Sys2Proof.Machine
end

