-- ==== Sys2Proof/Machine/LoadStore.lean ====
section
/-! DEFINITION. 41_load_store.md: loads, stores and register transfers. -/

namespace Sys2Proof.Machine

/-- LDA: `A <- v; setZN(v)` (R150). -/
def execLda (o : ReadOperand) (s : State) : Out := readWith o (fun v s => s.loadA v) s

/-- LDX: `X <- v; setZN(v)` (R151). -/
def execLdx (o : ReadOperand) (s : State) : Out := readWith o (fun v s => s.loadX v) s

/-- LDY: `Y <- v; setZN(v)` (R152). -/
def execLdy (o : ReadOperand) (s : State) : Out := readWith o (fun v s => s.loadY v) s

/-- STA: `StoreTo(o, A)` (R153). -/
def execSta (m : MemOperand) (s : State) : Out := storeValue m s.a s

/-- STX: `StoreTo(o, X)` (R154). -/
def execStx (m : MemOperand) (s : State) : Out := storeValue m s.x s

/-- STY: `StoreTo(o, Y)` (R155). -/
def execSty (m : MemOperand) (s : State) : Out := storeValue m s.y s

/-- TAX: `X <- A; setZN(X)` (R156). -/
def execTax (s : State) : Out := implied (fun s => s.loadX s.a) s

/-- TAY: `Y <- A; setZN(Y)` (R157). -/
def execTay (s : State) : Out := implied (fun s => s.loadY s.a) s

/-- TXA: `A <- X; setZN(A)` (R158). -/
def execTxa (s : State) : Out := implied (fun s => s.loadA s.x) s

/-- TYA: `A <- Y; setZN(A)` (R159). -/
def execTya (s : State) : Out := implied (fun s => s.loadA s.y) s

/-- TSX: `X <- SP; setZN(X)` (R160). -/
def execTsx (s : State) : Out := implied (fun s => s.loadX s.sp) s

/-- TXS: `SP <- X`; no flag (R161). -/
def execTxs (s : State) : Out := implied (fun s => s.setSP s.x) s

end Sys2Proof.Machine
end

