-- ==== Sys2Proof/Machine/Shift.lean ====
section
/-! DEFINITION. 44_shift.md: shifts and rotates, on A and on memory. -/

namespace Sys2Proof.Machine

/-- ASL (R191). -/
def execAsl (o : ShiftOperand) (s : State) : Out := shiftWith o aslOp s

/-- LSR (R192). -/
def execLsr (o : ShiftOperand) (s : State) : Out := shiftWith o lsrOp s

/-- ROL (R193). -/
def execRol (o : ShiftOperand) (s : State) : Out := shiftWith o rolOp s

/-- ROR (R194). -/
def execRor (o : ShiftOperand) (s : State) : Out := shiftWith o rorOp s

end Sys2Proof.Machine
end

