-- ==== Sys2Proof/Machine/Stack.lean ====
section
/-! DEFINITION. 46_stack_subroutine.md: push and pull, subroutines, break and return from interrupt. -/

namespace Sys2Proof.Machine

/-- PHA: `Push(A)` (R222). -/
def execPha (s : State) : Out := finish ((push s.a s).bind fun t => .ok (t.advance 1 3))

/-- PLA: `v = Pull(); A <- v; setZN(v)` (R223). -/
def execPla (s : State) : Out := finish ((pull s).bind fun p => .ok ((p.state.loadA p.value).advance 1 4))

/-- PHP: `Push(pack(1))`, whatever B holds (R224). -/
def execPhp (s : State) : Out := finish ((push (s.flags.pack true) s).bind fun t => .ok (t.advance 1 3))

/-- PLP: the flags from the pulled byte; B only when PLP_LOADS_B (R225). -/
def execPlp (s : State) : Out :=
  finish ((pull s).bind fun p =>
    .ok ((p.state.setFlags (p.state.flags.unpack s.cfg.plpLoadsB p.value)).advance 1 4))

/-- JSR: push the address of its own last byte, go to the target (R226). -/
def execJsr (target : Word) (s : State) : Out :=
  finish ((pushWord (s.pc + 2) s).bind fun t => .ok (t.jumpTo target 6))

/-- RTS: pull the return address and add 1 (R227). -/
def execRts (s : State) : Out := finish ((pullWord s).bind fun r => .ok (r.state.jumpTo (r.value + 1) 6))

/-- BRK: its entry when BRK_EFFECTS = full, then Break always (R228). An error of the entry comes instead of Break. -/
def execBrk (s : State) : Out :=
  match s.cfg.brkEffects with
  | .full => finish ((breakEntry s).bind fun t => .err .brk t)
  | .signalOnly => raise .brk s

/-- RTI: every flag, then PC, from the stack (R229). -/
def execRti (s : State) : Out := finish (interruptReturn 6 s)

end Sys2Proof.Machine
end

