-- ==== Sys2Proof/Machine/Unofficial.lean ====
section
/-! DEFINITION. 49_unofficial.md: the combined opcodes, LAX and SAX, the unofficial NOPs, SBC at EB; and the unrecognised bytes of 30_encoding.md R107. -/

namespace Sys2Proof.Machine

/-- SLO: ASL of memory, then ORA with the shifted result (R281). -/
def execSlo (m : MemOperand) (s : State) : Out := modifyWith m aslOp (fun r t => t.loadA (t.a ||| r)) s

/-- RLA: ROL of memory, then AND with the result (R282). -/
def execRla (m : MemOperand) (s : State) : Out := modifyWith m rolOp (fun r t => t.loadA (t.a &&& r)) s

/-- SRE: LSR of memory, then EOR with the result (R283). -/
def execSre (m : MemOperand) (s : State) : Out := modifyWith m lsrOp (fun r t => t.loadA (t.a ^^^ r)) s

/-- RRA: ROR of memory, then AddC of the result, the rotate's carry-out its carry-in (R284). -/
def execRra (m : MemOperand) (s : State) : Out := modifyWith m rorOp (fun r t => t.adc r) s

/-- DCP: DEC of memory, then Compare of A with the result (R285). -/
def execDcp (m : MemOperand) (s : State) : Out :=
  modifyWith m decOp (fun r t => (t.setZN r).compare t.a r) s

/-- ISC: INC of memory, then SBC of the result (R286). -/
def execIsc (m : MemOperand) (s : State) : Out := modifyWith m incOp (fun r t => (t.setZN r).sbc r) s

/-- LAX: `A <- v; X <- v; setZN(v)` (R287). -/
def execLax (m : MemOperand) (s : State) : Out := readMemWith m (fun v s => (s.setA v).loadX v) s

/-- SAX: `StoreTo(o, A & X)` (R288). -/
def execSax (m : MemOperand) (s : State) : Out := storeValue m (s.a &&& s.x) s

/-- The unofficial implied NOPs: as NOP (R289). -/
def execNopImplied (_op : Byte) (s : State) : Out := implied (fun s => s) s

/-- SKB: the literal byte is skipped (R290). -/
def execNopImmediate (_op v : Byte) (s : State) : Out := readWith (.immediate v) (fun _ s => s) s

/-- IGN: the operand is read and discarded (R291). -/
def execNopMemory (_op : Byte) (m : MemOperand) (s : State) : Out := readMemWith m (fun _ s => s) s

/-- SBC at EB: as SBC immediate when USBC_EB, else UnknownOpcode with no other effect (R292). -/
def execSbcImmediateEB (v : Byte) (s : State) : Out :=
  if s.cfg.usbcEb then readWith (.immediate v) (fun m s => s.sbc m) s else raise (.unknownOpcode 0xEB) s

/-- An unrecognised byte: UnknownOpcode, no other effect (30 R107, 60 R304). -/
def execUnknown (op : Byte) (s : State) : Out := raise (.unknownOpcode op) s

end Sys2Proof.Machine
end

