-- ==== Sys2Proof/Machine/Fetch.lean ====
section
/-! DEFINITION. Fetching (40_addressing.md R138): the opcode byte at PC, the recognition check, and then the operand bytes the entry needs, in order (30_encoding.md R100, R106; 60 R309). Also the placing of a program's bytes by a loader outside the machine. -/

namespace Sys2Proof.Machine

/-- The instruction at PC. An unrecognised opcode reads no operand byte (60 R304). Byte k is at `PC +16 k`, which wraps
past 0xFFFF (10_state.md R36). -/
def fetch (s : State) : Res Instr :=
  (memRead s.pc s).bind fun op =>
    match entryOf s.cfg.usbcEb op with
    | .f1 i => .ok i
    | .f2 make => (memRead (s.pc + 1) s).bind fun b1 => .ok (make b1)
    | .f3 make => (memRead (s.pc + 1) s).bind fun b1 => (memRead (s.pc + 2) s).bind fun b2 => .ok (make (w16 b1 b2))

/-- The state with `bytes` placed in the cells of `a`, `a + 1`, … (log entry 13). -/
def State.placeBytes (s : State) (a : Word) (bytes : List Byte) : State :=
  match bytes with
  | [] => s
  | b :: rest => (s.placeByte a b).placeBytes (a + 1) rest

end Sys2Proof.Machine
end

