-- ==== Sys2Proof/Machine/Step.lean ====
section
/-! DEFINITION. One step of the CPU (40_addressing.md R138), its result as the host sees it (60_exceptions.md R300), and the placing of one instruction where the step fetches. -/

namespace Sys2Proof.Machine

/-- One step: fetch and execute one instruction. After an error the run has ended, and a further step reports the same
error and changes nothing (60 R310, log entry 1). -/
def step (s : State) : Host.Outcome State Fault Refusal :=
  match s.run with
  | .stopped e => .fault (.stopped e)
  | .running =>
    match fetch s with
    | .ok i => exec i s
    | .err e t => raise e t

/-- The result of a step call, `Ok` or `Err(kind, info)` (60 R300). -/
inductive StepResult where
  | ok
  | err (e : StepError)
deriving DecidableEq, Repr

/-- The result the outcome of a step stands for; none for a refusal, which no step answers (log entry 1). -/
def stepResult (o : Out) : Option StepResult :=
  match o with
  | .next t =>
    match t.run with
    | .running => some .ok
    | .stopped e => some (.err e)
  | .fault (.stopped e) => some (.err e)
  | .refused _ => none

/-- `s` with the table word `w` of `nbits` bits placed at PC and the two addresses after it, in a run that goes on, so that
the next step fetches and runs it (log entry 13). -/
def State.withFetchWord (s : State) (nbits w : Nat) : State :=
  (s.setRun .running).placeBytes s.pc (tableBytes nbits w)

end Sys2Proof.Machine
end

