-- ==== Sys2Proof/Machine/Values.lean ====
section
/-! DEFINITION. The byte value type as 00_scope.md R12, R13 and R15 describe it: its bit array, reading one bit with the index error, and the signed reading. No instruction reads a bit by a computed index (R13), so no meaning uses the index error. -/

namespace Sys2Proof.Machine

/-- The bit array of a byte, index 0 the least significant bit (R12). -/
def bitArray (v : Byte) : List Bool :=
  [v.getLsbD 0, v.getLsbD 1, v.getLsbD 2, v.getLsbD 3, v.getLsbD 4, v.getLsbD 5, v.getLsbD 6, v.getLsbD 7]

/-- The byte of a bit array, index 0 the least significant bit; an array of another length than 8 is none (R12). -/
def byteOfBits (bits : List Bool) : Option Byte :=
  match bits with
  | [b0, b1, b2, b3, b4, b5, b6, b7] =>
    some (BitVec.ofBool b7 ++ BitVec.ofBool b6 ++ BitVec.ofBool b5 ++ BitVec.ofBool b4 ++
      BitVec.ofBool b3 ++ BitVec.ofBool b2 ++ BitVec.ofBool b1 ++ BitVec.ofBool b0)
  | _ => none

/-- Bit `i` of a byte; none is the index error of R13. -/
def bitAt (v : Byte) (i : Nat) : Option Bool := (bitArray v)[i]?

/-- `signed8(v)`: v - 256 when v ≥ 128, else v (R9, R15). -/
def signed8 (v : Byte) : Int := if 128 ≤ v.toNat then (v.toNat : Int) - 256 else v.toNat

end Sys2Proof.Machine
end

