-- ==== Sys2Proof/Machine/Metadata.lean ====
section
/-! DEFINITION. The opcode metadata table's mnemonics (30_encoding.md R110) and the assembler text of an instruction (R111). Neither changes what an instruction does. -/

namespace Sys2Proof

open Sys2Proof.Machine

/-- The mnemonic of an instruction (R110, R112), as spec/opcode_table.json spells it. -/
def Instr.mnemonic : Instr → String
  | .lda _ => "LDA" | .ldx _ => "LDX" | .ldy _ => "LDY"
  | .sta _ => "STA" | .stx _ => "STX" | .sty _ => "STY"
  | .tax => "TAX" | .tay => "TAY" | .txa => "TXA" | .tya => "TYA" | .tsx => "TSX" | .txs => "TXS"
  | .adc _ => "ADC" | .sbc _ => "SBC"
  | .and _ => "AND" | .ora _ => "ORA" | .eor _ => "EOR" | .bit _ => "BIT"
  | .asl _ => "ASL" | .lsr _ => "LSR" | .rol _ => "ROL" | .ror _ => "ROR"
  | .cmp _ => "CMP" | .cpx _ => "CPX" | .cpy _ => "CPY" | .inc _ => "INC" | .dec _ => "DEC"
  | .inx => "INX" | .iny => "INY" | .dex => "DEX" | .dey => "DEY"
  | .pha => "PHA" | .pla => "PLA" | .php => "PHP" | .plp => "PLP"
  | .jsr _ => "JSR" | .rts => "RTS" | .brk => "BRK" | .rti => "RTI"
  | .jmp _ => "JMP"
  | .bpl _ => "BPL" | .bmi _ => "BMI" | .bvc _ => "BVC" | .bvs _ => "BVS"
  | .bcc _ => "BCC" | .bcs _ => "BCS" | .bne _ => "BNE" | .beq _ => "BEQ"
  | .clc => "CLC" | .sec => "SEC" | .cli => "CLI" | .sei => "SEI" | .cld => "CLD" | .sed => "SED" | .clv => "CLV"
  | .nop => "NOP"
  | .slo _ => "SLO" | .rla _ => "RLA" | .sre _ => "SRE" | .rra _ => "RRA" | .dcp _ => "DCP" | .isc _ => "ISC"
  | .lax _ => "LAX" | .sax _ => "SAX"
  | .nopImplied _ => "NOP" | .nopImmediate _ _ => "NOP" | .nopMemory _ _ => "NOP"
  | .sbcImmediateEB _ => "SBC"
  | .unknown _ => "UNKNOWN"

/-- A hexadecimal digit. -/
def hexDigit (n : Nat) : Char :=
  ['0', '1', '2', '3', '4', '5', '6', '7', '8', '9', 'A', 'B', 'C', 'D', 'E', 'F'].getD (n % 16) '0'

/-- `nn`, two hexadecimal digits. -/
def hexByte (b : Byte) : String := String.ofList [hexDigit (b.toNat / 16), hexDigit b.toNat]

/-- `hhll`, four hexadecimal digits. -/
def hexWord (w : Word) : String := hexByte (hi w) ++ hexByte (lo w)

/-- The operand text of a memory operand (R111). -/
def MemOperand.text : MemOperand → String
  | .zeroPage b        => "$" ++ hexByte b
  | .zeroPageX b       => "$" ++ hexByte b ++ ",X"
  | .zeroPageY b       => "$" ++ hexByte b ++ ",Y"
  | .absolute w        => "$" ++ hexWord w
  | .absoluteX w       => "$" ++ hexWord w ++ ",X"
  | .absoluteY w       => "$" ++ hexWord w ++ ",Y"
  | .indexedIndirect b => "($" ++ hexByte b ++ ",X)"
  | .indirectIndexed b => "($" ++ hexByte b ++ "),Y"

/-- The operand text of a read operand (R111). -/
def ReadOperand.text : ReadOperand → String
  | .immediate v => "#$" ++ hexByte v
  | .mem m       => m.text

/-- The operand text of a shift operand (R111). -/
def ShiftOperand.text : ShiftOperand → String
  | .accumulator => "A"
  | .mem m       => m.text

/-- The assembler text of the operand of an instruction at `pc`; empty in Implied mode (R111).
A relative operand is written as its target address. -/
def Instr.operandText (pc : Word) : Instr → String
  | .lda o | .ldx o | .ldy o | .adc o | .sbc o | .and o | .ora o | .eor o | .cmp o | .cpx o | .cpy o => o.text
  | .sta m | .stx m | .sty m | .bit m | .inc m | .dec m => m.text
  | .slo m | .rla m | .sre m | .rra m | .dcp m | .isc m | .lax m | .sax m | .nopMemory _ m => m.text
  | .asl o | .lsr o | .rol o | .ror o => o.text
  | .jsr w | .jmp (.absolute w) => "$" ++ hexWord w
  | .jmp (.indirect w) => "($" ++ hexWord w ++ ")"
  | .bpl b | .bmi b | .bvc b | .bvs b | .bcc b | .bcs b | .bne b | .beq b => "$" ++ hexWord (branchTarget pc b)
  | .nopImmediate _ v | .sbcImmediateEB v => "#$" ++ hexByte v
  | .tax | .tay | .txa | .tya | .tsx | .txs | .inx | .iny | .dex | .dey => ""
  | .pha | .pla | .php | .plp | .rts | .brk | .rti => ""
  | .clc | .sec | .cli | .sei | .cld | .sed | .clv | .nop => ""
  | .nopImplied _ => ""
  | .unknown op => "$" ++ hexByte op

/-- The assembler text of an instruction at `pc` (R111). An unrecognised byte is no instruction of the assembler's. -/
def Instr.text (pc : Word) (i : Instr) : String :=
  let head := if i.mnemonic = "UNKNOWN" then ".byte" else i.mnemonic
  let operand := i.operandText pc
  if operand = "" then head else head ++ " " ++ operand

/-- The operand byte the assembler encodes for a branch at `pc` to `target`: `target - (PC + 2)` (R111). -/
def branchOffset (pc target : Word) : Byte := (target - (pc + 2)).setWidth 8

end Sys2Proof
end

