-- ==== Sys2Proof/Machine/External.lean ====
section
/-! DEFINITION. What acts on the core from outside (60_exceptions.md R320, R321): construction from a mapper (70_reset_and_hazards.md R340 to R342), the host's accessors, the peripheral's accesses (20_memory.md R90) and the diagnostic trace (60 R317). -/

namespace Sys2Proof.Machine

/-! ## Construction -/

/-- Why there is no core. -/
inductive ConstructionError where
  /-- PRG_ROM has a length the fixed-bank mapper does not have (20_memory.md R80). -/
  | romLength (n : Nat)
  /-- Construction reports an error of R300: FailedParsingEntryPoint (R307, 70 R342). -/
  | failed (e : StepError)
deriving DecidableEq, Repr

/-- The banks of a PRG-ROM of `n` bytes (R80). -/
def romBanksOf (n : Nat) : Option RomBanks :=
  if n = 0 then some .none else if n = 0x4000 then some .one else if n = 0x8000 then some .two else none

/-- The PRG-ROM bytes as listed memory from address `k` on (R75, R76). -/
def romCells (bytes : List Byte) (k : Nat) : Memory :=
  match bytes with
  | [] => []
  | b :: rest => Memory.consCell k b (romCells rest (k + 1))

/-- A RAM cell, whose content at construction is INIT_MEM (R82). -/
def StorageCell.isRam : StorageCell → Bool
  | .generalRam _ => true
  | .prgRam _     => true
  | .prgRom _     => false

/-- Memory with the RAM cells of INIT_MEM drawn, the first entry of a cell counting; an entry of a cell that the mapper does
not have or that is no RAM is dropped (R74, R82, log entry 18). -/
def drawRam (c : Config) (m : Memory) (draw : List (StorageCell × Byte)) : Memory :=
  match draw with
  | [] => m
  | (cell, v) :: rest =>
    let drawn := drawRam c m rest
    if cell.isRam && cellExists c cell then drawn.set cell.home v else drawn

/-- The state construction builds before it reads the reset vector (R340, 10_state.md R49). -/
def beforeVector (p : Params) (b : RomBanks) : State where
  a     := 0x00
  x     := 0x00
  y     := 0x00
  sp    := p.spReset
  pc    := 0x0000
  flags := Flags.reset
  cyc   := p.cycleReset
  run   := .running
  mem   := drawRam (p.config b) (romCells p.prgRom 0x8000) p.initMem
  cfg   := p.config b

/-- `construct(mapper)` (70 R340 to R342). -/
def construct (p : Params) : Except ConstructionError State :=
  match romBanksOf p.prgRom.length with
  | none => .error (.romLength p.prgRom.length)
  | some b =>
    match read16 0xFFFC (beforeVector p b) with
    | .ok pc => .ok ((beforeVector p b).setPC pc)
    | .err _ _ => .error (.failed .failedParsingEntryPoint)

/-! ## Accessors, between steps only -/

/-- `get_A`, `get_X`, `get_Y`, `get_PC` (R320). There is none for SP, the flags or CYC. -/
def State.getA (s : State) : Byte := s.a
def State.getX (s : State) : Byte := s.x
def State.getY (s : State) : Byte := s.y
def State.getPC (s : State) : Word := s.pc

/-- What the host or the peripheral does to the state between two steps (R320, R316): a register set, or a write through
the mapper. -/
inductive ExternalOp where
  | setA (v : Byte)
  | setX (v : Byte)
  | setY (v : Byte)
  | setPC (w : Word)
  | write (a : Word) (v : Byte)
deriving DecidableEq, Repr

/-- `read_mem(a)`: as MemRead, MemoryAccessError when unmapped (R320, R321). -/
def readMem (a : Word) (s : State) : Except StepError Byte :=
  match s.readByte a with
  | some v => .ok v
  | none => .error (.memoryAccess a .read)

/-- `write_mem(a, v)`: as MemWrite, so a write to PRG-ROM obeys ROM_WRITE (R320, R321). -/
def writeMem (a : Word) (v : Byte) (s : State) : Except StepError State :=
  match s.writeByte a v with
  | some t => .ok t
  | none => .error (.memoryAccess a .write)

/-- One operation from outside. It charges no cycles and leaves the run status (R320). -/
def ExternalOp.apply (op : ExternalOp) (s : State) : Except StepError State :=
  match op with
  | .setA v => .ok (s.setA v)
  | .setX v => .ok (s.setX v)
  | .setY v => .ok (s.setY v)
  | .setPC w => .ok (s.setPC w)
  | .write a v => writeMem a v s

/-! ## The trace -/

/-- The fields of a diagnostic trace line (R317). Its layout is non-normative and not modelled (D28). -/
structure TraceLine where
  pc       : Word
  mnemonic : Option String
  operands : List (Option Byte)
  a        : Byte
  x        : Byte
  y        : Byte
  p        : Byte
  sp       : Byte
  cyc      : Nat
deriving DecidableEq, Repr

/-- The mnemonic of an entry of the opcode map. -/
def entryMnemonic : Entry → String
  | .f1 i => i.mnemonic
  | .f2 make => (make 0).mnemonic
  | .f3 make => (make 0).mnemonic

/-- `trace()`: it changes nothing, and a byte it cannot read is absent (R317, R321). P is `pack(B)` (10_state.md R39). -/
def trace (s : State) : TraceLine :=
  let entry := (s.readByte s.pc).map (entryOf s.cfg.usbcEb)
  { pc       := s.pc
    mnemonic := entry.map entryMnemonic
    operands :=
      match entry.map Entry.operandBytes with
      | some 1 => [s.readByte (s.pc + 1)]
      | some 2 => [s.readByte (s.pc + 1), s.readByte (s.pc + 2)]
      | _ => []
    a        := s.a
    x        := s.x
    y        := s.y
    p        := s.flags.pack s.flags.b
    sp       := s.sp
    cyc      := s.cyc }

end Sys2Proof.Machine
end

