-- ==== Sys2Proof/Safety.lean ====
section
/-! DEFINITION. What counts as a well-formed state, a reachable state, a silent mapper and a successful end of a run, in the terms the statements use. -/

namespace Sys2Proof.Machine

/-- The state's own invariant: memory is in canonical form and lists only cells the mapper has. -/
abbrev State.Inv (s : State) : Prop := s.mem.wf = true ∧ s.mem.within s.cfg = true

/-- No access fails: every address resolves to a cell, as at the default of GENERAL_RAM (20_memory.md R78). -/
def Config.Silent (c : Config) : Prop := ∀ a : Word, (resolveCell c a).isSome = true

/-- A run ends successfully by Break and by no other error (60 R301). -/
def StepError.isSuccess (e : StepError) : Bool := decide (e = .brk)

/-- The run has not failed: it goes on, or ended by Break. -/
def State.Safe (s : State) : Prop := ∀ e, s.run = .stopped e → e.isSuccess = true

/-- The states of the runs of a machine built with parameters `p`: construction, then steps, with operations of the host
and of the peripheral between them in any order (60 R316, R322; 20_memory.md R90). -/
inductive Reachable (p : Params) : State → Prop where
  | construct {s : State} (h : construct p = .ok s) : Reachable p s
  | step {s t : State} (hs : Reachable p s) (h : step s = .next t) : Reachable p t
  | external {s t : State} (op : ExternalOp) (hs : Reachable p s) (h : op.apply s = .ok t) : Reachable p t

/-! ## Terms of the statements -/

/-- The flags with Z = 1 exactly when `v` is 0 and N = bit 7 of `v`, that is `v ≥ 128` (00_scope.md R11). -/
def withZN (f : Flags) (v : Byte) : Flags := { f with z := decide (v = 0), n := decide (128 ≤ v.toNat) }

/-- A write at this address is ignored: it is in the PRG-ROM window and ROM_WRITE is ignore (20_memory.md R79). -/
def ignoresWrite (c : Config) (a : Word) : Bool := inRomWindow c a && decide (c.romWrite = .ignore)

/-- From `s` to `t` memory changed by the write of `v` at `ea` and nowhere else: the addresses of the cell of `ea` read `v`,
unless the write is ignored and no byte changes; every other address reads as before (20_memory.md R72, R79, R81, R83). -/
def WroteByte (s t : State) (ea : Word) (v : Byte) : Prop :=
  (ignoresWrite s.cfg ea = true → t.mem = s.mem) ∧
  (ignoresWrite s.cfg ea = false → ∀ b, resolveCell s.cfg b = resolveCell s.cfg ea → t.readByte b = some v) ∧
  (∀ b, resolveCell s.cfg b ≠ resolveCell s.cfg ea → t.readByte b = s.readByte b)

/-- Two addresses share a cell, said by the windows of the mapper (20_memory.md R75 to R78, R81): one PRG-ROM bank repeats
every 0x4000, PRG-RAM every PRG_RAM_SIZE, and no other address shares its cell. -/
def SameCell (c : Config) (a b : Word) : Prop :=
  a = b ∨
  (c.romBanks = .one ∧ 0x8000 ≤ a.toNat ∧ 0x8000 ≤ b.toNat ∧ a.toNat % 0x4000 = b.toNat % 0x4000) ∨
  (0 < c.prgRamSize ∧ 0x6000 ≤ a.toNat ∧ a.toNat < 0x8000 ∧ 0x6000 ≤ b.toNat ∧ b.toNat < 0x8000 ∧
    (a.toNat - 0x6000) % c.prgRamSize = (b.toNat - 0x6000) % c.prgRamSize)

/-- An address outside the active windows (20_memory.md R78). -/
def Fallback (c : Config) (a : Word) : Prop :=
  a.toNat < 0x6000 ∨ (a.toNat < 0x8000 ∧ c.prgRamSize = 0) ∨ (0x8000 ≤ a.toNat ∧ c.romBanks = .none)

/-- From `s` to `t` the bytes were pushed in their order, and nothing else happened: each is written at 0x0100 + SP, and SP
then goes down by one (10_state.md R41). -/
def Pushed (s : State) (bytes : List Byte) (t : State) : Prop :=
  match bytes with
  | [] => t = s
  | v :: rest => ∃ u, WroteByte s u (BitVec.ofNat 16 (256 + s.sp.toNat)) v ∧ u = { s with mem := u.mem, sp := s.sp - 1 } ∧
      Pushed u rest t

/-- The instruction sets PC itself when it succeeds (10_state.md R35). -/
def setsPC : Instr → Bool
  | .jsr _ | .rts | .brk | .rti | .jmp _ => true
  | .bpl _ | .bmi _ | .bvc _ | .bvs _ | .bcc _ | .bcs _ | .bne _ | .beq _ => true
  | .lda _ | .ldx _ | .ldy _ | .sta _ | .stx _ | .sty _ | .tax | .tay | .txa | .tya | .tsx | .txs => false
  | .adc _ | .sbc _ | .and _ | .ora _ | .eor _ | .bit _ | .asl _ | .lsr _ | .rol _ | .ror _ => false
  | .cmp _ | .cpx _ | .cpy _ | .inc _ | .dec _ | .inx | .iny | .dex | .dey => false
  | .pha | .pla | .php | .plp | .clc | .sec | .cli | .sei | .cld | .sed | .clv | .nop => false
  | .slo _ | .rla _ | .sre _ | .rra _ | .dcp _ | .isc _ | .lax _ | .sax _ => false
  | .nopImplied _ | .nopImmediate _ _ | .nopMemory _ _ | .sbcImmediateEB _ | .unknown _ => false

/-- The conditional branches with their offset, the flag each tests and the value it branches on (47 R242 to R249). -/
def branchTests (s : State) (offset : Byte) : List (Instr × Bool × Bool) :=
  [(.bpl offset, s.flags.n, false), (.bmi offset, s.flags.n, true), (.bvc offset, s.flags.v, false),
   (.bvs offset, s.flags.v, true), (.bcc offset, s.flags.c, false), (.bcs offset, s.flags.c, true),
   (.bne offset, s.flags.z, false), (.beq offset, s.flags.z, true)]

/-- Every instruction that reads the memory operand `m`. -/
def readersOf (m : MemOperand) (op : Byte) : List Instr :=
  [.lda (.mem m), .ldx (.mem m), .ldy (.mem m), .adc (.mem m), .sbc (.mem m), .and (.mem m), .ora (.mem m), .eor (.mem m),
   .bit m, .cmp (.mem m), .cpx (.mem m), .cpy (.mem m), .asl (.mem m), .lsr (.mem m), .rol (.mem m), .ror (.mem m),
   .inc m, .dec m, .slo m, .rla m, .sre m, .rra m, .dcp m, .isc m, .lax m, .nopMemory op m]

/-- Every instruction that stores at the memory operand `m` without reading it. -/
def storersOf (m : MemOperand) : List Instr := [.sta m, .stx m, .sty m, .sax m]

/-- The pointer bytes a memory operand reads, in the order of the reads (40_addressing.md R130, R131; 60 R309). -/
def pointerReads (m : MemOperand) (s : State) : List Word :=
  match m with
  | .indexedIndirect b => [BitVec.ofNat 16 ((b.toNat + s.x.toNat) % 256), BitVec.ofNat 16 ((b.toNat + s.x.toNat + 1) % 256)]
  | .indirectIndexed b => [BitVec.ofNat 16 b.toNat, BitVec.ofNat 16 ((b.toNat + 1) % 256)]
  | .zeroPage _ | .zeroPageX _ | .zeroPageY _ | .absolute _ | .absoluteX _ | .absoluteY _ => []

/-! ## The cycle table of 70_reset_and_hazards.md R352, by opcode byte -/

/-- Base cycles, one row for each high digit of the opcode; 0 where the byte is unrecognised. -/
def baseCostRows : List (List Nat) :=
  [[7, 6, 0, 8, 3, 3, 5, 5, 3, 2, 2, 0, 4, 4, 6, 6],
   [2, 5, 0, 8, 4, 4, 6, 6, 2, 4, 2, 7, 4, 4, 7, 7],
   [6, 6, 0, 8, 3, 3, 5, 5, 4, 2, 2, 0, 4, 4, 6, 6],
   [2, 5, 0, 8, 4, 4, 6, 6, 2, 4, 2, 7, 4, 4, 7, 7]] ++
  [[6, 6, 0, 8, 3, 3, 5, 5, 3, 2, 2, 0, 3, 4, 6, 6],
   [2, 5, 0, 8, 4, 4, 6, 6, 2, 4, 2, 7, 4, 4, 7, 7],
   [6, 6, 0, 8, 3, 3, 5, 5, 4, 2, 2, 0, 5, 4, 6, 6],
   [2, 5, 0, 8, 4, 4, 6, 6, 2, 4, 2, 7, 4, 4, 7, 7]] ++
  [[2, 6, 2, 6, 3, 3, 3, 3, 2, 2, 2, 0, 4, 4, 4, 4],
   [2, 6, 0, 0, 4, 4, 4, 4, 2, 5, 2, 0, 0, 5, 0, 0],
   [2, 6, 2, 6, 3, 3, 3, 3, 2, 2, 2, 0, 4, 4, 4, 4],
   [2, 5, 0, 5, 4, 4, 4, 4, 2, 4, 2, 0, 4, 4, 4, 4]] ++
  [[2, 6, 2, 8, 3, 3, 5, 5, 2, 2, 2, 0, 4, 4, 6, 6],
   [2, 5, 0, 8, 4, 4, 6, 6, 2, 4, 2, 7, 4, 4, 7, 7],
   [2, 6, 2, 8, 3, 3, 5, 5, 2, 2, 2, 2, 4, 4, 6, 6],
   [2, 5, 0, 8, 4, 4, 6, 6, 2, 4, 2, 7, 4, 4, 7, 7]]

/-- Base cycles of an opcode byte. -/
def baseCost (op : Byte) : Nat := baseCostRows.flatten.getD op.toNat 0

/-- The opcode bytes with the page-cross mark. -/
def crossMarks : List Byte :=
  [0x11, 0x19, 0x1C, 0x1D, 0x31, 0x39, 0x3C, 0x3D, 0x51, 0x59, 0x5C, 0x5D, 0x71, 0x79, 0x7C, 0x7D,
   0xB1, 0xB3, 0xB9, 0xBC, 0xBD, 0xBE, 0xBF, 0xD1, 0xD9, 0xDC, 0xDD, 0xF1, 0xF9, 0xFC, 0xFD]

/-- The opcode bytes under the branch rule. -/
def branchOpcodes : List Byte := [0x10, 0x30, 0x50, 0x70, 0x90, 0xB0, 0xD0, 0xF0]

end Sys2Proof.Machine
end

