-- ==== Sys2Proof/Certificates/Slice0/Obligations.lean ====
section
/-! DEFINITION. The statements for the provers, from the numbered rules of spec/. None names a program.
An error of 60_exceptions.md R300 is a next state whose run status is stopped: the model's form for it, log entry 1. -/

open Sys2Proof Sys2Proof.Machine

/-! ## Encoding and decoding -/

/-- Decoding the bytes of a well-formed instruction gives it back and leaves what follows (30_encoding.md R100 to R108). -/
def Obligations.DecodeOfEncodeIsTheInstruction : Prop :=
  ∀ (usbcEb : Bool) (i : Instr) (rest : List Byte), i.wellFormed usbcEb = true →
    decode usbcEb (encode i ++ rest) = .ok (i, rest)

/-- What decodes is well-formed, and its bytes are the bytes read: each byte sequence has one meaning (R106, R108). -/
def Obligations.EncodeOfDecodeIsTheBytes : Prop :=
  ∀ (usbcEb : Bool) (bytes rest : List Byte) (i : Instr), decode usbcEb bytes = .ok (i, rest) →
    i.wellFormed usbcEb = true ∧ bytes = encode i ++ rest

/-- Decoding is total: it fails only where the opcode byte or an operand byte is missing, and then says which (R100, R106). -/
def Obligations.DecodeFailsOnlyOnMissingBytes : Prop :=
  ∀ (usbcEb : Bool),
    decode usbcEb [] = .error .noBytes ∧
    ∀ (op : Byte) (operands : List Byte),
      (operands.length < (entryOf usbcEb op).operandBytes → decode usbcEb (op :: operands) = .error (.truncated op)) ∧
      ((entryOf usbcEb op).operandBytes ≤ operands.length →
        ∃ i, decode usbcEb (op :: operands) = .ok (i, operands.drop (entryOf usbcEb op).operandBytes))

/-- 231 opcodes are recognised, 230 without EB; the others are the 25 listed bytes, and EB (R107). -/
def Obligations.UnrecognisedBytesAreTheListedOnes : Prop :=
  (∀ (usbcEb : Bool) (op : Byte), recognised usbcEb op = false ↔
    op ∈ ([0x02, 0x12, 0x22, 0x32, 0x42, 0x52, 0x62, 0x72, 0x92, 0xB2, 0xD2, 0xF2,
           0x0B, 0x2B, 0x4B, 0x6B, 0x8B, 0x93, 0x9B, 0x9C, 0x9E, 0x9F, 0xAB, 0xBB, 0xCB] : List Byte) ∨
    (op = 0xEB ∧ usbcEb = false)) ∧
  ((List.range 256).filter fun n => recognised true (BitVec.ofNat 8 n)).length = 231 ∧
  ((List.range 256).filter fun n => recognised false (BitVec.ofNat 8 n)).length = 230

/-- Words written out from the spec's encodings decode to the instructions they stand for: at least one of each family. -/
def Obligations.WordsOfTheSpecDecode : Prop :=
  decode true [0xA9, 0xC0] = .ok (.lda (.immediate 0xC0), []) ∧
  decode true [0x8D, 0x00, 0x02] = .ok (.sta (.absolute 0x0200), []) ∧
  decode true [0xAA, 0xE8] = .ok (.tax, [0xE8]) ∧
  decode true [0xE8] = .ok (.inx, []) ∧
  decode true [0x69, 0xC4] = .ok (.adc (.immediate 0xC4), []) ∧
  decode true [0x00] = .ok (.brk, []) ∧
  decode true [0x6C, 0xFF, 0x02] = .ok (.jmp (.indirect 0x02FF), []) ∧
  decode true [0xB1, 0x10] = .ok (.lda (.mem (.indirectIndexed 0x10)), []) ∧
  decode true [0x24, 0x10] = .ok (.bit (.zeroPage 0x10), []) ∧
  decode true [0x3E, 0xFF, 0x02] = .ok (.rol (.mem (.absoluteX 0x02FF)), []) ∧
  decode true [0xD1, 0x20] = .ok (.cmp (.mem (.indirectIndexed 0x20)), []) ∧
  decode true [0x20, 0x00, 0x07] = .ok (.jsr 0x0700, []) ∧
  decode true [0xD0, 0xFE] = .ok (.bne 0xFE, []) ∧
  decode true [0x58] = .ok (.cli, []) ∧
  decode true [0x97, 0xFF] = .ok (.sax (.zeroPageY 0xFF), []) ∧
  decode true [0x1C, 0xFF, 0x02] = .ok (.nopMemory 0x1C (.absoluteX 0x02FF), []) ∧
  decode true [0xEB, 0x03] = .ok (.sbcImmediateEB 0x03, []) ∧
  decode false [0xEB, 0x03] = .ok (.unknown 0xEB, [0x03]) ∧
  decode true [0x02] = .ok (.unknown 0x02, [])

/-! ## The step -/

/-- When the bytes at PC decode to an instruction, a step of a running machine is the execution of that instruction
(40_addressing.md R138). Nothing stands around `exec`: it advances PC and CYC itself. -/
def Obligations.StepRunsTheDecodedInstruction : Prop :=
  ∀ (s : State) (bytes rest : List Byte) (i : Instr), s.run = .running →
    decode s.cfg.usbcEb bytes = .ok (i, rest) →
    (∀ k, k < i.length → s.readByte (s.pc + BitVec.ofNat 16 k) = bytes[k]?) →
    step s = exec i s

/-- A byte the fetch cannot read ends the step with MemoryAccessError and no other effect: the opcode first, then the
operand bytes the opcode needs, in order (60 R306, R309; the encoding of an error as a stopped next state is log entry 1). -/
def Obligations.FetchErrorsComeInAccessOrder : Prop :=
  ∀ (s : State), s.run = .running →
    (s.readByte s.pc = none → step s = .next { s with run := .stopped (.memoryAccess s.pc .read) }) ∧
    (∀ op, s.readByte s.pc = some op → 1 ≤ (entryOf s.cfg.usbcEb op).operandBytes → s.readByte (s.pc + 1) = none →
      step s = .next { s with run := .stopped (.memoryAccess (s.pc + 1) .read) }) ∧
    (∀ op b, s.readByte s.pc = some op → (entryOf s.cfg.usbcEb op).operandBytes = 2 → s.readByte (s.pc + 1) = some b →
      s.readByte (s.pc + 2) = none → step s = .next { s with run := .stopped (.memoryAccess (s.pc + 2) .read) })

/-- An unrecognised opcode raises UnknownOpcode with the byte, before any operand byte is read, and changes no register, flag,
memory cell or CYC (30 R107, 60 R304). -/
def Obligations.UnrecognisedOpcodeOnlyStopsTheRun : Prop :=
  (∀ (s : State) (op : Byte), s.run = .running → s.readByte s.pc = some op →
    (op ∈ ([0x02, 0x12, 0x22, 0x32, 0x42, 0x52, 0x62, 0x72, 0x92, 0xB2, 0xD2, 0xF2,
            0x0B, 0x2B, 0x4B, 0x6B, 0x8B, 0x93, 0x9B, 0x9C, 0x9E, 0x9F, 0xAB, 0xBB, 0xCB] : List Byte) ∨
      (op = 0xEB ∧ s.cfg.usbcEb = false)) →
    step s = .next { s with run := .stopped (.unknownOpcode op) }) ∧
  (∀ (s : State) (op : Byte), exec (.unknown op) s = .next { s with run := .stopped (.unknownOpcode op) })

/-- After an error the run is over: a further step reports the same error and there is no next state (60 R310). -/
def Obligations.StoppedRunRepeatsItsError : Prop :=
  ∀ (s : State) (e : StepError), s.run = .stopped e →
    step s = .fault (.stopped e) ∧ stepResult (step s) = some (.err e)

/-- Every instruction in every state has a next state: none is refused and none faults; so does every step of a running
machine, and its result is Ok or an error (60 R300). -/
def Obligations.EveryInstructionHasANextState : Prop :=
  (∀ (i : Instr) (s : State), ∃ t, exec i s = .next t) ∧
  (∀ (s : State), s.run = .running → ∃ t, step s = .next t ∧
    ((t.run = .running ∧ stepResult (step s) = some .ok) ∨ ∃ e, t.run = .stopped e ∧ stepResult (step s) = some (.err e)))

/-! ## Invariants and rules of the whole machine -/

/-- The state after construction at the defaults meets the invariant. -/
def Obligations.ResetMeetsTheInvariant : Prop := State.reset.Inv

/-- Every step keeps memory in its canonical form: homes strictly rising, no byte listed that an unlisted cell holds, and no
home listed but those of the cells the mapper has (20_memory.md R74; the form is log entries 3 and 4). -/
def Obligations.EveryStepKeepsMemoryCanonical : Prop :=
  ∀ (s t : State), s.Inv → step s = .next t → t.Inv

/-- Every state of every run, with any operations of the host and the peripheral between its steps, has memory in
canonical form and still has the configuration it was constructed with; and each PRG-RAM cell that no address reaches, 8192
and above, still holds its INIT_MEM byte (10_state.md R48; 20_memory.md R74, R77, R82, R83, R90, R95). -/
def Obligations.RunsKeepFormConfigurationAndUnreachedCells : Prop :=
  ∀ (p : Params) (s : State), Reachable p s →
    (s.Inv ∧ ∃ b, romBanksOf p.prgRom.length = some b ∧ s.cfg = p.config b) ∧
    (∀ k, 8192 ≤ k → k < p.prgRamSize → (∀ a, resolveCell s.cfg a ≠ some (.prgRam k)) ∧
      s.cellByte (.prgRam k) = (p.initMem.lookup (.prgRam k)).getD 0x00)

/-- Under ROM_WRITE = ignore, whatever the program, the host and the peripheral do, address a of the window reads the byte of
the cartridge: of the one bank at a - 0x8000 modulo 0x4000, of two banks at a - 0x8000 (20_memory.md R75, R76, R79, R82). -/
def Obligations.CartridgeRomSurvivesEveryRun : Prop :=
  ∀ (p : Params) (s : State), Reachable p s → p.romWrite = .ignore →
    (p.prgRom.length = 0x4000 → ∀ a : Word, 0x8000 ≤ a.toNat → s.readByte a = p.prgRom[(a.toNat - 0x8000) % 0x4000]?) ∧
    (p.prgRom.length = 0x8000 → ∀ a : Word, 0x8000 ≤ a.toNat → s.readByte a = p.prgRom[a.toNat - 0x8000]?)

/-- Every address reads the one cell its window gives it: PRG-ROM byte a - 0x8000, modulo 0x4000 with one bank; PRG-RAM cell
(a - 0x6000) mod R; a fallback address its own general-RAM cell, or nothing outside GENERAL_RAM. So one 16 KB bank reads alike
0x4000 apart, and a PRG-RAM of R bytes R apart (20_memory.md R73, R75 to R78, R80, R81). -/
def Obligations.AddressesReadTheCellOfTheirWindow : Prop :=
  ∀ (s : State) (a : Word),
    (s.cfg.romBanks = .one → 0x8000 ≤ a.toNat → resolveCell s.cfg a = some (.prgRom ((a.toNat - 0x8000) % 0x4000))) ∧
    (s.cfg.romBanks = .two → 0x8000 ≤ a.toNat → resolveCell s.cfg a = some (.prgRom (a.toNat - 0x8000))) ∧
    (0 < s.cfg.prgRamSize → 0x6000 ≤ a.toNat → a.toNat < 0x8000 →
      resolveCell s.cfg a = some (.prgRam ((a.toNat - 0x6000) % s.cfg.prgRamSize))) ∧
    (Fallback s.cfg a → (∃ r ∈ s.cfg.generalRam, r.first.toNat ≤ a.toNat ∧ a.toNat ≤ r.last.toNat) →
      resolveCell s.cfg a = some (.generalRam a)) ∧
    (Fallback s.cfg a → (∀ r ∈ s.cfg.generalRam, ¬ (r.first.toNat ≤ a.toNat ∧ a.toNat ≤ r.last.toNat)) →
      resolveCell s.cfg a = none) ∧
    (∀ cell, resolveCell s.cfg a = some cell → s.readByte a = some (s.cellByte cell)) ∧
    (resolveCell s.cfg a = none → s.readByte a = none) ∧
    (s.cfg.romBanks = .one → 0x8000 ≤ a.toNat → a.toNat < 0xC000 → s.readByte a = s.readByte (a + 0x4000)) ∧
    (0 < s.cfg.prgRamSize → 0x6000 ≤ a.toNat → a.toNat + s.cfg.prgRamSize < 0x8000 →
      s.readByte a = s.readByte (a + BitVec.ofNat 16 s.cfg.prgRamSize))

/-- A write through the mapper changes the cell its address resolves to and no other, unless it is ignored; registers,
flags, CYC and run status stay. The addresses that read the new byte are the written one and, with one bank or in PRG-RAM, its
mirrors: no two fallback addresses share a cell, and two banks do not mirror (20_memory.md R72, R73, R76 to R79, R81, R83). -/
def Obligations.WriteChangesOneCell : Prop :=
  ∀ (s : State) (a : Word) (v : Byte), s.Inv → (resolveCell s.cfg a).isSome = true →
    ∃ t, s.writeByte a v = some t ∧ t = { s with mem := t.mem } ∧ WroteByte s t a v ∧
      (∀ b, SameCell s.cfg a b ↔ resolveCell s.cfg b = resolveCell s.cfg a) ∧
      (ignoresWrite s.cfg a = true ↔ 0x8000 ≤ a.toNat ∧ s.cfg.romBanks ≠ .none ∧ s.cfg.romWrite = .ignore) ∧
      (∀ b, SameCell s.cfg a b → ignoresWrite s.cfg a = false → t.readByte b = some v) ∧
      (∀ b, ¬ SameCell s.cfg a b → t.readByte b = s.readByte b) ∧
      (∀ cell, cellExists s.cfg cell = true → resolveCell s.cfg a ≠ some cell → t.cellByte cell = s.cellByte cell)

/-- At the default of GENERAL_RAM, in every other configuration, no step ends in MemoryAccessError (20_memory.md R78,
60 R306). -/
def Obligations.SilentMapperNeverFails : Prop :=
  (∀ c : Config, c.generalRam = [⟨0x0000, 0xFFFF⟩] → Config.Silent c) ∧
  (∀ (s t : State) (a : Word) (d : Access), Config.Silent s.cfg → s.run = .running → step s = .next t →
    t.run ≠ .stopped (.memoryAccess a d))

/-- A step that raises leaves CYC as it was, and PC too, but for BRK under BRK_EFFECTS = full (60 R302, 40 R138). -/
def Obligations.ErrorStepsKeepPcAndCycles : Prop :=
  ∀ (s t : State) (e : StepError), s.run = .running → step s = .next t → t.run = .stopped e →
    t.cyc = s.cyc ∧ (e ≠ .brk → t.pc = s.pc) ∧ (s.cfg.brkEffects = .signalOnly → t.pc = s.pc)

/-- Each error comes from the cause R300 gives it alone: MemoryAccessError names an address the mapper does not map, and
FailedParsingEntryPoint comes from no step. -/
def Obligations.EachErrorComesFromItsCause : Prop :=
  ∀ (s t : State), s.run = .running → step s = .next t →
    (t.run = .stopped .brk → fetch s = .ok .brk) ∧
    (∀ op, t.run = .stopped (.unknownOpcode op) → s.readByte s.pc = some op ∧ recognised s.cfg.usbcEb op = false) ∧
    (t.run = .stopped .stackOverflow → t.sp = 0x00 ∧
      (fetch s = .ok .pha ∨ fetch s = .ok .php ∨ (∃ w, fetch s = .ok (.jsr w)) ∨
        (fetch s = .ok .brk ∧ s.cfg.brkEffects = .full))) ∧
    (t.run = .stopped .stackEmpty → t.sp = 0xFF ∧
      (fetch s = .ok .pla ∨ fetch s = .ok .plp ∨ fetch s = .ok .rts ∨ fetch s = .ok .rti)) ∧
    (∀ a d, t.run = .stopped (.memoryAccess a d) → resolveCell s.cfg a = none) ∧
    t.run ≠ .stopped .failedParsingEntryPoint

/-- A successful step adds to CYC the base cycles that the table of R352 gives its opcode byte; beyond them at most one cycle
for a byte with the page-cross mark, at most two for a branch, and none for any other. The instruction's own base cost and mark,
which the statements about single instructions name, are those of the table (70 R349 to R352). -/
def Obligations.SuccessfulStepsPayTheirCycles : Prop :=
  ∀ (s t : State) (op : Byte) (i : Instr), s.run = .running → s.readByte s.pc = some op → fetch s = .ok i →
    step s = .next t → t.run = .running →
    i.baseCycles = baseCost op ∧ (i.pageCrossPenalty = true ↔ op ∈ crossMarks) ∧
    ((∃ offset test, test ∈ branchTests s offset ∧ i = test.1) ↔ op ∈ branchOpcodes) ∧
    ∃ extra, t.cyc = s.cyc + baseCost op + extra ∧
      (op ∈ crossMarks → extra ≤ 1) ∧ (op ∈ branchOpcodes → extra ≤ 2) ∧
      (op ∉ crossMarks → op ∉ branchOpcodes → extra = 0)

/-- A successful step of an instruction that does not set PC itself advances PC by the instruction's length, which is that of
its encoding: 1, 2 or 3 bytes (10_state.md R35, 30_encoding.md R101). -/
def Obligations.SuccessfulStepsAdvanceByTheLength : Prop :=
  ∀ (s t : State) (i : Instr), s.run = .running → fetch s = .ok i → step s = .next t → t.run = .running → setsPC i = false →
    t.pc = s.pc + BitVec.ofNat 16 i.length ∧ i.length = (encode i).length ∧ 1 ≤ i.length ∧ i.length ≤ 3

/-- No instruction reads CYC: a machine whose counter stands `k` higher makes the same step (10_state.md R45, 70 R353). -/
def Obligations.CycleCountInfluencesNothing : Prop :=
  ∀ (s : State) (k : Nat),
    (∀ t, step s = .next t → step { s with cyc := s.cyc + k } = .next { t with cyc := t.cyc + k }) ∧
    (∀ r, step s = .fault r → step { s with cyc := s.cyc + k } = .fault r)

/-- No instruction reads B: two machines that differ in B alone make steps that differ in B alone (10_state.md R38, R39). -/
def Obligations.BreakFlagInfluencesNothing : Prop :=
  ∀ (s : State) (b : Bool) (t : State), step s = .next t →
    ∃ b', step { s with flags := { s.flags with b := b } } = .next { t with flags := { t.flags with b := b' } }

/-- D does not change the arithmetic: ADC, SBC, RRA and ISC do the same whatever D holds, and leave it (42 R171). -/
def Obligations.DecimalFlagDoesNotChangeArithmetic : Prop :=
  ∀ (o : ReadOperand) (m : MemOperand) (v : Byte) (i : Instr),
    i ∈ [Instr.adc o, .sbc o, .sbcImmediateEB v, .rra m, .isc m] →
    ∀ (s t : State) (d : Bool), exec i s = .next t →
      exec i { s with flags := { s.flags with d := d } } = .next { t with flags := { t.flags with d := d } } ∧
      t.flags.d = s.flags.d

/-! ## Values and flags -/

/-- A byte holds 0 to 255 and is its bit array, index 0 the least significant bit and index 7 the sign (00_scope.md R12);
reading bit 0 to 7 gives that bit, and an index outside is an error, which is none of a step's errors (R13); the signed reading
is v - 256 from 128 on, -128 to 127, and relative addressing adds it (R15). -/
def Obligations.ByteIsItsBitArray : Prop :=
  (∀ n : Nat, n < 256 → (BitVec.ofNat 8 n : Byte).toNat = n) ∧
  (∀ v : Byte, byteOfBits (bitArray v) = some v) ∧
  (∀ (bits : List Bool) (v : Byte), byteOfBits bits = some v → bitArray v = bits) ∧
  (∀ (v : Byte) (i : Nat), i < 8 → bitAt v i = some (decide (v.toNat / 2 ^ i % 2 = 1))) ∧
  (∀ v : Byte, bitAt v 7 = some (decide (signed8 v < 0))) ∧
  (∀ (v : Byte) (i : Nat), i < 8 → bitAt v i = some (v.getLsbD i)) ∧
  (∀ (v : Byte) (i : Nat), 8 ≤ i → bitAt v i = none) ∧
  (∀ v : Byte, signed8 v = (if 128 ≤ v.toNat then (v.toNat : Int) - 256 else v.toNat) ∧ -128 ≤ signed8 v ∧ signed8 v ≤ 127) ∧
  (∀ (pc : Word) (offset : Byte), ((branchTarget pc offset).toNat : Int) = (pc.toNat + 2 + signed8 offset) % 65536)

/-- A word holds 0 to 65535 and is its pair of bytes, low + high * 256 (00_scope.md R16). -/
def Obligations.WordIsItsPairOfBytes : Prop :=
  (∀ n : Nat, n < 65536 → (BitVec.ofNat 16 n : Word).toNat = n) ∧
  (∀ l h : Byte, (w16 l h).toNat = l.toNat + h.toNat * 256) ∧
  (∀ l h : Byte, lo (w16 l h) = l ∧ hi (w16 l h) = h) ∧
  (∀ w : Word, w16 (lo w) (hi w) = w) ∧
  (∀ v w : Word, v = w ↔ v.toNat = w.toNat)

/-- The adder: exact 9-bit sum, C its carry-out, V the source's overflow formula, Z and N of the result; nothing else changes
(42 R170). -/
def Obligations.AdderIsExact : Prop :=
  ∀ (s : State) (m : Byte),
    (s.adc m).a.toNat = (s.a.toNat + m.toNat + s.flags.c.toNat) % 256 ∧
    (s.adc m).flags.c = decide (255 < s.a.toNat + m.toNat + s.flags.c.toNat) ∧
    (s.adc m).flags.v = decide (((s.a ^^^ (s.adc m).a) &&& (m ^^^ (s.adc m).a) &&& 0x80) ≠ 0) ∧
    (s.adc m).flags.z = decide ((s.adc m).a = 0) ∧
    (s.adc m).flags.n = (s.adc m).a.getLsbD 7 ∧
    s.adc m = { s with a := (s.adc m).a, flags := { s.flags with
      c := (s.adc m).flags.c, v := (s.adc m).flags.v, z := (s.adc m).flags.z, n := (s.adc m).flags.n } }

/-- The compare: C is the unsigned `reg ≥ m`, Z equality, N bit 7 of the difference; V and the registers stay (45 R200). -/
def Obligations.CompareSubtractsWithoutStoring : Prop :=
  ∀ (s : State) (reg m : Byte),
    s.compare reg m = { s with flags := { s.flags with
      c := decide (reg.toNat ≥ m.toNat), z := decide (reg = m), n := (reg - m).getLsbD 7 } }

/-- The packed status byte is N V 1 b4 D I Z C; unpacking it restores the flags, B from bit 4 only where it is loaded, and
bit 5 of a pulled byte is ignored (10_state.md R39, R40). -/
def Obligations.StatusBytePacksTheFlags : Prop :=
  ∀ (f g : Flags) (b4 loadB : Bool) (p : Byte),
    (f.pack b4).toNat = f.n.toNat * 128 + f.v.toNat * 64 + 32 + b4.toNat * 16 + f.d.toNat * 8 + f.i.toNat * 4 +
      f.z.toNat * 2 + f.c.toNat ∧
    g.unpack loadB (f.pack b4) = { f with b := if loadB then b4 else g.b } ∧
    g.unpack loadB (p ^^^ 0x20) = g.unpack loadB p ∧
    (g.unpack loadB p).pack (p.getLsbD 4) = p ||| 0x20

/-! ## Addressing -/

/-- The zero-page modes: the index is added modulo 256, so the address never leaves page 0; two bytes; and of all instructions
with a memory operand only LDX, STX, LAX and SAX have the Zero-page,Y form (40 R122 to R124). -/
def Obligations.ZeroPageModesStayInPageZero : Prop :=
  ∀ (b : Byte) (s : State),
    resolve (.zeroPage b) s = .ok ⟨BitVec.ofNat 16 b.toNat, false⟩ ∧
    resolve (.zeroPageX b) s = .ok ⟨BitVec.ofNat 16 ((b.toNat + s.x.toNat) % 256), false⟩ ∧
    resolve (.zeroPageY b) s = .ok ⟨BitVec.ofNat 16 ((b.toNat + s.y.toNat) % 256), false⟩ ∧
    (MemOperand.zeroPage b).len = 2 ∧ (MemOperand.zeroPageX b).len = 2 ∧ (MemOperand.zeroPageY b).len = 2 ∧
    (∀ (usbcEb : Bool) (op : Byte), ∀ i ∈ readersOf (.zeroPageY b) op ++ storersOf (.zeroPageY b),
      i.wellFormed usbcEb = true ↔
        i ∈ [Instr.ldx (.mem (.zeroPageY b)), .stx (.zeroPageY b), .lax (.zeroPageY b), .sax (.zeroPageY b)])

/-- The absolute modes: the index carries fully and wraps at 16 bits; the page-cross bit compares the high bytes of base and
address (40 R125 to R127, 00 R19). -/
def Obligations.AbsoluteModesCarryFully : Prop :=
  ∀ (w : Word) (s : State),
    resolve (.absolute w) s = .ok ⟨w, false⟩ ∧
    (∃ r, resolve (.absoluteX w) s = .ok r ∧ r.ea.toNat = (w.toNat + s.x.toNat) % 65536 ∧
      r.cross = decide (w.toNat / 256 ≠ r.ea.toNat / 256)) ∧
    (∃ r, resolve (.absoluteY w) s = .ok r ∧ r.ea.toNat = (w.toNat + s.y.toNat) % 65536 ∧
      r.cross = decide (w.toNat / 256 ≠ r.ea.toNat / 256))

/-- The indirect zero-page modes: the pointer's second byte wraps inside page 0; X is added to the pointer before, Y to the
base after, with carry (40 R130, R131). -/
def Obligations.IndirectModesReadTheirPointer : Prop :=
  ∀ (b : Byte) (s : State) (l h : Byte),
    (s.readByte (BitVec.ofNat 16 ((b.toNat + s.x.toNat) % 256)) = some l →
      s.readByte (BitVec.ofNat 16 ((b.toNat + s.x.toNat + 1) % 256)) = some h →
      resolve (.indexedIndirect b) s = .ok ⟨w16 l h, false⟩) ∧
    (s.readByte (BitVec.ofNat 16 b.toNat) = some l →
      s.readByte (BitVec.ofNat 16 ((b.toNat + 1) % 256)) = some h →
      ∃ r, resolve (.indirectIndexed b) s = .ok r ∧ r.ea.toNat = (l.toNat + 256 * h.toNat + s.y.toNat) % 65536 ∧
        r.cross = decide (h.toNat ≠ r.ea.toNat / 256))

/-- The accesses of a memory operand come in order: the pointer's low byte, its high byte, then the effective address. The
first of them that is unmapped ends the instruction with MemoryAccessError of that address, a read (a write for the access of a
store), and no other effect; and the resolver fails in no other way (60 R302, R306, R309). -/
def Obligations.UnreadableOperandOnlyStopsTheRun : Prop :=
  ∀ (m : MemOperand) (op : Byte) (s : State),
    (∀ p, (pointerReads m s).find? (fun a => (s.readByte a).isNone) = some p →
      ∀ i ∈ readersOf m op ++ storersOf m, exec i s = .next { s with run := .stopped (.memoryAccess p .read) }) ∧
    ((pointerReads m s).find? (fun a => (s.readByte a).isNone) = none → ∃ r, resolve m s = .ok r) ∧
    (∀ r, resolve m s = .ok r → s.readByte r.ea = none →
      (∀ i ∈ readersOf m op, exec i s = .next { s with run := .stopped (.memoryAccess r.ea .read) }) ∧
      (∀ i ∈ storersOf m, exec i s = .next { s with run := .stopped (.memoryAccess r.ea .write) }))

/-! ## Instructions: what each does, and that it changes nothing else -/

/-- The operand of every instruction that reads one: a literal is the operand byte itself, with no page cross; a memory operand
is the byte at the address its resolver gives, with the resolver's page-cross bit (40 R121, R135). `load` and `loadMem` stand for
this in the statements below too. LDA, LDX, LDY, LAX: the loaded byte goes to the register (to A and X), Z and N follow it; one
more cycle on a page cross; every other register, flag and byte of memory stays (41 R150 to R152, 49 R287, 40 R128). -/
def Obligations.LoadsComplete : Prop :=
  (∀ (v : Byte) (s : State), load (.immediate v) s = .ok ⟨v, false⟩) ∧
  (∀ (m : MemOperand) (s : State), load (.mem m) s = loadMem m s) ∧
  (∀ (m : MemOperand) (s : State) (r : Resolved) (v : Byte), resolve m s = .ok r → s.readByte r.ea = some v →
    loadMem m s = .ok ⟨v, r.cross⟩) ∧
  (∀ (o : ReadOperand) (s : State) (v : Byte) (cross : Bool), load o s = .ok ⟨v, cross⟩ →
    exec (.lda o) s = .next { s with a := v, flags := withZN s.flags v, pc := s.pc + BitVec.ofNat 16 o.len, cyc := s.cyc + readCycles o + cross.toNat } ∧
    exec (.ldx o) s = .next { s with x := v, flags := withZN s.flags v, pc := s.pc + BitVec.ofNat 16 o.len, cyc := s.cyc + readCycles o + cross.toNat } ∧
    exec (.ldy o) s = .next { s with y := v, flags := withZN s.flags v, pc := s.pc + BitVec.ofNat 16 o.len, cyc := s.cyc + readCycles o + cross.toNat }) ∧
  (∀ (m : MemOperand) (s : State) (v : Byte) (cross : Bool), loadMem m s = .ok ⟨v, cross⟩ →
    exec (.lax m) s = .next { s with a := v, x := v, flags := withZN s.flags v, pc := s.pc + BitVec.ofNat 16 m.len, cyc := s.cyc + readMemCycles m + cross.toNat })

/-- STA, STX, STY, SAX: the byte of A, X, Y or A AND X goes to the effective address and nowhere else; no flag changes; a page
cross is never charged (41 R153 to R155, 49 R288). -/
def Obligations.StoresComplete : Prop :=
  ∀ (m : MemOperand) (s : State) (r : Resolved), s.Inv → resolve m s = .ok r → (resolveCell s.cfg r.ea).isSome = true →
    ∀ i v, (i, v) ∈ [(Instr.sta m, s.a), (.stx m, s.x), (.sty m, s.y), (.sax m, s.a &&& s.x)] →
      ∃ t, exec i s = .next t ∧ WroteByte s t r.ea v ∧
        t = { s with mem := t.mem, pc := s.pc + BitVec.ofNat 16 m.len, cyc := s.cyc + storeCycles m }

/-- TAX, TAY, TXA, TYA, TSX set Z and N from the register written; TXS changes no flag (41 R156 to R161). -/
def Obligations.TransfersComplete : Prop :=
  ∀ (s : State),
    exec .tax s = .next { s with x := s.a, flags := withZN s.flags s.a, pc := s.pc + 1, cyc := s.cyc + 2 } ∧
    exec .tay s = .next { s with y := s.a, flags := withZN s.flags s.a, pc := s.pc + 1, cyc := s.cyc + 2 } ∧
    exec .txa s = .next { s with a := s.x, flags := withZN s.flags s.x, pc := s.pc + 1, cyc := s.cyc + 2 } ∧
    exec .tya s = .next { s with a := s.y, flags := withZN s.flags s.y, pc := s.pc + 1, cyc := s.cyc + 2 } ∧
    exec .tsx s = .next { s with x := s.sp, flags := withZN s.flags s.sp, pc := s.pc + 1, cyc := s.cyc + 2 } ∧
    exec .txs s = .next { s with sp := s.x, pc := s.pc + 1, cyc := s.cyc + 2 }

/-- ADC: A becomes the low 8 bits of A + m + C, C the carry-out, V signed overflow, Z and N of the result (42 R172). -/
def Obligations.AddWithCarryCompletes : Prop :=
  ∀ (o : ReadOperand) (s : State) (m : Byte) (cross : Bool), load o s = .ok ⟨m, cross⟩ →
    ∃ r : Byte, r.toNat = (s.a.toNat + m.toNat + s.flags.c.toNat) % 256 ∧
      exec (.adc o) s = .next { s with
        a := r
        flags := { withZN s.flags r with
          c := decide (255 < s.a.toNat + m.toNat + s.flags.c.toNat)
          v := decide (s.a.msb = m.msb ∧ r.msb ≠ s.a.msb) }
        pc := s.pc + BitVec.ofNat 16 o.len
        cyc := s.cyc + readCycles o + cross.toNat }

/-- SBC, and SBC at EB where it is recognised: A becomes A - m - (1 - C) modulo 256, C = 1 exactly when no borrow was needed,
V = 1 exactly when A and m have different signs and the result not A's (42 R173, 49 R292). Without USBC_EB, EB raises
UnknownOpcode. -/
def Obligations.SubtractWithBorrowCompletes : Prop :=
  ∀ (o : ReadOperand) (s : State) (m : Byte) (cross : Bool), load o s = .ok ⟨m, cross⟩ →
    ∃ r : Byte, (r.toNat : Int) = ((s.a.toNat : Int) - m.toNat - (1 - s.flags.c.toNat)) % 256 ∧
      ∀ t, t = { s with
        a := r
        flags := { withZN s.flags r with
          c := decide (m.toNat + (1 - s.flags.c.toNat) ≤ s.a.toNat)
          v := decide (s.a.msb ≠ m.msb ∧ r.msb ≠ s.a.msb) }
        pc := s.pc + BitVec.ofNat 16 o.len
        cyc := s.cyc + readCycles o + cross.toNat } →
      exec (.sbc o) s = .next t ∧
      (o = .immediate m → s.cfg.usbcEb = true → exec (.sbcImmediateEB m) s = .next t) ∧
      (o = .immediate m → s.cfg.usbcEb = false → exec (.sbcImmediateEB m) s = .next { s with run := .stopped (.unknownOpcode 0xEB) })

/-- AND, ORA, EOR write A bit by bit and set Z and N; BIT sets Z from A AND m, V and N from bits 6 and 7 of m, and leaves A
(43 R180 to R183). -/
def Obligations.LogicCompletes : Prop :=
  (∀ (o : ReadOperand) (s : State) (m : Byte) (cross : Bool), load o s = .ok ⟨m, cross⟩ →
    ∀ i r, (i, r) ∈ [(Instr.and o, s.a &&& m), (.ora o, s.a ||| m), (.eor o, s.a ^^^ m)] →
      exec i s = .next { s with a := r, flags := withZN s.flags r, pc := s.pc + BitVec.ofNat 16 o.len, cyc := s.cyc + readCycles o + cross.toNat }) ∧
  (∀ (p : MemOperand) (s : State) (m : Byte) (cross : Bool), loadMem p s = .ok ⟨m, cross⟩ →
    exec (.bit p) s = .next { s with
      flags := { s.flags with z := decide (s.a &&& m = 0), v := decide (m.toNat / 64 % 2 = 1), n := decide (128 ≤ m.toNat) }
      pc := s.pc + BitVec.ofNat 16 p.len
      cyc := s.cyc + readMemCycles p + cross.toNat })

/-- CMP, CPX, CPY: C the unsigned comparison, Z equality, N bit 7 of the difference; no register, no V (45 R200 to R203). -/
def Obligations.ComparesComplete : Prop :=
  ∀ (o : ReadOperand) (s : State) (m : Byte) (cross : Bool), load o s = .ok ⟨m, cross⟩ →
    ∀ i reg, (i, reg) ∈ [(Instr.cmp o, s.a), (.cpx o, s.x), (.cpy o, s.y)] →
      exec i s = .next { s with
        flags := { s.flags with
          c := decide (m.toNat ≤ reg.toNat)
          z := decide (reg = m)
          n := decide (128 ≤ (reg.toNat + 256 - m.toNat) % 256) }
        pc := s.pc + BitVec.ofNat 16 o.len
        cyc := s.cyc + readCycles o + cross.toNat }

/-- ASL, LSR, ROL, ROR on A: the shifted value, C the bit shifted out, the old C shifted in by the rotates (44 R190 to R194). -/
def Obligations.AccumulatorShiftsComplete : Prop :=
  ∀ (s : State) (i : Instr) (value : Nat) (carry : Bool),
    (i, value, carry) ∈
      [(Instr.asl .accumulator, s.a.toNat * 2 % 256, decide (128 ≤ s.a.toNat)),
       (.lsr .accumulator, s.a.toNat / 2, decide (s.a.toNat % 2 = 1)),
       (.rol .accumulator, (s.a.toNat * 2 + s.flags.c.toNat) % 256, decide (128 ≤ s.a.toNat)),
       (.ror .accumulator, s.a.toNat / 2 + 128 * s.flags.c.toNat, decide (s.a.toNat % 2 = 1))] →
    exec i s = .next { s with
      a := BitVec.ofNat 8 value
      flags := { withZN s.flags (BitVec.ofNat 8 value) with c := carry }
      pc := s.pc + 1
      cyc := s.cyc + 2 }

/-- The shifts, INC and DEC on memory: the result is written at the address read, C is the bit shifted out (INC and DEC leave
it), Z and N follow the result even where the write is ignored; A and every other byte stay (44 R190 to R194, 45 R204, R205). -/
def Obligations.MemoryModifiesComplete : Prop :=
  ∀ (m : MemOperand) (s : State) (r : Resolved) (v : Byte), s.Inv → resolve m s = .ok r → s.readByte r.ea = some v →
    ∀ i value carry, (i, value, carry) ∈
      [(Instr.asl (.mem m), v.toNat * 2 % 256, decide (128 ≤ v.toNat)),
       (.lsr (.mem m), v.toNat / 2, decide (v.toNat % 2 = 1)),
       (.rol (.mem m), (v.toNat * 2 + s.flags.c.toNat) % 256, decide (128 ≤ v.toNat)),
       (.ror (.mem m), v.toNat / 2 + 128 * s.flags.c.toNat, decide (v.toNat % 2 = 1)),
       (.inc m, (v.toNat + 1) % 256, s.flags.c),
       (.dec m, (v.toNat + 255) % 256, s.flags.c)] →
    ∃ t, exec i s = .next t ∧ WroteByte s t r.ea (BitVec.ofNat 8 value) ∧
      t = { s with
        mem := t.mem
        flags := { withZN s.flags (BitVec.ofNat 8 value) with c := carry }
        pc := s.pc + BitVec.ofNat 16 m.len
        cyc := s.cyc + modifyCycles m }

/-- SLO, RLA, SRE: the shifted byte is written back, and A takes its OR, AND or EOR with it; C from the shift, Z and N of the
new A (49 R280 to R283). -/
def Obligations.ShiftAndLogicCompletes : Prop :=
  ∀ (m : MemOperand) (s : State) (r : Resolved) (v : Byte), s.Inv → resolve m s = .ok r → s.readByte r.ea = some v →
    ∀ (i : Instr) (w a' : Byte) (carry : Bool), (i, w, a', carry) ∈
      [(Instr.slo m, BitVec.ofNat 8 (v.toNat * 2), s.a ||| BitVec.ofNat 8 (v.toNat * 2), decide (128 ≤ v.toNat)),
       (.rla m, BitVec.ofNat 8 (v.toNat * 2 + s.flags.c.toNat), s.a &&& BitVec.ofNat 8 (v.toNat * 2 + s.flags.c.toNat), decide (128 ≤ v.toNat)),
       (.sre m, BitVec.ofNat 8 (v.toNat / 2), s.a ^^^ BitVec.ofNat 8 (v.toNat / 2), decide (v.toNat % 2 = 1))] →
    ∃ t, exec i s = .next t ∧ WroteByte s t r.ea w ∧
      t = { s with
        mem := t.mem
        a := a'
        flags := { withZN s.flags a' with c := carry }
        pc := s.pc + BitVec.ofNat 16 m.len
        cyc := s.cyc + modifyCycles m }

/-- RRA adds the rotated byte with the rotate's carry-out as carry-in; ISC subtracts the incremented byte; DCP compares A with
the decremented byte. Each writes its byte back first (49 R284 to R286; the adder is 42 R170, the compare 45 R200). -/
def Obligations.ModifyAndArithmeticCompletes : Prop :=
  ∀ (m : MemOperand) (s : State) (r : Resolved) (v : Byte), s.Inv → resolve m s = .ok r → s.readByte r.ea = some v →
    (∃ t w, w = BitVec.ofNat 8 (v.toNat / 2 + 128 * s.flags.c.toNat) ∧ exec (.rra m) s = .next t ∧ WroteByte s t r.ea w ∧
      t = { s with
        mem := t.mem
        a := (addC s.a w { s.flags with c := decide (v.toNat % 2 = 1) }).value
        flags := (addC s.a w { s.flags with c := decide (v.toNat % 2 = 1) }).flags
        pc := s.pc + BitVec.ofNat 16 m.len
        cyc := s.cyc + modifyCycles m }) ∧
    (∃ t, exec (.isc m) s = .next t ∧ WroteByte s t r.ea (v + 1) ∧
      t = { s with
        mem := t.mem
        a := (addC s.a (255 - (v + 1)) s.flags).value
        flags := (addC s.a (255 - (v + 1)) s.flags).flags
        pc := s.pc + BitVec.ofNat 16 m.len
        cyc := s.cyc + modifyCycles m }) ∧
    (∃ t, exec (.dcp m) s = .next t ∧ WroteByte s t r.ea (v - 1) ∧
      t = { s with
        mem := t.mem
        flags := { s.flags with c := decide ((v - 1).toNat ≤ s.a.toNat), z := decide (s.a = v - 1), n := (s.a - (v - 1)).msb }
        pc := s.pc + BitVec.ofNat 16 m.len
        cyc := s.cyc + modifyCycles m })

/-- INX, INY, DEX, DEY wrap modulo 256 and set Z and N; C and V stay (45 R206 to R209, 42 R174). -/
def Obligations.RegisterCountersComplete : Prop :=
  ∀ (s : State),
    exec .inx s = .next { s with x := s.x + 1, flags := withZN s.flags (s.x + 1), pc := s.pc + 1, cyc := s.cyc + 2 } ∧
    exec .iny s = .next { s with y := s.y + 1, flags := withZN s.flags (s.y + 1), pc := s.pc + 1, cyc := s.cyc + 2 } ∧
    exec .dex s = .next { s with x := s.x - 1, flags := withZN s.flags (s.x - 1), pc := s.pc + 1, cyc := s.cyc + 2 } ∧
    exec .dey s = .next { s with y := s.y - 1, flags := withZN s.flags (s.y - 1), pc := s.pc + 1, cyc := s.cyc + 2 }

/-- The flag instructions change their one flag, and NOP nothing, but PC and CYC (48 R260 to R267). -/
def Obligations.FlagInstructionsComplete : Prop :=
  ∀ (s : State) (i : Instr) (f : Flags),
    (i, f) ∈ [(Instr.clc, { s.flags with c := false }), (.sec, { s.flags with c := true }),
      (.cli, { s.flags with i := false }), (.sei, { s.flags with i := true }),
      (.cld, { s.flags with d := false }), (.sed, { s.flags with d := true }),
      (.clv, { s.flags with v := false }), (.nop, s.flags)] →
    exec i s = .next { s with flags := f, pc := s.pc + 1, cyc := s.cyc + 2 }

/-- The unofficial NOPs change PC and CYC alone: the immediate form skips its byte, the memory form reads its operand and is
charged a page cross (49 R289 to R291). -/
def Obligations.UnofficialNopsComplete : Prop :=
  (∀ (op v : Byte) (s : State),
    exec (.nopImplied op) s = .next { s with pc := s.pc + 1, cyc := s.cyc + 2 } ∧
    exec (.nopImmediate op v) s = .next { s with pc := s.pc + 2, cyc := s.cyc + 2 }) ∧
  (∀ (op : Byte) (m : MemOperand) (s : State) (v : Byte) (cross : Bool), loadMem m s = .ok ⟨v, cross⟩ →
    exec (.nopMemory op m) s = .next { s with pc := s.pc + BitVec.ofNat 16 m.len, cyc := s.cyc + readMemCycles m + cross.toNat })

/-- JMP: PC is the operand word, or the word at the pointer, whose high byte is read from the start of the pointer's page when
the pointer's low byte is 0xFF; nothing else changes but CYC (40 R125, R129; 47 R240). -/
def Obligations.JumpsComplete : Prop :=
  (∀ (target : Word) (s : State), exec (.jmp (.absolute target)) s = .next { s with pc := target, cyc := s.cyc + 3 }) ∧
  (∀ (ptr : Word) (s : State) (l h : Byte), s.readByte ptr = some l →
    s.readByte (BitVec.ofNat 16 (ptr.toNat / 256 * 256 + (ptr.toNat % 256 + 1) % 256)) = some h →
    exec (.jmp (.indirect ptr)) s = .next { s with pc := w16 l h, cyc := s.cyc + 5 }) ∧
  (∀ (ptr : Word) (s : State), s.readByte ptr = none →
    exec (.jmp (.indirect ptr)) s = .next { s with run := .stopped (.memoryAccess ptr .read) }) ∧
  (∀ (ptr q : Word) (s : State), q = BitVec.ofNat 16 (ptr.toNat / 256 * 256 + (ptr.toNat % 256 + 1) % 256) →
    (s.readByte ptr).isSome = true → s.readByte q = none →
    exec (.jmp (.indirect ptr)) s = .next { s with run := .stopped (.memoryAccess q .read) })

/-- The eight branches: taken, PC is the next instruction's address plus the signed offset and the cost 3, or 4 onto another
page; not taken, PC advances by 2 and the cost is 2; no flag, register or byte changes (47 R241 to R249, 70 R350). -/
def Obligations.BranchesComplete : Prop :=
  ∀ (s : State) (offset : Byte) (i : Instr) (flag on : Bool), (i, flag, on) ∈ branchTests s offset →
    (flag = on → ∃ target : Word, (target.toNat : Int) = (s.pc.toNat + 2 + signed8 offset) % 65536 ∧
      exec i s = .next { s with
        pc := target
        cyc := s.cyc + (if target.toNat / 256 = (s.pc + 2).toNat / 256 then 3 else 4) }) ∧
    (flag ≠ on → exec i s = .next { s with pc := s.pc + 2, cyc := s.cyc + 2 })

/-! ## The stack, subroutines and break -/

/-- PHA and PHP store at 0x0100 + SP and then decrement SP; PHP pushes bits 4 and 5 as 1 whatever B holds; no flag changes
(10_state.md R41, 46 R222, R224). -/
def Obligations.PushesComplete : Prop :=
  ∀ (s : State), s.Inv → s.sp ≠ 0x00 → (resolveCell s.cfg (BitVec.ofNat 16 (256 + s.sp.toNat))).isSome = true →
    ∀ i v, (i, v) ∈ [(Instr.pha, s.a), (.php, s.flags.pack true)] →
      ∃ t, exec i s = .next t ∧ WroteByte s t (BitVec.ofNat 16 (256 + s.sp.toNat)) v ∧
        t = { s with mem := t.mem, sp := s.sp - 1, pc := s.pc + 1, cyc := s.cyc + 3 }

/-- PLA and PLP increment SP and then load; PLA sets Z and N, PLP every flag, B only under PLP_LOADS_B; memory stays
(10_state.md R40, R42, 46 R223, R225). -/
def Obligations.PullsComplete : Prop :=
  ∀ (s : State) (v : Byte), s.sp ≠ 0xFF → s.readByte (BitVec.ofNat 16 (256 + s.sp.toNat + 1)) = some v →
    exec .pla s = .next { s with a := v, sp := s.sp + 1, flags := withZN s.flags v, pc := s.pc + 1, cyc := s.cyc + 4 } ∧
    exec .plp s = .next { s with
      sp := s.sp + 1
      flags := {
        c := decide (v.toNat % 2 = 1)
        z := decide (v.toNat / 2 % 2 = 1)
        i := decide (v.toNat / 4 % 2 = 1)
        d := decide (v.toNat / 8 % 2 = 1)
        b := if s.cfg.plpLoadsB then decide (v.toNat / 16 % 2 = 1) else s.flags.b
        v := decide (v.toNat / 64 % 2 = 1)
        n := decide (v.toNat / 128 % 2 = 1) }
      pc := s.pc + 1
      cyc := s.cyc + 4 }

/-- Stack exhaustion: a push with SP = 0x00 stores its byte at 0x0100 and raises StackOverflow with SP still 0x00; a pull with
SP = 0xFF raises StackEmpty and changes nothing (10_state.md R41, R42; 46 R220; 60 R305). -/
def Obligations.ExhaustedStackStopsTheRun : Prop :=
  (∀ (s : State), s.Inv → s.sp = 0x00 → (resolveCell s.cfg 0x0100).isSome = true →
    ∀ (target : Word) (i : Instr) (v : Byte),
      (i, v) ∈ [(Instr.pha, s.a), (.php, s.flags.pack true), (.jsr target, hi (s.pc + 2))] →
      ∃ t, exec i s = .next t ∧ WroteByte s t 0x0100 v ∧ t = { s with mem := t.mem, run := .stopped .stackOverflow }) ∧
  (∀ (s : State), s.sp = 0xFF → ∀ i ∈ [Instr.pla, .plp, .rts, .rti],
    exec i s = .next { s with run := .stopped .stackEmpty })

/-- Stack work that an error cuts off keeps what was done, at whichever push or pull it is cut off. PHA, PHP, JSR and BRK under
full push their bytes down to the one that fails: at an unmapped cell MemoryAccessError, at SP = 0x00 StackOverflow with that byte
stored too. PLA, PLP, RTS and RTI pull up to the one that fails, RTI with the flags set once its first pull is done: with SP = 0xFF
StackEmpty, at an unmapped cell MemoryAccessError with SP already incremented. BRK whose vector cannot be read has pushed all three
bytes and set I. Nothing else changes (10_state.md R41, R42; 46 R220, R226 to R229; 60 R302, R305, R306, R309). -/
def Obligations.UnfinishedStackWorkStays : Prop :=
  (∀ (s : State) (target : Word) (i : Instr) (bytes done rest : List Byte) (v : Byte) (a : Word), s.Inv →
    (i, bytes) ∈ [(Instr.pha, [s.a]), (.php, [s.flags.pack true]), (.jsr target, [hi (s.pc + 2), lo (s.pc + 2)]),
      (.brk, [hi (s.pc + 2), lo (s.pc + 2), s.flags.pack true])] →
    (i = .brk → s.cfg.brkEffects = .full) → bytes = done ++ v :: rest → done.length ≤ s.sp.toNat →
    (∀ k, k < done.length → (resolveCell s.cfg (BitVec.ofNat 16 (256 + s.sp.toNat - k))).isSome = true) →
    a = BitVec.ofNat 16 (256 + s.sp.toNat - done.length) →
    (resolveCell s.cfg a = none →
      ∃ u, Pushed s done u ∧ exec i s = .next { u with run := .stopped (.memoryAccess a .write) }) ∧
    ((resolveCell s.cfg a).isSome = true → done.length = s.sp.toNat →
      ∃ u t, Pushed s done u ∧ WroteByte u t a v ∧ exec i s = .next t ∧
        t = { u with mem := t.mem, run := .stopped .stackOverflow })) ∧
  (∀ (s : State) (i : Instr) (pulls : Nat) (pulled : List Byte) (f : Flags) (a : Word),
    (i, pulls) ∈ [(Instr.pla, 1), (.plp, 1), (.rts, 2), (.rti, 3)] → pulled.length < pulls →
    s.sp.toNat + pulled.length ≤ 255 →
    (∀ k, k < pulled.length → s.readByte (BitVec.ofNat 16 (257 + s.sp.toNat + k)) = pulled[k]?) →
    f = (if i = .rti then (pulled.head?.map (s.flags.unpack true)).getD s.flags else s.flags) →
    a = BitVec.ofNat 16 (257 + s.sp.toNat + pulled.length) →
    (s.sp.toNat + pulled.length = 255 →
      exec i s = .next { s with sp := 0xFF, flags := f, run := .stopped .stackEmpty }) ∧
    (s.sp.toNat + pulled.length < 255 → resolveCell s.cfg a = none →
      exec i s = .next { s with
        sp := s.sp + BitVec.ofNat 8 (pulled.length + 1), flags := f, run := .stopped (.memoryAccess a .read) })) ∧
  (∀ (s : State) (a : Word), s.Inv → s.cfg.brkEffects = .full → 3 ≤ s.sp.toNat →
    (∀ k, k < 3 → (resolveCell s.cfg (BitVec.ofNat 16 (256 + s.sp.toNat - k))).isSome = true) →
    (a = 0xFFFE ∨ (a = 0xFFFF ∧ (resolveCell s.cfg 0xFFFE).isSome = true)) → resolveCell s.cfg a = none →
    ∃ u, Pushed s [hi (s.pc + 2), lo (s.pc + 2), s.flags.pack true] u ∧
      exec .brk s = .next { u with flags := { s.flags with i := true }, run := .stopped (.memoryAccess a .read) })

/-- JSR stores the high byte of PC + 2 at the stack cell and the low byte below it, lowers SP by two and goes to the target; no
flag and no other byte changes (46 R226). -/
def Obligations.SubroutineCallCompletes : Prop :=
  ∀ (target : Word) (s : State), s.Inv → 2 ≤ s.sp.toNat →
    (resolveCell s.cfg (BitVec.ofNat 16 (256 + s.sp.toNat))).isSome = true →
    (resolveCell s.cfg (BitVec.ofNat 16 (255 + s.sp.toNat))).isSome = true →
    ∃ t u, exec (.jsr target) s = .next t ∧
      WroteByte s u (BitVec.ofNat 16 (256 + s.sp.toNat)) (hi (s.pc + 2)) ∧ u = { s with mem := u.mem } ∧
      WroteByte u t (BitVec.ofNat 16 (255 + s.sp.toNat)) (lo (s.pc + 2)) ∧
      t = { s with mem := t.mem, sp := s.sp - 2, pc := target, cyc := s.cyc + 6 }

/-- RTS pulls the low and then the high byte of the return address and goes to it plus 1; RTI pulls every flag, B too, and then
PC, without adding 1. Neither changes memory (46 R227, R229, 60 R312). -/
def Obligations.ReturnsComplete : Prop :=
  (∀ (s : State) (l h : Byte), s.sp.toNat < 254 →
    s.readByte (BitVec.ofNat 16 (257 + s.sp.toNat)) = some l → s.readByte (BitVec.ofNat 16 (258 + s.sp.toNat)) = some h →
    exec .rts s = .next { s with sp := s.sp + 2, pc := w16 l h + 1, cyc := s.cyc + 6 }) ∧
  (∀ (s : State) (p l h : Byte), s.sp.toNat < 253 →
    s.readByte (BitVec.ofNat 16 (257 + s.sp.toNat)) = some p → s.readByte (BitVec.ofNat 16 (258 + s.sp.toNat)) = some l →
    s.readByte (BitVec.ofNat 16 (259 + s.sp.toNat)) = some h →
    exec .rti s = .next { s with
      sp := s.sp + 3
      flags := { c := p.getLsbD 0, z := p.getLsbD 1, i := p.getLsbD 2, d := p.getLsbD 3, b := p.getLsbD 4, v := p.getLsbD 6, n := p.getLsbD 7 }
      pc := w16 l h
      cyc := s.cyc + 6 })

/-- BRK under full pushes PC + 2, high byte first, and the status byte with bit 4 = 1, sets I, goes to the address at 0xFFFE,
and stops with Break; CYC, B and every other register stay. It needs the three stack cells and the vector mapped, and no more. Under signal_only it stops with Break and changes nothing
(46 R228, 60 R303, R311). -/
def Obligations.BreakTakesItsEntry : Prop :=
  (∀ (s : State), s.cfg.brkEffects = .signalOnly → exec .brk s = .next { s with run := .stopped .brk }) ∧
  ∀ (s : State), s.Inv → s.cfg.brkEffects = .full → 3 ≤ s.sp.toNat →
    (resolveCell s.cfg (BitVec.ofNat 16 (256 + s.sp.toNat))).isSome = true →
    (resolveCell s.cfg (BitVec.ofNat 16 (255 + s.sp.toNat))).isSome = true →
    (resolveCell s.cfg (BitVec.ofNat 16 (254 + s.sp.toNat))).isSome = true →
    (resolveCell s.cfg 0xFFFE).isSome = true → (resolveCell s.cfg 0xFFFF).isSome = true →
    ∃ t u w l h, exec .brk s = .next t ∧
      WroteByte s u (BitVec.ofNat 16 (256 + s.sp.toNat)) (hi (s.pc + 2)) ∧ u = { s with mem := u.mem } ∧
      WroteByte u w (BitVec.ofNat 16 (255 + s.sp.toNat)) (lo (s.pc + 2)) ∧ w = { s with mem := w.mem } ∧
      WroteByte w t (BitVec.ofNat 16 (254 + s.sp.toNat)) (s.flags.pack true) ∧
      t.readByte 0xFFFE = some l ∧ t.readByte 0xFFFF = some h ∧
      t = { s with mem := t.mem, sp := s.sp - 3, flags := { s.flags with i := true }, pc := w16 l h, run := .stopped .brk }

/-- The stack is last in, first out: PHA then PLA restores A and SP, PHP then PLP restores SP and every flag but B
(10_state.md R43, 46 R225), where the stack cell is mapped. -/
def Obligations.PullUndoesPush : Prop :=
  ∀ (s : State), s.Inv → s.sp ≠ 0x00 → (resolveCell s.cfg (BitVec.ofNat 16 (256 + s.sp.toNat))).isSome = true →
    (∃ t u, exec .pha s = .next t ∧ exec .pla t = .next u ∧ u.a = s.a ∧ u.sp = s.sp ∧ u.x = s.x ∧ u.y = s.y) ∧
    (∃ t u, exec .php s = .next t ∧ exec .plp t = .next u ∧ u.sp = s.sp ∧ u.a = s.a ∧
      u.flags = { s.flags with b := if s.cfg.plpLoadsB then true else s.flags.b })

/-- JSR then RTS comes back to the byte after the JSR with SP as before (46 R226, R227), where the two stack cells are
mapped. -/
def Obligations.ReturnComesBackAfterTheCall : Prop :=
  ∀ (target : Word) (s : State), s.Inv → 2 ≤ s.sp.toNat →
    (resolveCell s.cfg (BitVec.ofNat 16 (256 + s.sp.toNat))).isSome = true →
    (resolveCell s.cfg (BitVec.ofNat 16 (255 + s.sp.toNat))).isSome = true →
    ∃ t u, exec (.jsr target) s = .next t ∧ exec .rts t = .next u ∧ u.pc = s.pc + 3 ∧ u.sp = s.sp ∧
      u.a = s.a ∧ u.x = s.x ∧ u.y = s.y ∧ u.flags = s.flags

/-! ## Construction and the host -/

/-- Construction refuses a PRG-ROM of another length than 0, 16384 or 32768 (the reason `romLength` is the model's own name, log
entry 17); else PRG-ROM cells hold PRG_ROM, under either ROM_WRITE, every RAM cell its INIT_MEM byte, reachable or not, PC is the word at 0xFFFC and every register,
flag and counter has its reset value; FailedParsingEntryPoint comes exactly when a vector byte is unmapped
(10_state.md R49, 20_memory.md R74, R80, R82, 70 R340 to R342). Construction at the defaults gives `State.reset` (log entries 6,
7); INIT_MEM as a list, and 0x00 for a cell without an entry, is log entry 18. -/
def Obligations.ConstructionSetsTheResetState : Prop :=
  construct Params.default = .ok State.reset ∧
  ∀ (p : Params),
    (p.prgRom.length ≠ 0 → p.prgRom.length ≠ 16384 → p.prgRom.length ≠ 32768 →
      construct p = .error (.romLength p.prgRom.length)) ∧
    (∀ b, romBanksOf p.prgRom.length = some b →
      (resolveCell (p.config b) 0xFFFC = none ∨ resolveCell (p.config b) 0xFFFD = none →
        construct p = .error (.failed .failedParsingEntryPoint)) ∧
      ((resolveCell (p.config b) 0xFFFC).isSome = true → (resolveCell (p.config b) 0xFFFD).isSome = true →
        ∃ s l h, construct p = .ok s ∧ s.readByte 0xFFFC = some l ∧ s.readByte 0xFFFD = some h ∧
          s = {
            a := 0, x := 0, y := 0, sp := p.spReset, pc := w16 l h
            flags := { c := false, z := false, i := true, d := false, b := false, v := false, n := false }
            cyc := p.cycleReset, run := .running, mem := s.mem, cfg := p.config b } ∧ s.Inv ∧
          (∀ k v, p.prgRom[k]? = some v → s.cellByte (.prgRom k) = v) ∧
          (∀ k, k < p.prgRamSize → s.cellByte (.prgRam k) = (p.initMem.lookup (.prgRam k)).getD 0x00) ∧
          (∀ a, resolveCell s.cfg a = some (.generalRam a) →
            s.cellByte (.generalRam a) = (p.initMem.lookup (.generalRam a)).getD 0x00)))

/-- The host's register accessors write one register; `write_mem` obeys the mapper as a store does and fails exactly on an
unmapped address, as `read_mem` does; none charges a cycle or touches SP, flags or run status (60 R320, R321). -/
def Obligations.HostAccessorsGoThroughTheMapper : Prop :=
  ∀ (s : State),
    (∀ v, (ExternalOp.setA v).apply s = .ok { s with a := v } ∧ (ExternalOp.setX v).apply s = .ok { s with x := v } ∧
      (ExternalOp.setY v).apply s = .ok { s with y := v }) ∧
    (∀ w, (ExternalOp.setPC w).apply s = .ok { s with pc := w }) ∧
    (∀ a v, s.Inv → (resolveCell s.cfg a).isSome = true →
      ∃ t, (ExternalOp.write a v).apply s = .ok t ∧ t = { s with mem := t.mem } ∧ WroteByte s t a v) ∧
    (∀ a v, resolveCell s.cfg a = none →
      (ExternalOp.write a v).apply s = .error (.memoryAccess a .write) ∧ readMem a s = .error (.memoryAccess a .read)) ∧
    (∀ a v, s.readByte a = some v → readMem a s = .ok v)
end

