-- ==== Sys2Proof/Laws/Memory.lean ====
section
/-! SUPPORT. The laws of the memory list: reading after writing, and that a write keeps the canonical form. -/

namespace Sys2Proof.Machine

@[simp] theorem Memory.get_nil (k : Nat) : Memory.get [] k = Memory.unlisted := rfl

@[simp] theorem Memory.get_cons (j k : Nat) (w : Byte) (m : Memory) :
    Memory.get ((j, w) :: m) k = if j = k then w else m.get k := rfl

theorem Memory.wf_cons (k : Nat) (v : Byte) (m : Memory) :
    Memory.wf ((k, v) :: m) = true ↔
      v ≠ Memory.unlisted ∧ (∀ c ∈ m, k < c.1) ∧ m.wf = true := by
  simp only [Memory.wf, Bool.and_eq_true, decide_eq_true_eq, bne_iff_ne, List.all_eq_true, ne_eq, and_assoc]

/-- A cell below every listed one reads as an unlisted cell. -/
theorem Memory.get_of_lt {m : Memory} {k : Nat} (h : ∀ c ∈ m, k < c.1) : m.get k = Memory.unlisted := by
  induction m with
  | nil => rfl
  | cons c m ih =>
    obtain ⟨j, w⟩ := c
    have hj : k < j := h (j, w) (by simp)
    rw [Memory.get_cons, if_neg (by omega)]
    exact ih fun c hc => h c (by simp [hc])

theorem Memory.get_consCell {m : Memory} {k : Nat} (v : Byte) (h : ∀ c ∈ m, k < c.1) (j : Nat) :
    (Memory.consCell k v m).get j = if j = k then v else m.get j := by
  unfold Memory.consCell
  by_cases hv : v = Memory.unlisted
  · by_cases hj : j = k
    · subst hj; simp [hv, Memory.get_of_lt h]
    · simp [hv, hj]
  · by_cases hj : j = k
    · simp [hv, hj]
    · simp [hv, hj, Ne.symm hj]

/-- Reading cell `j` after writing `v` at cell `k`. -/
theorem Memory.get_set {m : Memory} (hm : m.wf = true) (k : Nat) (v : Byte) (j : Nat) :
    (m.set k v).get j = if j = k then v else m.get j := by
  induction m with
  | nil => exact Memory.get_consCell v (by simp) j
  | cons c m ih =>
    obtain ⟨i, w⟩ := c
    obtain ⟨-, hlt, hwf⟩ := (Memory.wf_cons i w m).1 hm
    unfold Memory.set
    split
    · rename_i hk
      refine Memory.get_consCell v ?_ j
      intro c hc
      rcases List.mem_cons.1 hc with rfl | hc
      · exact hk
      · exact Nat.lt_trans hk (hlt c hc)
    · split
      · rename_i hik
        subst hik
        rw [Memory.get_consCell v hlt, Memory.get_cons]
        by_cases hj : j = i
        · simp [hj]
        · simp [hj, Ne.symm hj]
      · rw [Memory.get_cons, Memory.get_cons, ih hwf]
        by_cases hj : i = j
        · have : j ≠ k := by omega
          simp [hj, this]
        · simp [hj]

theorem Memory.consCell_mem {m : Memory} {k : Nat} {v : Byte} {c : Host.Cell} (h : c ∈ Memory.consCell k v m) :
    c.1 = k ∨ c ∈ m := by
  unfold Memory.consCell at h
  split at h
  · exact .inr h
  · rcases List.mem_cons.1 h with rfl | h
    · exact .inl rfl
    · exact .inr h

theorem Memory.consCell_wf {m : Memory} {k : Nat} (v : Byte) (h : ∀ c ∈ m, k < c.1)
    (hm : m.wf = true) : (Memory.consCell k v m).wf = true := by
  unfold Memory.consCell
  split
  · exact hm
  · rename_i hv
    exact (Memory.wf_cons k v m).2 ⟨hv, h, hm⟩

/-- A write lists no address but the old ones and its own. -/
theorem Memory.set_mem {m : Memory} {k : Nat} {v : Byte} {c : Host.Cell} (h : c ∈ m.set k v) : c.1 = k ∨ c ∈ m := by
  induction m with
  | nil => exact Memory.consCell_mem h
  | cons d m ih =>
    obtain ⟨i, w⟩ := d
    unfold Memory.set at h
    split at h
    · exact Memory.consCell_mem h
    · split at h
      · rcases Memory.consCell_mem h with h | h
        · exact .inl h
        · exact .inr (by simp [h])
      · rcases List.mem_cons.1 h with rfl | h
        · exact .inr (by simp)
        · rcases ih h with h | h
          · exact .inl h
          · exact .inr (by simp [h])

/-- A write keeps the canonical form. -/
theorem Memory.set_wf {m : Memory} (hm : m.wf = true) (k : Nat) (v : Byte) : (m.set k v).wf = true := by
  induction m with
  | nil => exact Memory.consCell_wf v (by simp) rfl
  | cons c m ih =>
    obtain ⟨i, w⟩ := c
    obtain ⟨hw, hlt, hwf⟩ := (Memory.wf_cons i w m).1 hm
    unfold Memory.set
    split
    · rename_i hki
      refine Memory.consCell_wf v ?_ hm
      intro c hc
      rcases List.mem_cons.1 hc with rfl | hc
      · exact hki
      · exact Nat.lt_trans hki (hlt c hc)
    · split
      · rename_i hik
        subst hik
        exact Memory.consCell_wf v hlt hwf
      · refine (Memory.wf_cons _ _ _).2 ⟨hw, ?_, ih hwf⟩
        intro c hc
        rcases Memory.set_mem hc with h | h
        · omega
        · exact hlt c h

/-- A write lists no cell but those of the mapper, if its own is one. -/
theorem Memory.set_within {c : Config} {m : Memory} (hm : m.within c = true) {k : Nat} (hk : isHome c k = true) (v : Byte) :
    (m.set k v).within c = true := by
  simp only [Memory.within, List.all_eq_true] at hm ⊢
  intro entry he
  rcases Memory.set_mem he with h | h
  · rwa [h]
  · exact hm entry h

/-- Two memories in canonical form that read alike everywhere are the same list. -/
theorem Memory.ext_of_get {m n : Memory} (hm : m.wf = true) (hn : n.wf = true) (h : ∀ k, m.get k = n.get k) : m = n := by
  induction m generalizing n with
  | nil =>
    cases n with
    | nil => rfl
    | cons c n =>
      obtain ⟨j, w⟩ := c
      have := h j
      simp only [Memory.get_nil, Memory.get_cons, if_pos] at this
      exact absurd this.symm ((Memory.wf_cons j w n).1 hn).1
  | cons c m ih =>
    obtain ⟨i, v⟩ := c
    obtain ⟨hv, hlt, hwf⟩ := (Memory.wf_cons i v m).1 hm
    cases n with
    | nil =>
      have := h i
      simp only [Memory.get_nil, Memory.get_cons, if_pos] at this
      exact absurd this hv
    | cons d n =>
      obtain ⟨j, w⟩ := d
      obtain ⟨hw, hlt', hwf'⟩ := (Memory.wf_cons j w n).1 hn
      have hij : i = j := by
        rcases Nat.lt_trichotomy i j with hlt2 | heq | hgt
        · have h1 := h i
          rw [Memory.get_cons, if_pos rfl, Memory.get_cons, if_neg (by omega),
            Memory.get_of_lt fun c hc => Nat.lt_trans hlt2 (hlt' c hc)] at h1
          exact absurd h1 hv
        · exact heq
        · have h1 := h j
          rw [Memory.get_cons, if_neg (by omega), Memory.get_cons, if_pos rfl,
            Memory.get_of_lt fun c hc => Nat.lt_trans hgt (hlt c hc)] at h1
          exact absurd h1.symm hw
      subst hij
      have hvw : v = w := by simpa using h i
      subst hvw
      congr 1
      refine ih hwf hwf' fun k => ?_
      have hk := h k
      simp only [Memory.get_cons] at hk
      split at hk
      · rename_i hik
        subst hik
        rw [Memory.get_of_lt hlt, Memory.get_of_lt hlt']
      · exact hk

end Sys2Proof.Machine
end

