-- ==== Sys2Proof/Laws/State.lean ====
section
/-! SUPPORT. One lemma per field per update of State, true by rfl, so that no proof unfolds a record update. -/

namespace Sys2Proof.Machine

variable (s : State)

/-! ### setA -/
@[simp] theorem setA_a (v : Byte) : (s.setA v).a = v := rfl
@[simp] theorem setA_x (v : Byte) : (s.setA v).x = s.x := rfl
@[simp] theorem setA_y (v : Byte) : (s.setA v).y = s.y := rfl
@[simp] theorem setA_sp (v : Byte) : (s.setA v).sp = s.sp := rfl
@[simp] theorem setA_pc (v : Byte) : (s.setA v).pc = s.pc := rfl
@[simp] theorem setA_flags (v : Byte) : (s.setA v).flags = s.flags := rfl
@[simp] theorem setA_cyc (v : Byte) : (s.setA v).cyc = s.cyc := rfl
@[simp] theorem setA_run (v : Byte) : (s.setA v).run = s.run := rfl
@[simp] theorem setA_mem (v : Byte) : (s.setA v).mem = s.mem := rfl
@[simp] theorem setA_cfg (v : Byte) : (s.setA v).cfg = s.cfg := rfl

/-! ### setX -/
@[simp] theorem setX_a (v : Byte) : (s.setX v).a = s.a := rfl
@[simp] theorem setX_x (v : Byte) : (s.setX v).x = v := rfl
@[simp] theorem setX_y (v : Byte) : (s.setX v).y = s.y := rfl
@[simp] theorem setX_sp (v : Byte) : (s.setX v).sp = s.sp := rfl
@[simp] theorem setX_pc (v : Byte) : (s.setX v).pc = s.pc := rfl
@[simp] theorem setX_flags (v : Byte) : (s.setX v).flags = s.flags := rfl
@[simp] theorem setX_cyc (v : Byte) : (s.setX v).cyc = s.cyc := rfl
@[simp] theorem setX_run (v : Byte) : (s.setX v).run = s.run := rfl
@[simp] theorem setX_mem (v : Byte) : (s.setX v).mem = s.mem := rfl
@[simp] theorem setX_cfg (v : Byte) : (s.setX v).cfg = s.cfg := rfl

/-! ### setY -/
@[simp] theorem setY_a (v : Byte) : (s.setY v).a = s.a := rfl
@[simp] theorem setY_x (v : Byte) : (s.setY v).x = s.x := rfl
@[simp] theorem setY_y (v : Byte) : (s.setY v).y = v := rfl
@[simp] theorem setY_sp (v : Byte) : (s.setY v).sp = s.sp := rfl
@[simp] theorem setY_pc (v : Byte) : (s.setY v).pc = s.pc := rfl
@[simp] theorem setY_flags (v : Byte) : (s.setY v).flags = s.flags := rfl
@[simp] theorem setY_cyc (v : Byte) : (s.setY v).cyc = s.cyc := rfl
@[simp] theorem setY_run (v : Byte) : (s.setY v).run = s.run := rfl
@[simp] theorem setY_mem (v : Byte) : (s.setY v).mem = s.mem := rfl
@[simp] theorem setY_cfg (v : Byte) : (s.setY v).cfg = s.cfg := rfl

/-! ### setSP -/
@[simp] theorem setSP_a (v : Byte) : (s.setSP v).a = s.a := rfl
@[simp] theorem setSP_x (v : Byte) : (s.setSP v).x = s.x := rfl
@[simp] theorem setSP_y (v : Byte) : (s.setSP v).y = s.y := rfl
@[simp] theorem setSP_sp (v : Byte) : (s.setSP v).sp = v := rfl
@[simp] theorem setSP_pc (v : Byte) : (s.setSP v).pc = s.pc := rfl
@[simp] theorem setSP_flags (v : Byte) : (s.setSP v).flags = s.flags := rfl
@[simp] theorem setSP_cyc (v : Byte) : (s.setSP v).cyc = s.cyc := rfl
@[simp] theorem setSP_run (v : Byte) : (s.setSP v).run = s.run := rfl
@[simp] theorem setSP_mem (v : Byte) : (s.setSP v).mem = s.mem := rfl
@[simp] theorem setSP_cfg (v : Byte) : (s.setSP v).cfg = s.cfg := rfl

/-! ### setPC -/
@[simp] theorem setPC_a (w : Word) : (s.setPC w).a = s.a := rfl
@[simp] theorem setPC_x (w : Word) : (s.setPC w).x = s.x := rfl
@[simp] theorem setPC_y (w : Word) : (s.setPC w).y = s.y := rfl
@[simp] theorem setPC_sp (w : Word) : (s.setPC w).sp = s.sp := rfl
@[simp] theorem setPC_pc (w : Word) : (s.setPC w).pc = w := rfl
@[simp] theorem setPC_flags (w : Word) : (s.setPC w).flags = s.flags := rfl
@[simp] theorem setPC_cyc (w : Word) : (s.setPC w).cyc = s.cyc := rfl
@[simp] theorem setPC_run (w : Word) : (s.setPC w).run = s.run := rfl
@[simp] theorem setPC_mem (w : Word) : (s.setPC w).mem = s.mem := rfl
@[simp] theorem setPC_cfg (w : Word) : (s.setPC w).cfg = s.cfg := rfl

/-! ### setFlags -/
@[simp] theorem setFlags_a (f : Flags) : (s.setFlags f).a = s.a := rfl
@[simp] theorem setFlags_x (f : Flags) : (s.setFlags f).x = s.x := rfl
@[simp] theorem setFlags_y (f : Flags) : (s.setFlags f).y = s.y := rfl
@[simp] theorem setFlags_sp (f : Flags) : (s.setFlags f).sp = s.sp := rfl
@[simp] theorem setFlags_pc (f : Flags) : (s.setFlags f).pc = s.pc := rfl
@[simp] theorem setFlags_flags (f : Flags) : (s.setFlags f).flags = f := rfl
@[simp] theorem setFlags_cyc (f : Flags) : (s.setFlags f).cyc = s.cyc := rfl
@[simp] theorem setFlags_run (f : Flags) : (s.setFlags f).run = s.run := rfl
@[simp] theorem setFlags_mem (f : Flags) : (s.setFlags f).mem = s.mem := rfl
@[simp] theorem setFlags_cfg (f : Flags) : (s.setFlags f).cfg = s.cfg := rfl

/-! ### setRun -/
@[simp] theorem setRun_a (r : RunStatus) : (s.setRun r).a = s.a := rfl
@[simp] theorem setRun_x (r : RunStatus) : (s.setRun r).x = s.x := rfl
@[simp] theorem setRun_y (r : RunStatus) : (s.setRun r).y = s.y := rfl
@[simp] theorem setRun_sp (r : RunStatus) : (s.setRun r).sp = s.sp := rfl
@[simp] theorem setRun_pc (r : RunStatus) : (s.setRun r).pc = s.pc := rfl
@[simp] theorem setRun_flags (r : RunStatus) : (s.setRun r).flags = s.flags := rfl
@[simp] theorem setRun_cyc (r : RunStatus) : (s.setRun r).cyc = s.cyc := rfl
@[simp] theorem setRun_run (r : RunStatus) : (s.setRun r).run = r := rfl
@[simp] theorem setRun_mem (r : RunStatus) : (s.setRun r).mem = s.mem := rfl
@[simp] theorem setRun_cfg (r : RunStatus) : (s.setRun r).cfg = s.cfg := rfl

/-! ### setMem -/
@[simp] theorem setMem_a (m : Memory) : (s.setMem m).a = s.a := rfl
@[simp] theorem setMem_x (m : Memory) : (s.setMem m).x = s.x := rfl
@[simp] theorem setMem_y (m : Memory) : (s.setMem m).y = s.y := rfl
@[simp] theorem setMem_sp (m : Memory) : (s.setMem m).sp = s.sp := rfl
@[simp] theorem setMem_pc (m : Memory) : (s.setMem m).pc = s.pc := rfl
@[simp] theorem setMem_flags (m : Memory) : (s.setMem m).flags = s.flags := rfl
@[simp] theorem setMem_cyc (m : Memory) : (s.setMem m).cyc = s.cyc := rfl
@[simp] theorem setMem_run (m : Memory) : (s.setMem m).run = s.run := rfl
@[simp] theorem setMem_mem (m : Memory) : (s.setMem m).mem = m := rfl
@[simp] theorem setMem_cfg (m : Memory) : (s.setMem m).cfg = s.cfg := rfl

/-! ### setCell -/
@[simp] theorem setCell_a (cell : StorageCell) (v : Byte) : (s.setCell cell v).a = s.a := rfl
@[simp] theorem setCell_x (cell : StorageCell) (v : Byte) : (s.setCell cell v).x = s.x := rfl
@[simp] theorem setCell_y (cell : StorageCell) (v : Byte) : (s.setCell cell v).y = s.y := rfl
@[simp] theorem setCell_sp (cell : StorageCell) (v : Byte) : (s.setCell cell v).sp = s.sp := rfl
@[simp] theorem setCell_pc (cell : StorageCell) (v : Byte) : (s.setCell cell v).pc = s.pc := rfl
@[simp] theorem setCell_flags (cell : StorageCell) (v : Byte) : (s.setCell cell v).flags = s.flags := rfl
@[simp] theorem setCell_cyc (cell : StorageCell) (v : Byte) : (s.setCell cell v).cyc = s.cyc := rfl
@[simp] theorem setCell_run (cell : StorageCell) (v : Byte) : (s.setCell cell v).run = s.run := rfl
@[simp] theorem setCell_cfg (cell : StorageCell) (v : Byte) : (s.setCell cell v).cfg = s.cfg := rfl
@[simp] theorem setCell_mem (cell : StorageCell) (v : Byte) : (s.setCell cell v).mem = s.mem.set cell.home v := rfl

/-! ### addCyc -/
@[simp] theorem addCyc_a (n : Nat) : (s.addCyc n).a = s.a := rfl
@[simp] theorem addCyc_x (n : Nat) : (s.addCyc n).x = s.x := rfl
@[simp] theorem addCyc_y (n : Nat) : (s.addCyc n).y = s.y := rfl
@[simp] theorem addCyc_sp (n : Nat) : (s.addCyc n).sp = s.sp := rfl
@[simp] theorem addCyc_pc (n : Nat) : (s.addCyc n).pc = s.pc := rfl
@[simp] theorem addCyc_flags (n : Nat) : (s.addCyc n).flags = s.flags := rfl
@[simp] theorem addCyc_cyc (n : Nat) : (s.addCyc n).cyc = s.cyc + n := rfl
@[simp] theorem addCyc_run (n : Nat) : (s.addCyc n).run = s.run := rfl
@[simp] theorem addCyc_mem (n : Nat) : (s.addCyc n).mem = s.mem := rfl
@[simp] theorem addCyc_cfg (n : Nat) : (s.addCyc n).cfg = s.cfg := rfl

/-! ### setZN -/
@[simp] theorem setZN_a (v : Byte) : (s.setZN v).a = s.a := rfl
@[simp] theorem setZN_x (v : Byte) : (s.setZN v).x = s.x := rfl
@[simp] theorem setZN_y (v : Byte) : (s.setZN v).y = s.y := rfl
@[simp] theorem setZN_sp (v : Byte) : (s.setZN v).sp = s.sp := rfl
@[simp] theorem setZN_pc (v : Byte) : (s.setZN v).pc = s.pc := rfl
@[simp] theorem setZN_flags (v : Byte) : (s.setZN v).flags = s.flags.setZN v := rfl
@[simp] theorem setZN_cyc (v : Byte) : (s.setZN v).cyc = s.cyc := rfl
@[simp] theorem setZN_run (v : Byte) : (s.setZN v).run = s.run := rfl
@[simp] theorem setZN_mem (v : Byte) : (s.setZN v).mem = s.mem := rfl
@[simp] theorem setZN_cfg (v : Byte) : (s.setZN v).cfg = s.cfg := rfl

/-! ### advance -/
@[simp] theorem advance_a (l k : Nat) : (s.advance l k).a = s.a := rfl
@[simp] theorem advance_x (l k : Nat) : (s.advance l k).x = s.x := rfl
@[simp] theorem advance_y (l k : Nat) : (s.advance l k).y = s.y := rfl
@[simp] theorem advance_sp (l k : Nat) : (s.advance l k).sp = s.sp := rfl
@[simp] theorem advance_pc (l k : Nat) : (s.advance l k).pc = s.pc + BitVec.ofNat 16 l := rfl
@[simp] theorem advance_flags (l k : Nat) : (s.advance l k).flags = s.flags := rfl
@[simp] theorem advance_cyc (l k : Nat) : (s.advance l k).cyc = s.cyc + k := rfl
@[simp] theorem advance_run (l k : Nat) : (s.advance l k).run = s.run := rfl
@[simp] theorem advance_mem (l k : Nat) : (s.advance l k).mem = s.mem := rfl
@[simp] theorem advance_cfg (l k : Nat) : (s.advance l k).cfg = s.cfg := rfl

/-! ### jumpTo -/
@[simp] theorem jumpTo_a (w : Word) (k : Nat) : (s.jumpTo w k).a = s.a := rfl
@[simp] theorem jumpTo_x (w : Word) (k : Nat) : (s.jumpTo w k).x = s.x := rfl
@[simp] theorem jumpTo_y (w : Word) (k : Nat) : (s.jumpTo w k).y = s.y := rfl
@[simp] theorem jumpTo_sp (w : Word) (k : Nat) : (s.jumpTo w k).sp = s.sp := rfl
@[simp] theorem jumpTo_pc (w : Word) (k : Nat) : (s.jumpTo w k).pc = w := rfl
@[simp] theorem jumpTo_flags (w : Word) (k : Nat) : (s.jumpTo w k).flags = s.flags := rfl
@[simp] theorem jumpTo_cyc (w : Word) (k : Nat) : (s.jumpTo w k).cyc = s.cyc + k := rfl
@[simp] theorem jumpTo_run (w : Word) (k : Nat) : (s.jumpTo w k).run = s.run := rfl
@[simp] theorem jumpTo_mem (w : Word) (k : Nat) : (s.jumpTo w k).mem = s.mem := rfl
@[simp] theorem jumpTo_cfg (w : Word) (k : Nat) : (s.jumpTo w k).cfg = s.cfg := rfl

/-! ### adc -/
@[simp] theorem adc_a (m : Byte) : (s.adc m).a = (addC s.a m s.flags).value := rfl
@[simp] theorem adc_x (m : Byte) : (s.adc m).x = s.x := rfl
@[simp] theorem adc_y (m : Byte) : (s.adc m).y = s.y := rfl
@[simp] theorem adc_sp (m : Byte) : (s.adc m).sp = s.sp := rfl
@[simp] theorem adc_pc (m : Byte) : (s.adc m).pc = s.pc := rfl
@[simp] theorem adc_flags (m : Byte) : (s.adc m).flags = (addC s.a m s.flags).flags := rfl
@[simp] theorem adc_cyc (m : Byte) : (s.adc m).cyc = s.cyc := rfl
@[simp] theorem adc_run (m : Byte) : (s.adc m).run = s.run := rfl
@[simp] theorem adc_mem (m : Byte) : (s.adc m).mem = s.mem := rfl
@[simp] theorem adc_cfg (m : Byte) : (s.adc m).cfg = s.cfg := rfl

/-! ### sbc -/
@[simp] theorem sbc_a (m : Byte) : (s.sbc m).a = (addC s.a (~~~m) s.flags).value := rfl
@[simp] theorem sbc_x (m : Byte) : (s.sbc m).x = s.x := rfl
@[simp] theorem sbc_y (m : Byte) : (s.sbc m).y = s.y := rfl
@[simp] theorem sbc_sp (m : Byte) : (s.sbc m).sp = s.sp := rfl
@[simp] theorem sbc_pc (m : Byte) : (s.sbc m).pc = s.pc := rfl
@[simp] theorem sbc_flags (m : Byte) : (s.sbc m).flags = (addC s.a (~~~m) s.flags).flags := rfl
@[simp] theorem sbc_cyc (m : Byte) : (s.sbc m).cyc = s.cyc := rfl
@[simp] theorem sbc_run (m : Byte) : (s.sbc m).run = s.run := rfl
@[simp] theorem sbc_mem (m : Byte) : (s.sbc m).mem = s.mem := rfl
@[simp] theorem sbc_cfg (m : Byte) : (s.sbc m).cfg = s.cfg := rfl

/-! ### compare -/
@[simp] theorem compare_a (r m : Byte) : (s.compare r m).a = s.a := rfl
@[simp] theorem compare_x (r m : Byte) : (s.compare r m).x = s.x := rfl
@[simp] theorem compare_y (r m : Byte) : (s.compare r m).y = s.y := rfl
@[simp] theorem compare_sp (r m : Byte) : (s.compare r m).sp = s.sp := rfl
@[simp] theorem compare_pc (r m : Byte) : (s.compare r m).pc = s.pc := rfl
@[simp] theorem compare_flags (r m : Byte) : (s.compare r m).flags = s.flags.compare r m := rfl
@[simp] theorem compare_cyc (r m : Byte) : (s.compare r m).cyc = s.cyc := rfl
@[simp] theorem compare_run (r m : Byte) : (s.compare r m).run = s.run := rfl
@[simp] theorem compare_mem (r m : Byte) : (s.compare r m).mem = s.mem := rfl
@[simp] theorem compare_cfg (r m : Byte) : (s.compare r m).cfg = s.cfg := rfl

/-! ### loadA -/
@[simp] theorem loadA_a (v : Byte) : (s.loadA v).a = v := rfl
@[simp] theorem loadA_x (v : Byte) : (s.loadA v).x = s.x := rfl
@[simp] theorem loadA_y (v : Byte) : (s.loadA v).y = s.y := rfl
@[simp] theorem loadA_sp (v : Byte) : (s.loadA v).sp = s.sp := rfl
@[simp] theorem loadA_pc (v : Byte) : (s.loadA v).pc = s.pc := rfl
@[simp] theorem loadA_flags (v : Byte) : (s.loadA v).flags = s.flags.setZN v := rfl
@[simp] theorem loadA_cyc (v : Byte) : (s.loadA v).cyc = s.cyc := rfl
@[simp] theorem loadA_run (v : Byte) : (s.loadA v).run = s.run := rfl
@[simp] theorem loadA_mem (v : Byte) : (s.loadA v).mem = s.mem := rfl
@[simp] theorem loadA_cfg (v : Byte) : (s.loadA v).cfg = s.cfg := rfl

/-! ### loadX -/
@[simp] theorem loadX_a (v : Byte) : (s.loadX v).a = s.a := rfl
@[simp] theorem loadX_x (v : Byte) : (s.loadX v).x = v := rfl
@[simp] theorem loadX_y (v : Byte) : (s.loadX v).y = s.y := rfl
@[simp] theorem loadX_sp (v : Byte) : (s.loadX v).sp = s.sp := rfl
@[simp] theorem loadX_pc (v : Byte) : (s.loadX v).pc = s.pc := rfl
@[simp] theorem loadX_flags (v : Byte) : (s.loadX v).flags = s.flags.setZN v := rfl
@[simp] theorem loadX_cyc (v : Byte) : (s.loadX v).cyc = s.cyc := rfl
@[simp] theorem loadX_run (v : Byte) : (s.loadX v).run = s.run := rfl
@[simp] theorem loadX_mem (v : Byte) : (s.loadX v).mem = s.mem := rfl
@[simp] theorem loadX_cfg (v : Byte) : (s.loadX v).cfg = s.cfg := rfl

/-! ### loadY -/
@[simp] theorem loadY_a (v : Byte) : (s.loadY v).a = s.a := rfl
@[simp] theorem loadY_x (v : Byte) : (s.loadY v).x = s.x := rfl
@[simp] theorem loadY_y (v : Byte) : (s.loadY v).y = v := rfl
@[simp] theorem loadY_sp (v : Byte) : (s.loadY v).sp = s.sp := rfl
@[simp] theorem loadY_pc (v : Byte) : (s.loadY v).pc = s.pc := rfl
@[simp] theorem loadY_flags (v : Byte) : (s.loadY v).flags = s.flags.setZN v := rfl
@[simp] theorem loadY_cyc (v : Byte) : (s.loadY v).cyc = s.cyc := rfl
@[simp] theorem loadY_run (v : Byte) : (s.loadY v).run = s.run := rfl
@[simp] theorem loadY_mem (v : Byte) : (s.loadY v).mem = s.mem := rfl
@[simp] theorem loadY_cfg (v : Byte) : (s.loadY v).cfg = s.cfg := rfl

/-! ### setZN on flags -/
@[simp] theorem Flags.setZN_c (f : Flags) (v : Byte) : (f.setZN v).c = f.c := rfl
@[simp] theorem Flags.setZN_z (f : Flags) (v : Byte) : (f.setZN v).z = (v == 0) := rfl
@[simp] theorem Flags.setZN_i (f : Flags) (v : Byte) : (f.setZN v).i = f.i := rfl
@[simp] theorem Flags.setZN_d (f : Flags) (v : Byte) : (f.setZN v).d = f.d := rfl
@[simp] theorem Flags.setZN_b (f : Flags) (v : Byte) : (f.setZN v).b = f.b := rfl
@[simp] theorem Flags.setZN_v (f : Flags) (v : Byte) : (f.setZN v).v = f.v := rfl
@[simp] theorem Flags.setZN_n (f : Flags) (v : Byte) : (f.setZN v).n = v.msb := rfl

end Sys2Proof.Machine
end

