-- ==== Sys2Proof/Laws/Mapper.lean ====
section
/-! SUPPORT. The laws of the mapper: cells have homes of their own, and what a read finds after a write. -/

namespace Sys2Proof.Machine

/-- What a cell an address resolves to is, and where its home lies. -/
theorem resolveCell_cases {c : Config} {a : Word} {cell : StorageCell} (h : resolveCell c a = some cell) :
    (inRomWindow c a = true ∧ cell = .prgRom ((a.toNat - 0x8000) % romBytes c.romBanks)) ∨
    (inRomWindow c a = false ∧ inPrgRamWindow c a = true ∧ cell = .prgRam ((a.toNat - 0x6000) % c.prgRamSize)) ∨
    (inRomWindow c a = false ∧ inPrgRamWindow c a = false ∧ inGeneralRam c a = true ∧ cell = .generalRam a) := by
  unfold resolveCell at h
  split at h
  · exact .inl ⟨‹_›, (Option.some.inj h).symm⟩
  · split at h
    · exact .inr (.inl ⟨by simpa using ‹¬ inRomWindow c a = true›, ‹_›, (Option.some.inj h).symm⟩)
    · split at h
      · exact .inr (.inr ⟨by simpa using ‹¬ inRomWindow c a = true›, by simpa using ‹¬ inPrgRamWindow c a = true›, ‹_›,
          (Option.some.inj h).symm⟩)
      · cases h

theorem romBytes_le (b : RomBanks) : romBytes b ≤ 0x8000 := by cases b <;> decide

/-- A cell an address resolves to is one the mapper has (20_memory.md R73, R74), and is reached: a PRG-RAM cell below 8192. -/
theorem resolveCell_exists {c : Config} {a : Word} {cell : StorageCell} (h : resolveCell c a = some cell) :
    cellExists c cell = true ∧ ∀ k, cell = .prgRam k → k < 0x2000 := by
  rcases resolveCell_cases h with ⟨hw, rfl⟩ | ⟨-, hw, rfl⟩ | ⟨hr, hp, hg, rfl⟩
  · simp only [inRomWindow, Bool.and_eq_true, decide_eq_true_eq] at hw
    exact ⟨decide_eq_true (Nat.mod_lt _ hw.2), fun k h => nomatch h⟩
  · simp only [inPrgRamWindow, Bool.and_eq_true, decide_eq_true_eq] at hw
    refine ⟨decide_eq_true (Nat.mod_lt _ hw.2), fun k h => ?_⟩
    have := Nat.mod_le (a.toNat - 0x6000) c.prgRamSize
    rw [← StorageCell.prgRam.inj h]
    omega
  · exact ⟨by simp [cellExists, hr, hp, hg], fun k h => nomatch h⟩

/-- Every general-RAM cell is reached, by its own address alone; in GENERAL_RAM outside the windows (R78). -/
theorem cellExists_generalRam {c : Config} {a : Word} :
    cellExists c (.generalRam a) = true ↔ resolveCell c a = some (.generalRam a) := by
  constructor
  · intro h
    simp only [cellExists, Bool.and_eq_true, Bool.not_eq_true'] at h
    simp [resolveCell, h.1.1, h.1.2, h.2]
  · exact fun h => (resolveCell_exists h).1

/-- Cells the mapper has are told apart by their homes: no two of them are listed at one place (20_memory.md R73, R74). -/
theorem home_inj {c : Config} {p q : StorageCell} (hp : cellExists c p = true) (hq : cellExists c q = true)
    (h : p.home = q.home) : p = q := by
  have hb := romBytes_le c.romBanks
  cases p <;> cases q <;>
    simp only [cellExists, inRomWindow, inPrgRamWindow, Bool.and_eq_true, Bool.not_eq_true', Bool.and_eq_false_iff,
      decide_eq_true_eq, decide_eq_false_iff_not, StorageCell.home] at hp hq h
  case generalRam.generalRam a b => exact congrArg _ (BitVec.eq_of_toNat_eq h)
  case generalRam.prgRam a k => have := a.isLt; split at h <;> omega
  case generalRam.prgRom a k => have := a.isLt; omega
  case prgRam.generalRam k a => have := a.isLt; split at h <;> omega
  case prgRam.prgRam j k => exact congrArg _ (by split at h <;> split at h <;> omega)
  case prgRam.prgRom j k => split at h <;> omega
  case prgRom.generalRam k a => have := a.isLt; omega
  case prgRom.prgRam j k => split at h <;> omega
  case prgRom.prgRom j k => exact congrArg _ (by omega)

/-- The home of a cell the mapper has is one of its homes. -/
theorem isHome_home {c : Config} {cell : StorageCell} (h : cellExists c cell = true) : isHome c cell.home = true := by
  simp only [isHome, List.any_cons, List.any_nil, Bool.or_false, Bool.or_eq_true, Bool.and_eq_true, decide_eq_true_eq]
  cases cell with
  | generalRam a => exact .inl ⟨by simpa [StorageCell.home] using h, by simp [StorageCell.home]⟩
  | prgRam k =>
    by_cases hk : k < 0x2000
    · exact .inr (.inl ⟨by simpa [StorageCell.home, hk] using h, by simp [StorageCell.home, hk]⟩)
    · refine .inr (.inr (.inl ⟨by simpa [StorageCell.home, hk] using h, by simp [StorageCell.home, hk]⟩))
  | prgRom k => exact .inr (.inr (.inr ⟨by simpa [StorageCell.home] using h, by simp [StorageCell.home]⟩))

/-- The byte of cell `q` after `v` was put in cell `p`. -/
theorem cellByte_setCell {s : State} (hs : s.mem.wf = true) {p q : StorageCell} (hp : cellExists s.cfg p = true)
    (hq : cellExists s.cfg q = true) (v : Byte) : (s.setCell p v).cellByte q = if q = p then v else s.cellByte q := by
  simp only [State.cellByte, State.setCell, setMem_mem, Memory.get_set hs]
  by_cases h : q = p
  · simp [h]
  · rw [if_neg fun hh => h (home_inj hq hp hh), if_neg h]

/-! ### Reading and writing a byte -/

theorem readByte_eq {s : State} {a : Word} {cell : StorageCell} (h : resolveCell s.cfg a = some cell) :
    s.readByte a = some (s.cellByte cell) := by simp [State.readByte, h]

theorem readByte_isSome (s : State) (a : Word) : (s.readByte a).isSome = (resolveCell s.cfg a).isSome := by
  simp [State.readByte]

theorem writeByte_isSome (s : State) (a : Word) (v : Byte) : (s.writeByte a v).isSome = (resolveCell s.cfg a).isSome := by
  simp [State.writeByte]

/-- Everything a write does: one cell, or nothing in PRG-ROM that ignores writes (20_memory.md R72, R79, R83). -/
theorem writeByte_spec {s t : State} {a : Word} {v : Byte} (h : s.writeByte a v = some t) :
    ∃ cell, resolveCell s.cfg a = some cell ∧
      t = if writable s.cfg cell then s.setCell cell v else s := by
  unfold State.writeByte at h
  cases hc : resolveCell s.cfg a with
  | none => simp [hc] at h
  | some cell =>
    simp only [hc, Option.map_some, Option.some.injEq] at h
    exact ⟨cell, rfl, h.symm⟩

/-- A write at `a` is stored: the cell of `a` takes writes. -/
def Stored (c : Config) (a : Word) : Prop := ∃ cell, resolveCell c a = some cell ∧ writable c cell = true

/-- Reading address `b` after a stored write at address `a`: the new byte where both resolve to one cell, the old byte
elsewhere (20_memory.md R81, R83). -/
theorem writeByte_readByte {s t : State} (hs : s.mem.wf = true) {a : Word} {v : Byte} (h : s.writeByte a v = some t)
    (hw : Stored s.cfg a) (b : Word) :
    t.readByte b = if resolveCell s.cfg b = resolveCell s.cfg a then some v else s.readByte b := by
  obtain ⟨cell, hc, rfl⟩ := writeByte_spec h
  obtain ⟨cell', hc', hw⟩ := hw
  obtain rfl : cell = cell' := Option.some.inj (hc.symm.trans hc')
  rw [if_pos hw, hc]
  cases hb : resolveCell s.cfg b with
  | none => simp [State.readByte, State.setCell, hb]
  | some q =>
    have hq : (s.setCell cell v).readByte b = some ((s.setCell cell v).cellByte q) := by simp [State.readByte, State.setCell, hb]
    rw [hq, cellByte_setCell hs (resolveCell_exists hc).1 (resolveCell_exists hb).1, readByte_eq hb]
    by_cases hqc : q = cell <;> simp [hqc]

/-- A write that is not stored changes nothing. -/
theorem writeByte_ignored {s t : State} {a : Word} {v : Byte} (h : s.writeByte a v = some t)
    (hw : ¬ Stored s.cfg a) : t = s := by
  obtain ⟨cell, hc, rfl⟩ := writeByte_spec h
  have : writable s.cfg cell = false := by
    cases hwr : writable s.cfg cell with
    | false => rfl
    | true => exact absurd ⟨cell, hc, hwr⟩ hw
  simp [this]

/-- An address whose cell is not the written one reads as before, stored or not. -/
theorem writeByte_frame {s t : State} (hs : s.mem.wf = true) {a b : Word} {v : Byte} (h : s.writeByte a v = some t)
    (hb : resolveCell s.cfg b ≠ resolveCell s.cfg a) : t.readByte b = s.readByte b := by
  by_cases hw : Stored s.cfg a
  · rw [writeByte_readByte hs h hw, if_neg hb]
  · rw [writeByte_ignored h hw]

/-- A cell that no address resolves to is changed by no write. -/
theorem writeByte_cellByte {s t : State} (hs : s.mem.wf = true) {a : Word} {v : Byte} (h : s.writeByte a v = some t)
    {q : StorageCell} (hq : cellExists s.cfg q = true) (ha : resolveCell s.cfg a ≠ some q) : t.cellByte q = s.cellByte q := by
  obtain ⟨cell, hc, rfl⟩ := writeByte_spec h
  split
  · rw [cellByte_setCell hs (resolveCell_exists hc).1 hq, if_neg fun hh => ha (by rw [hh, hc])]
  · rfl

/-- A write keeps the canonical form. -/
theorem writeByte_wf {s t : State} (hs : s.mem.wf = true) {a : Word} {v : Byte} (h : s.writeByte a v = some t) :
    t.mem.wf = true := by
  obtain ⟨cell, -, rfl⟩ := writeByte_spec h
  split
  · exact Memory.set_wf hs _ v
  · exact hs

/-- A write lists only cells the mapper has. -/
theorem writeByte_within {s t : State} (hs : s.mem.within s.cfg = true) {a : Word} {v : Byte} (h : s.writeByte a v = some t) :
    t.mem.within t.cfg = true := by
  obtain ⟨cell, hc, rfl⟩ := writeByte_spec h
  split
  · exact Memory.set_within hs (isHome_home (resolveCell_exists hc).1) v
  · exact hs

theorem placeByte_wf {s : State} (hs : s.mem.wf = true) (a : Word) (v : Byte) : (s.placeByte a v).mem.wf = true := by
  unfold State.placeByte
  split
  · exact Memory.set_wf hs _ v
  · exact hs

theorem placeByte_within {s : State} (hs : s.mem.within s.cfg = true) (a : Word) (v : Byte) :
    (s.placeByte a v).mem.within (s.placeByte a v).cfg = true := by
  unfold State.placeByte
  split
  · exact Memory.set_within hs (isHome_home (resolveCell_exists ‹_›).1) v
  · exact hs

/-- A cell's byte is about memory alone. -/
theorem cellByte_congr {s t : State} (hm : t.mem = s.mem) (cell : StorageCell) : t.cellByte cell = s.cellByte cell := by
  simp [State.cellByte, hm]

/-- A read is about configuration and memory alone. -/
theorem readByte_congr {s t : State} (hc : t.cfg = s.cfg) (hm : t.mem = s.mem) (a : Word) : t.readByte a = s.readByte a := by
  rw [State.readByte, State.readByte, hc, funext (cellByte_congr hm)]

/-- The written state differs in memory alone. -/
theorem writeByte_eq {s t : State} {a : Word} {v : Byte} (h : s.writeByte a v = some t) : t = s.setMem t.mem := by
  obtain ⟨cell, -, rfl⟩ := writeByte_spec h
  split <;> rfl

end Sys2Proof.Machine
end

