-- ==== Sys2Proof/Laws/Ops.lean ====
section
/-! SUPPORT. What each shared operation can do, said once: the accesses, the stack, the errors. -/

namespace Sys2Proof.Machine

/-! ### Sequencing -/

@[simp] theorem Res.bind_ok {α β : Type} (v : α) (k : α → Res β) : (Res.ok v).bind k = k v := rfl

@[simp] theorem Res.bind_err {α β : Type} (e : StepError) (s : State) (k : α → Res β) : (Res.err e s : Res α).bind k = .err e s := rfl

theorem Res.bind_eq_ok {α β : Type} {r : Res α} {k : α → Res β} {b : β} (h : r.bind k = .ok b) :
    ∃ a, r = .ok a ∧ k a = .ok b := by
  cases r with
  | ok a => exact ⟨a, rfl, h⟩
  | err e s => cases h

theorem Res.bind_eq_err {α β : Type} {r : Res α} {k : α → Res β} {e : StepError} {s : State} (h : r.bind k = .err e s) :
    r = .err e s ∨ ∃ a, r = .ok a ∧ k a = .err e s := by
  cases r with
  | ok a => exact .inr ⟨a, rfl, h⟩
  | err e' s' => cases h; exact .inl rfl

@[simp] theorem finish_ok (s : State) : finish (.ok s) = .next s := rfl

@[simp] theorem finish_err (e : StepError) (s : State) : finish (.err e s) = raise e s := rfl

/-- A finished step always has a next state. -/
theorem finish_eq_next {r : Res State} {t : State} (h : finish r = .next t) :
    r = .ok t ∨ ∃ e s, r = .err e s ∧ t = s.setRun (.stopped e) := by
  cases r with
  | ok s => cases h; exact .inl rfl
  | err e s => cases h; exact .inr ⟨e, s, rfl, rfl⟩

/-! ### Memory accesses -/

theorem memRead_ok {a : Word} {s : State} {v : Byte} : memRead a s = .ok v ↔ s.readByte a = some v := by
  unfold memRead
  cases s.readByte a <;> simp

theorem memRead_err {a : Word} {s t : State} {e : StepError} :
    memRead a s = .err e t ↔ s.readByte a = none ∧ e = .memoryAccess a .read ∧ t = s := by
  unfold memRead
  cases s.readByte a <;> simp [eq_comm]

theorem memWrite_ok {a : Word} {v : Byte} {s t : State} : memWrite a v s = .ok t ↔ s.writeByte a v = some t := by
  unfold memWrite
  cases s.writeByte a v <;> simp

theorem memWrite_err {a : Word} {v : Byte} {s t : State} {e : StepError} :
    memWrite a v s = .err e t ↔ s.writeByte a v = none ∧ e = .memoryAccess a .write ∧ t = s := by
  unfold memWrite
  cases s.writeByte a v <;> simp [eq_comm]

theorem readPair_ok {la ha : Word} {s : State} {w : Word} (h : readPair la ha s = .ok w) :
    ∃ l h', s.readByte la = some l ∧ s.readByte ha = some h' ∧ w = w16 l h' := by
  obtain ⟨l, h1, h2⟩ := Res.bind_eq_ok h
  obtain ⟨h', h3, h4⟩ := Res.bind_eq_ok h2
  cases h4
  exact ⟨l, h', memRead_ok.1 h1, memRead_ok.1 h3, rfl⟩

theorem readPair_of {la ha : Word} {s : State} {l h : Byte} (h1 : s.readByte la = some l) (h2 : s.readByte ha = some h) :
    readPair la ha s = .ok (w16 l h) := by
  simp [readPair, memRead_ok.2 h1, memRead_ok.2 h2]

/-- A failed pair of reads changes nothing and reports one of the two addresses, the low byte's first. -/
theorem readPair_err {la ha : Word} {s t : State} {e : StepError} (h : readPair la ha s = .err e t) :
    t = s ∧ ((s.readByte la = none ∧ e = .memoryAccess la .read) ∨
      ((s.readByte la).isSome = true ∧ s.readByte ha = none ∧ e = .memoryAccess ha .read)) := by
  rcases Res.bind_eq_err h with h | ⟨l, h1, h2⟩
  · obtain ⟨h1, h2, h3⟩ := memRead_err.1 h
    exact ⟨h3, .inl ⟨h1, h2⟩⟩
  · rcases Res.bind_eq_err h2 with h | ⟨v, -, h3⟩
    · obtain ⟨h3, h4, h5⟩ := memRead_err.1 h
      exact ⟨h5, .inr ⟨by simp [memRead_ok.1 h1], h3, h4⟩⟩
    · cases h3

/-! ### The stack -/

/-- A push that succeeds: the byte is written at the stack cell and SP goes down by one. -/
theorem push_ok {v : Byte} {s t : State} (h : push v s = .ok t) :
    ∃ u, s.writeByte (stackAddr s.sp) v = some u ∧ s.sp ≠ 0x00 ∧ t = u.setSP (s.sp - 1) := by
  obtain ⟨u, h1, h2⟩ := Res.bind_eq_ok h
  have hu := writeByte_eq (memWrite_ok.1 h1)
  have hsp : u.sp = s.sp := by rw [hu]; rfl
  split at h2
  · cases h2
  · cases h2
    exact ⟨u, memWrite_ok.1 h1, by rwa [hsp] at *, by rw [hsp]⟩

/-- A push that fails: its cell is unmapped, or SP is 0x00 and the byte is stored first. -/
theorem push_err {v : Byte} {s t : State} {e : StepError} (h : push v s = .err e t) :
    (e = .memoryAccess (stackAddr s.sp) .write ∧ t = s) ∨
    (e = .stackOverflow ∧ s.sp = 0x00 ∧ s.writeByte (stackAddr s.sp) v = some t) := by
  rcases Res.bind_eq_err h with h | ⟨u, h1, h2⟩
  · obtain ⟨-, h2, h3⟩ := memWrite_err.1 h
    exact .inl ⟨h2, h3⟩
  · have hu := writeByte_eq (memWrite_ok.1 h1)
    have hsp : u.sp = s.sp := by rw [hu]; rfl
    split at h2
    · cases h2
      exact .inr ⟨rfl, by rwa [hsp] at *, memWrite_ok.1 h1⟩
    · cases h2

theorem push_of {v : Byte} {s u : State} (h : s.writeByte (stackAddr s.sp) v = some u) (hsp : s.sp ≠ 0x00) :
    push v s = .ok (u.setSP (s.sp - 1)) := by
  have hu : u.sp = s.sp := by rw [writeByte_eq h]; rfl
  unfold push
  rw [memWrite_ok.2 h, Res.bind_ok, if_neg (by rwa [hu]), hu]

theorem push_overflow {v : Byte} {s u : State} (h : s.writeByte (stackAddr s.sp) v = some u) (hsp : s.sp = 0x00) :
    push v s = .err .stackOverflow u := by
  have hu : u.sp = s.sp := by rw [writeByte_eq h]; rfl
  unfold push
  rw [memWrite_ok.2 h, Res.bind_ok, if_pos (by rwa [hu])]

/-- A pull that succeeds: SP goes up by one and the byte there is read; nothing else changes. -/
theorem pull_ok {s : State} {p : Pulled} (h : pull s = .ok p) :
    s.sp ≠ 0xFF ∧ s.readByte (stackAddr (s.sp + 1)) = some p.value ∧ p.state = s.setSP (s.sp + 1) := by
  unfold pull at h
  split at h
  · cases h
  · rename_i hsp
    obtain ⟨v, h1, h2⟩ := Res.bind_eq_ok h
    cases h2
    exact ⟨hsp, (memRead_ok (s := s.setSP (s.sp + 1))).1 h1, rfl⟩

/-- A pull that fails: SP is 0xFF and nothing changes, or the cell is unmapped and SP has moved. -/
theorem pull_err {s t : State} {e : StepError} (h : pull s = .err e t) :
    (e = .stackEmpty ∧ s.sp = 0xFF ∧ t = s) ∨
    (e = .memoryAccess (stackAddr (s.sp + 1)) .read ∧ s.sp ≠ 0xFF ∧ t = s.setSP (s.sp + 1)) := by
  unfold pull at h
  split at h
  · cases h; exact .inl ⟨rfl, ‹_›, rfl⟩
  · rcases Res.bind_eq_err h with h | ⟨v, -, h2⟩
    · obtain ⟨-, h2, h3⟩ := memRead_err.1 h
      exact .inr ⟨h2, ‹_›, h3⟩
    · cases h2

theorem pull_of {s : State} {v : Byte} (hsp : s.sp ≠ 0xFF) (h : s.readByte (stackAddr (s.sp + 1)) = some v) :
    pull s = .ok ⟨v, s.setSP (s.sp + 1)⟩ := by
  have : memRead (stackAddr (s.setSP (s.sp + 1)).sp) (s.setSP (s.sp + 1)) = .ok v := memRead_ok.2 h
  unfold pull
  rw [if_neg hsp]
  exact congrArg (Res.bind · _) this

theorem pull_empty {s : State} (hsp : s.sp = 0xFF) : pull s = .err .stackEmpty s := by simp [pull, hsp]

/-! ### Words -/

/-- `w16(l, h)` is the word `l + 256*h` (00_scope.md R8). -/
theorem w16_toNat (l h : Byte) : (w16 l h).toNat = l.toNat + 256 * h.toNat := by
  unfold w16
  rw [BitVec.toNat_append, ← Nat.shiftLeft_add_eq_or_of_lt l.isLt, Nat.shiftLeft_eq]
  omega

theorem lo_toNat (w : Word) : (lo w).toNat = w.toNat % 256 := by simp [lo]

theorem hi_toNat (w : Word) : (hi w).toNat = w.toNat / 256 := by
  have := w.isLt
  simp only [hi, BitVec.extractLsb'_toNat, Nat.shiftRight_eq_div_pow]
  omega

@[simp] theorem w16_lo_hi (w : Word) : w16 (lo w) (hi w) = w := by
  apply BitVec.eq_of_toNat_eq
  rw [w16_toNat, lo_toNat, hi_toNat]
  omega

@[simp] theorem lo_w16 (l h : Byte) : lo (w16 l h) = l := by
  have := l.isLt
  apply BitVec.eq_of_toNat_eq
  rw [lo_toNat, w16_toNat]
  omega

@[simp] theorem hi_w16 (l h : Byte) : hi (w16 l h) = h := by
  have := l.isLt
  apply BitVec.eq_of_toNat_eq
  rw [hi_toNat, w16_toNat]
  omega

end Sys2Proof.Machine
end

