-- ==== Sys2Proof/Laws/Shapes.lean ====
section
/-! SUPPORT. What an operation inside a step may change (`Held`), for every shared operation, and what each shape of an instruction answers. -/

namespace Sys2Proof.Machine

/-- Memory after any number of writes through the mapper of `c`. -/
inductive Writes (c : Config) (m : Memory) : Memory → Prop where
  | none : Writes c m m
  | write {n : Memory} {a : Word} {cell : StorageCell} (v : Byte) (h : Writes c m n) (hc : resolveCell c a = some cell)
      (hw : writable c cell = true) : Writes c m (n.set cell.home v)

theorem Writes.trans {c : Config} {m n o : Memory} (h1 : Writes c m n) (h2 : Writes c n o) : Writes c m o := by
  induction h2 with
  | none => exact h1
  | write v _ hc hw ih => exact .write v ih hc hw

theorem Writes.wf {c : Config} {m n : Memory} (h : Writes c m n) (hm : m.wf = true) : n.wf = true := by
  induction h with
  | none => exact hm
  | write v _ _ _ ih => exact Memory.set_wf ih _ v

theorem Writes.within {c : Config} {m n : Memory} (h : Writes c m n) (hm : m.within c = true) : n.within c = true := by
  induction h with
  | none => exact hm
  | write v _ hc _ ih => exact Memory.set_within ih (isHome_home (resolveCell_exists hc).1) v

/-- A cell that no writable address resolves to keeps its byte. -/
theorem Writes.get_cell {c : Config} {m n : Memory} (h : Writes c m n) (hm : m.wf = true) {q : StorageCell}
    (hq : cellExists c q = true) (ha : ∀ a, resolveCell c a = some q → writable c q = false) : n.get q.home = m.get q.home := by
  induction h with
  | none => rfl
  | write v h hc hw ih =>
    rw [Memory.get_set (h.wf hm), if_neg fun hh => ?_, ih]
    have := home_inj hq (resolveCell_exists hc).1 hh
    subst this
    simp [ha _ hc] at hw

/-- `t` differs from `s` in A, X, Y, SP, flags and written memory at most: PC, CYC, run status and configuration are held. -/
structure Held (s t : State) : Prop where
  pc  : t.pc = s.pc
  cyc : t.cyc = s.cyc
  run : t.run = s.run
  cfg : t.cfg = s.cfg
  mem : Writes s.cfg s.mem t.mem

theorem Held.refl (s : State) : Held s s := ⟨rfl, rfl, rfl, rfl, .none⟩

theorem Held.trans {s t u : State} (h1 : Held s t) (h2 : Held t u) : Held s u :=
  ⟨h2.pc.trans h1.pc, h2.cyc.trans h1.cyc, h2.run.trans h1.run, h2.cfg.trans h1.cfg, h1.mem.trans (h1.cfg ▸ h2.mem)⟩

theorem Held.setA {s t : State} (h : Held s t) (v : Byte) : Held s (t.setA v) := ⟨h.pc, h.cyc, h.run, h.cfg, h.mem⟩
theorem Held.setX {s t : State} (h : Held s t) (v : Byte) : Held s (t.setX v) := ⟨h.pc, h.cyc, h.run, h.cfg, h.mem⟩
theorem Held.setY {s t : State} (h : Held s t) (v : Byte) : Held s (t.setY v) := ⟨h.pc, h.cyc, h.run, h.cfg, h.mem⟩
theorem Held.setSP {s t : State} (h : Held s t) (v : Byte) : Held s (t.setSP v) := ⟨h.pc, h.cyc, h.run, h.cfg, h.mem⟩
theorem Held.setFlags {s t : State} (h : Held s t) (f : Flags) : Held s (t.setFlags f) := ⟨h.pc, h.cyc, h.run, h.cfg, h.mem⟩

theorem writeByte_held {s t : State} {a : Word} {v : Byte} (h : s.writeByte a v = some t) : Held s t := by
  obtain ⟨cell, hc, rfl⟩ := writeByte_spec h
  split
  · exact ⟨rfl, rfl, rfl, rfl, .write v .none hc ‹_›⟩
  · exact .refl s

theorem memWrite_held {a : Word} {v : Byte} {s t : State} (h : memWrite a v s = .ok t) : Held s t :=
  writeByte_held (memWrite_ok.1 h)

theorem push_held {v : Byte} {s t : State} (h : push v s = .ok t) : Held s t := by
  obtain ⟨u, hu, -, rfl⟩ := push_ok h
  exact (writeByte_held hu).setSP _

theorem push_held_err {v : Byte} {s t : State} {e : StepError} (h : push v s = .err e t) : Held s t := by
  rcases push_err h with ⟨-, rfl⟩ | ⟨-, -, hu⟩
  · exact .refl t
  · exact writeByte_held hu

theorem pull_held {s : State} {p : Pulled} (h : pull s = .ok p) : Held s p.state := by
  rw [(pull_ok h).2.2]
  exact (Held.refl s).setSP _

theorem pull_held_err {s t : State} {e : StepError} (h : pull s = .err e t) : Held s t := by
  rcases pull_err h with ⟨-, -, rfl⟩ | ⟨-, -, rfl⟩
  · exact .refl t
  · exact (Held.refl s).setSP _

theorem pushWord_held {w : Word} {s t : State} (h : pushWord w s = .ok t) : Held s t := by
  obtain ⟨u, h1, h2⟩ := Res.bind_eq_ok h
  exact (push_held h1).trans (push_held h2)

theorem pushWord_held_err {w : Word} {s t : State} {e : StepError} (h : pushWord w s = .err e t) : Held s t := by
  rcases Res.bind_eq_err h with h | ⟨u, h1, h2⟩
  · exact push_held_err h
  · exact (push_held h1).trans (push_held_err h2)

theorem pullWord_held {s : State} {r : PulledWord} (h : pullWord s = .ok r) : Held s r.state := by
  obtain ⟨l, h1, h2⟩ := Res.bind_eq_ok h
  obtain ⟨h', h3, h4⟩ := Res.bind_eq_ok h2
  cases h4
  exact (pull_held h1).trans (pull_held h3)

theorem pullWord_held_err {s t : State} {e : StepError} (h : pullWord s = .err e t) : Held s t := by
  rcases Res.bind_eq_err h with h | ⟨l, h1, h2⟩
  · exact pull_held_err h
  · rcases Res.bind_eq_err h2 with h | ⟨v, -, h4⟩
    · exact (pull_held h1).trans (pull_held_err h)
    · cases h4

/-- BRK's entry changes, beyond what is held, PC alone; its errors leave PC too. -/
theorem breakEntry_ok {s t : State} (h : breakEntry s = .ok t) : ∃ u target, Held s u ∧ t = u.setPC target := by
  obtain ⟨u, h1, h2⟩ := Res.bind_eq_ok h
  obtain ⟨w, h3, h4⟩ := Res.bind_eq_ok h2
  obtain ⟨target, -, h5⟩ := Res.bind_eq_ok h4
  cases h5
  exact ⟨_, target, ((pushWord_held h1).trans (push_held h3)).setFlags _, rfl⟩

theorem breakEntry_err {s t : State} {e : StepError} (h : breakEntry s = .err e t) : Held s t := by
  rcases Res.bind_eq_err h with h | ⟨u, h1, h2⟩
  · exact pushWord_held_err h
  · rcases Res.bind_eq_err h2 with h | ⟨w, h3, h4⟩
    · exact (pushWord_held h1).trans (push_held_err h)
    · rcases Res.bind_eq_err h4 with h | ⟨v, -, h5⟩
      · rw [(readPair_err h).1]
        exact ((pushWord_held h1).trans (push_held h3)).setFlags _
      · cases h5

theorem interruptReturn_ok {k : Nat} {s t : State} (h : interruptReturn k s = .ok t) :
    ∃ u target, Held s u ∧ t = u.jumpTo target k := by
  obtain ⟨p, h1, h2⟩ := Res.bind_eq_ok h
  obtain ⟨r, h3, h4⟩ := Res.bind_eq_ok h2
  cases h4
  exact ⟨_, _, ((pull_held h1).setFlags _).trans (pullWord_held h3), rfl⟩

theorem interruptReturn_err {k : Nat} {s t : State} {e : StepError} (h : interruptReturn k s = .err e t) : Held s t := by
  rcases Res.bind_eq_err h with h | ⟨p, h1, h2⟩
  · exact pull_held_err h
  · rcases Res.bind_eq_err h2 with h | ⟨r, -, h4⟩
    · exact ((pull_held h1).setFlags _).trans (pullWord_held_err h)
    · cases h4

/-! ### Operands -/

/-- A resolver changes nothing, and fails only on a pointer byte it cannot read. -/
theorem resolve_err {m : MemOperand} {s t : State} {e : StepError} (h : resolve m s = .err e t) :
    t = s ∧ ∃ a, s.readByte a = none ∧ e = .memoryAccess a .read := by
  have key : ∀ {α : Type} {p : Byte} {k : Word → Res α}, (zeroPagePointer p s).bind k = .err e t →
      (∀ w, ∃ v, k w = .ok v) → t = s ∧ ∃ a, s.readByte a = none ∧ e = .memoryAccess a .read := by
    intro α p k h hk
    rcases Res.bind_eq_err h with h | ⟨w, -, h2⟩
    · obtain ⟨h1, h2 | h2⟩ := readPair_err h
      · exact ⟨h1, _, h2⟩
      · exact ⟨h1, _, h2.2⟩
    · obtain ⟨v, hv⟩ := hk w
      rw [hv] at h2
      cases h2
  cases m <;> first
    | exact key h fun w => ⟨_, rfl⟩
    | cases h

theorem loadMem_ok {m : MemOperand} {s : State} {l : Loaded} (h : loadMem m s = .ok l) :
    ∃ r, resolve m s = .ok r ∧ s.readByte r.ea = some l.value ∧ l.cross = r.cross := by
  obtain ⟨r, h1, h2⟩ := Res.bind_eq_ok h
  obtain ⟨v, h3, h4⟩ := Res.bind_eq_ok h2
  cases h4
  exact ⟨r, h1, memRead_ok.1 h3, rfl⟩

theorem loadMem_of {m : MemOperand} {s : State} {r : Resolved} {v : Byte} (h1 : resolve m s = .ok r)
    (h2 : s.readByte r.ea = some v) : loadMem m s = .ok ⟨v, r.cross⟩ := by
  simp [loadMem, h1, memRead_ok.2 h2]

theorem load_err {o : ReadOperand} {s t : State} {e : StepError} (h : load o s = .err e t) :
    t = s ∧ ∃ a, s.readByte a = none ∧ e = .memoryAccess a .read := by
  cases o with
  | immediate v => cases h
  | mem m =>
    rcases Res.bind_eq_err h with h | ⟨r, -, h2⟩
    · exact resolve_err h
    · rcases Res.bind_eq_err h2 with h | ⟨v, -, h4⟩
      · obtain ⟨h1, h2, h3⟩ := memRead_err.1 h
        exact ⟨h3, _, h1, h2⟩
      · cases h4

/-! ### Shapes -/

/-- What a shape that reads can answer: its own next state, or MemoryAccessError with nothing changed. -/
theorem readWith_cases {o : ReadOperand} {f : Byte → State → State} {s t : State} (h : readWith o f s = .next t) :
    (∃ l, load o s = .ok l ∧ t = (f l.value s).advance o.len (readCycles o + crossPenalty l.cross)) ∨
    (∃ a, s.readByte a = none ∧ t = s.setRun (.stopped (.memoryAccess a .read))) := by
  rcases finish_eq_next h with h | ⟨e, u, he, rfl⟩
  · obtain ⟨l, h1, h2⟩ := Res.bind_eq_ok h
    cases h2
    exact .inl ⟨l, h1, rfl⟩
  · rcases Res.bind_eq_err he with h | ⟨l, -, h2⟩
    · obtain ⟨rfl, a, ha, rfl⟩ := load_err h
      exact .inr ⟨a, ha, rfl⟩
    · cases h2

theorem readWith_of {o : ReadOperand} {f : Byte → State → State} {s : State} {l : Loaded} (h : load o s = .ok l) :
    readWith o f s = .next ((f l.value s).advance o.len (readCycles o + crossPenalty l.cross)) := by
  simp [readWith, h]

theorem storeValue_cases {m : MemOperand} {v : Byte} {s t : State} (h : storeValue m v s = .next t) :
    (∃ r u, resolve m s = .ok r ∧ s.writeByte r.ea v = some u ∧ t = u.advance m.len (storeCycles m)) ∨
    (∃ a d, s.readByte a = none ∧ t = s.setRun (.stopped (.memoryAccess a d))) := by
  rcases finish_eq_next h with h | ⟨e, u, he, rfl⟩
  · obtain ⟨r, h1, h2⟩ := Res.bind_eq_ok h
    obtain ⟨u, h3, h4⟩ := Res.bind_eq_ok h2
    cases h4
    exact .inl ⟨r, u, h1, memWrite_ok.1 h3, rfl⟩
  · rcases Res.bind_eq_err he with h | ⟨r, -, h2⟩
    · obtain ⟨rfl, a, ha, rfl⟩ := resolve_err h
      exact .inr ⟨a, _, ha, rfl⟩
    · rcases Res.bind_eq_err h2 with h | ⟨w, -, h4⟩
      · obtain ⟨h1, rfl, rfl⟩ := memWrite_err.1 h
        refine .inr ⟨_, _, ?_, rfl⟩
        have := writeByte_isSome u r.ea v
        rw [h1, ← readByte_isSome] at this
        exact Option.isNone_iff_eq_none.1 (by simpa using this.symm)
      · cases h4

theorem storeValue_of {m : MemOperand} {v : Byte} {s u : State} {r : Resolved} (h1 : resolve m s = .ok r)
    (h2 : s.writeByte r.ea v = some u) : storeValue m v s = .next (u.advance m.len (storeCycles m)) := by
  simp [storeValue, h1, memWrite_ok.2 h2]

/-- The write of a read-modify-write cannot fail where its read succeeded. -/
theorem writeByte_of_readByte {s : State} {a : Word} {w : Byte} (h : s.readByte a = some w) (f : Flags) (v : Byte) :
    ∃ u, (s.setFlags f).writeByte a v = some u := by
  have h1 := readByte_isSome s a
  have h2 := writeByte_isSome (s.setFlags f) a v
  rw [setFlags_cfg, ← h1, h] at h2
  exact Option.isSome_iff_exists.1 h2

theorem modifyWith_cases {m : MemOperand} {prim : Primitive} {after : Byte → State → State} {s t : State}
    (h : modifyWith m prim after s = .next t) :
    (∃ r v u, resolve m s = .ok r ∧ s.readByte r.ea = some v ∧
      (s.setFlags (prim v s.flags).flags).writeByte r.ea (prim v s.flags).value = some u ∧
      t = (after (prim v s.flags).value u).advance m.len (modifyCycles m)) ∨
    (∃ a, s.readByte a = none ∧ t = s.setRun (.stopped (.memoryAccess a .read))) := by
  rcases finish_eq_next h with h | ⟨e, u, he, rfl⟩
  · obtain ⟨r, h1, h2⟩ := Res.bind_eq_ok h
    obtain ⟨v, h3, h4⟩ := Res.bind_eq_ok h2
    obtain ⟨u, h5, h6⟩ := Res.bind_eq_ok h4
    cases h6
    exact .inl ⟨r, v, u, h1, memRead_ok.1 h3, memWrite_ok.1 h5, rfl⟩
  · rcases Res.bind_eq_err he with h | ⟨r, -, h2⟩
    · obtain ⟨rfl, a, ha, rfl⟩ := resolve_err h
      exact .inr ⟨a, ha, rfl⟩
    · rcases Res.bind_eq_err h2 with h | ⟨v, h3, h4⟩
      · obtain ⟨h1, rfl, rfl⟩ := memRead_err.1 h
        exact .inr ⟨_, h1, rfl⟩
      · rcases Res.bind_eq_err h4 with h | ⟨w, -, h6⟩
        · obtain ⟨w, hw⟩ := writeByte_of_readByte (memRead_ok.1 h3) (prim v s.flags).flags (prim v s.flags).value
          rw [memWrite_ok.2 hw] at h
          cases h
        · cases h6

theorem modifyWith_of {m : MemOperand} {prim : Primitive} {after : Byte → State → State} {s u : State} {r : Resolved}
    {v : Byte} (h1 : resolve m s = .ok r) (h2 : s.readByte r.ea = some v)
    (h3 : (s.setFlags (prim v s.flags).flags).writeByte r.ea (prim v s.flags).value = some u) :
    modifyWith m prim after s = .next ((after (prim v s.flags).value u).advance m.len (modifyCycles m)) := by
  simp [modifyWith, h1, memRead_ok.2 h2, memWrite_ok.2 h3]

end Sys2Proof.Machine
end

