-- ==== Sys2Proof/Laws/Written.lean ====
section
/-! SUPPORT. The terms of the statements (`WroteByte`, `withZN`) against the model's operations. -/

namespace Sys2Proof.Machine

/-- `setZN` of the model is the Z and N of the statements. -/
theorem setZN_eq_withZN (f : Flags) (v : Byte) : f.setZN v = withZN f v := by
  simp only [Flags.setZN, withZN, BitVec.msb_eq_decide]
  congr 1

/-- A cell takes writes unless its address is one where writes are ignored. -/
theorem stored_of_not_ignored {c : Config} {a : Word} {cell : StorageCell} (hc : resolveCell c a = some cell)
    (hi : ignoresWrite c a = false) : Stored c a := by
  refine ⟨cell, hc, ?_⟩
  cases cell with
  | generalRam _ => rfl
  | prgRam _ => rfl
  | prgRom k =>
    have hw : inRomWindow c a = true := by
      by_contra hh
      unfold resolveCell at hc
      rw [if_neg hh] at hc
      repeat' split at hc
      all_goals simp at hc
    cases hr : c.romWrite with
    | store => simp [writable, hr]
    | ignore => simp [ignoresWrite, hw, hr] at hi

/-- A write through the mapper changes one cell, or nothing where it is ignored (20_memory.md R72, R79). -/
theorem writeByte_wrote {s t : State} {a : Word} {v : Byte} (hs : s.Inv) (h : s.writeByte a v = some t) : WroteByte s t a v := by
  obtain ⟨cell, hc, ht⟩ := writeByte_spec h
  refine ⟨fun hi => ?_, fun hi b hb => ?_, fun b hb => writeByte_frame hs.1 h hb⟩
  · simp only [ignoresWrite, Bool.and_eq_true, decide_eq_true_eq] at hi
    simp only [resolveCell, hi.1, if_true, Option.some.injEq] at hc
    subst hc
    rw [ht]
    simp [writable, hi.2]
  · rw [writeByte_readByte hs.1 h (stored_of_not_ignored hc hi), if_pos hb]

/-- `WroteByte` is about configuration and memory alone. -/
theorem WroteByte.congr {s s' t t' : State} {a : Word} {v : Byte} (h : WroteByte s t a v) (hsc : s'.cfg = s.cfg)
    (hsm : s'.mem = s.mem) (htc : t'.cfg = t.cfg) (htm : t'.mem = t.mem) : WroteByte s' t' a v := by
  have hs : ∀ b, s'.readByte b = s.readByte b := readByte_congr hsc hsm
  have ht : ∀ b, t'.readByte b = t.readByte b := readByte_congr htc htm
  simpa [WroteByte, hsc, hsm, htm, hs, ht] using h

/-- A write keeps the invariant. -/
theorem writeByte_inv {s t : State} {a : Word} {v : Byte} (hs : s.Inv) (h : s.writeByte a v = some t) : t.Inv :=
  ⟨writeByte_wf hs.1 h, writeByte_within hs.2 h⟩

/-- The writes of a step keep the invariant. -/
theorem Held.inv {s t : State} (h : Held s t) (hs : s.Inv) : t.Inv :=
  ⟨h.mem.wf hs.1, by rw [h.cfg]; exact h.mem.within hs.2⟩

/-- A write at a mapped address has a next memory. -/
theorem writeByte_some {s : State} {a : Word} (v : Byte) (h : (resolveCell s.cfg a).isSome = true) :
    ∃ t, s.writeByte a v = some t := Option.isSome_iff_exists.1 (by rw [writeByte_isSome, h])

/-- A read-modify-write whose operand can be read: the byte written, and the next state. -/
theorem modifyWith_done {m : MemOperand} {prim : Primitive} {s : State} {r : Resolved} {v : Byte} (after : Byte → State → State)
    (hs : s.Inv) (h1 : resolve m s = .ok r) (h2 : s.readByte r.ea = some v) :
    ∃ u, WroteByte s u r.ea (prim v s.flags).value ∧ u = { s with mem := u.mem, flags := (prim v s.flags).flags } ∧
      modifyWith m prim after s = .next ((after (prim v s.flags).value u).advance m.len (modifyCycles m)) := by
  obtain ⟨u, hu⟩ := writeByte_of_readByte h2 (prim v s.flags).flags (prim v s.flags).value
  exact ⟨u, (writeByte_wrote (s := s.setFlags (prim v s.flags).flags) hs hu).congr rfl rfl rfl rfl, writeByte_eq hu,
    modifyWith_of h1 h2 hu⟩

end Sys2Proof.Machine
end

