-- ==== Sys2Proof/Laws/External.lean ====
section
/-! SUPPORT. What construction puts into memory: the PRG-ROM bytes and the INIT_MEM draw (20_memory.md R74, R82). -/

namespace Sys2Proof.Machine

/-- The PRG-ROM bytes are listed from `k` on. -/
theorem romCells_mem {bytes : List Byte} {k : Nat} {entry : Host.Cell} (h : entry ∈ romCells bytes k) :
    k ≤ entry.1 ∧ entry.1 < k + bytes.length := by
  induction bytes generalizing k with
  | nil => cases h
  | cons b rest ih =>
    rcases Memory.consCell_mem h with rfl | h
    · simp
    · have := ih h
      simp only [List.length_cons]
      omega

theorem romCells_lt (rest : List Byte) (k : Nat) : ∀ entry ∈ romCells rest (k + 1), k < entry.1 :=
  fun _ h => (romCells_mem h).1

theorem romCells_wf (bytes : List Byte) (k : Nat) : (romCells bytes k).wf = true := by
  induction bytes generalizing k with
  | nil => rfl
  | cons b rest ih => exact Memory.consCell_wf b (romCells_lt rest k) (ih (k + 1))

/-- A PRG-ROM of the length of the mapper's banks fills its PRG-ROM cells. -/
theorem romCells_within {c : Config} {bytes : List Byte} (h : bytes.length = romBytes c.romBanks) :
    (romCells bytes 0x8000).within c = true := by
  simp only [Memory.within, List.all_eq_true]
  intro entry he
  obtain ⟨h1, h2⟩ := romCells_mem he
  have := isHome_home (c := c) (cell := .prgRom (entry.1 - 0x8000)) (decide_eq_true (by omega))
  rwa [StorageCell.home, show 0x8000 + (entry.1 - 0x8000) = entry.1 by omega] at this

/-- Byte `j` of PRG-ROM is the one at `k + j`. -/
theorem romCells_get {bytes : List Byte} {k j : Nat} {v : Byte} (h : bytes[j]? = some v) :
    (romCells bytes k).get (k + j) = v := by
  induction bytes generalizing k j with
  | nil => simp at h
  | cons b rest ih =>
    rw [romCells, Memory.get_consCell b (romCells_lt rest k)]
    cases j with
    | zero => simpa using h
    | succ j =>
      rw [if_neg (by omega), show k + (j + 1) = k + 1 + j by omega]
      exact ih (by simpa using h)

/-- Below PRG-ROM and above it, nothing is listed. -/
theorem romCells_outside {bytes : List Byte} {k a : Nat} (h : a < k ∨ k + bytes.length ≤ a) :
    (romCells bytes k).get a = Memory.unlisted := by
  induction bytes generalizing k with
  | nil => rfl
  | cons b rest ih =>
    simp only [List.length_cons] at h
    rw [romCells, Memory.get_consCell b (romCells_lt rest k), if_neg (by omega), ih (by omega)]

/-- The draw keeps the canonical form and lists only cells the mapper has. -/
theorem drawRam_wf {c : Config} {m : Memory} (hm : m.wf = true) (draw : List (StorageCell × Byte)) :
    (drawRam c m draw).wf = true := by
  induction draw with
  | nil => exact hm
  | cons entry rest ih =>
    unfold drawRam
    dsimp only
    split
    · exact Memory.set_wf ih _ _
    · exact ih

theorem drawRam_within {c : Config} {m : Memory} (hm : m.within c = true) (draw : List (StorageCell × Byte)) :
    (drawRam c m draw).within c = true := by
  induction draw with
  | nil => exact hm
  | cons entry rest ih =>
    unfold drawRam
    dsimp only
    split
    · rename_i h
      exact Memory.set_within ih (isHome_home (Bool.and_eq_true _ _ ▸ h).2) _
    · exact ih

/-- What a cell of the mapper holds after the draw: a RAM cell the byte of its first entry, any other what it held. -/
theorem drawRam_get {c : Config} {m : Memory} (hm : m.wf = true) (draw : List (StorageCell × Byte)) {cell : StorageCell}
    (hc : cellExists c cell = true) :
    (drawRam c m draw).get cell.home =
      if cell.isRam then (draw.lookup cell).getD (m.get cell.home) else m.get cell.home := by
  induction draw with
  | nil => simp [drawRam]
  | cons entry rest ih =>
    obtain ⟨q, v⟩ := entry
    unfold drawRam
    dsimp only
    by_cases hq : cell = q
    · subst hq
      cases hr : cell.isRam with
      | true => simp [hc, Memory.get_set (drawRam_wf hm rest)]
      | false => simpa [hr] using ih
    · have hl : List.lookup cell ((q, v) :: rest) = List.lookup cell rest := by
        rw [List.lookup_cons, beq_false_of_ne hq]
      rw [hl, ← ih]
      split
      · rename_i h
        rw [Memory.get_set (drawRam_wf hm rest), if_neg fun hh => hq (home_inj hc (Bool.and_eq_true _ _ ▸ h).2 hh)]
      · rfl

theorem romBytes_of_banks {n : Nat} {b : RomBanks} (h : romBanksOf n = some b) : n = romBytes b := by
  unfold romBanksOf at h
  repeat' split at h
  all_goals first | (cases h; assumption) | cases h

/-- The state that construction builds has memory in canonical form. -/
theorem beforeVector_inv {p : Params} {b : RomBanks} (h : romBanksOf p.prgRom.length = some b) : (beforeVector p b).Inv :=
  ⟨drawRam_wf (romCells_wf _ _) _, drawRam_within (romCells_within (romBytes_of_banks h)) _⟩

end Sys2Proof.Machine
end

