-- ==== Sys2Proof/Laws/PerInstr.lean ====
section
/-! SUPPORT. Statements made per instruction. Family Encoding: decoding the bytes of a well-formed instruction gives it back, with whatever follows left over. -/

namespace Sys2Proof.Laws

open Sys2Proof.Machine

/-- Family Encoding. -/
def Encoding.Statement (i : Instr) : Prop :=
  ∀ (usbcEb : Bool) (rest : List Byte), i.wellFormed usbcEb = true → decode usbcEb (encode i ++ rest) = .ok (i, rest)

theorem Encoding.lda (o : ReadOperand) : Encoding.Statement (.lda o) := by
  intro u rest h
  cases o with
  | immediate v => rfl
  | mem m => cases m <;> first
    | rfl
    | (rename_i w; conv => rhs; rw [← w16_lo_hi w]
       rfl)
    | exact absurd h Bool.false_ne_true

theorem Encoding.ldx (o : ReadOperand) : Encoding.Statement (.ldx o) := by
  intro u rest h
  cases o with
  | immediate v => rfl
  | mem m => cases m <;> first
    | rfl
    | (rename_i w; conv => rhs; rw [← w16_lo_hi w]
       rfl)
    | exact absurd h Bool.false_ne_true

theorem Encoding.ldy (o : ReadOperand) : Encoding.Statement (.ldy o) := by
  intro u rest h
  cases o with
  | immediate v => rfl
  | mem m => cases m <;> first
    | rfl
    | (rename_i w; conv => rhs; rw [← w16_lo_hi w]
       rfl)
    | exact absurd h Bool.false_ne_true

theorem Encoding.sta (m : MemOperand) : Encoding.Statement (.sta m) := by
  intro u rest h
  cases m <;> first
    | rfl
    | (rename_i w; conv => rhs; rw [← w16_lo_hi w]
       rfl)
    | exact absurd h Bool.false_ne_true

theorem Encoding.stx (m : MemOperand) : Encoding.Statement (.stx m) := by
  intro u rest h
  cases m <;> first
    | rfl
    | (rename_i w; conv => rhs; rw [← w16_lo_hi w]
       rfl)
    | exact absurd h Bool.false_ne_true

theorem Encoding.sty (m : MemOperand) : Encoding.Statement (.sty m) := by
  intro u rest h
  cases m <;> first
    | rfl
    | (rename_i w; conv => rhs; rw [← w16_lo_hi w]
       rfl)
    | exact absurd h Bool.false_ne_true

theorem Encoding.tax : Encoding.Statement (.tax) := by
  intro u rest _
  rfl

theorem Encoding.tay : Encoding.Statement (.tay) := by
  intro u rest _
  rfl

theorem Encoding.txa : Encoding.Statement (.txa) := by
  intro u rest _
  rfl

theorem Encoding.tya : Encoding.Statement (.tya) := by
  intro u rest _
  rfl

theorem Encoding.tsx : Encoding.Statement (.tsx) := by
  intro u rest _
  rfl

theorem Encoding.txs : Encoding.Statement (.txs) := by
  intro u rest _
  rfl

theorem Encoding.adc (o : ReadOperand) : Encoding.Statement (.adc o) := by
  intro u rest h
  cases o with
  | immediate v => rfl
  | mem m => cases m <;> first
    | rfl
    | (rename_i w; conv => rhs; rw [← w16_lo_hi w]
       rfl)
    | exact absurd h Bool.false_ne_true

theorem Encoding.sbc (o : ReadOperand) : Encoding.Statement (.sbc o) := by
  intro u rest h
  cases o with
  | immediate v => rfl
  | mem m => cases m <;> first
    | rfl
    | (rename_i w; conv => rhs; rw [← w16_lo_hi w]
       rfl)
    | exact absurd h Bool.false_ne_true

theorem Encoding.and (o : ReadOperand) : Encoding.Statement (.and o) := by
  intro u rest h
  cases o with
  | immediate v => rfl
  | mem m => cases m <;> first
    | rfl
    | (rename_i w; conv => rhs; rw [← w16_lo_hi w]
       rfl)
    | exact absurd h Bool.false_ne_true

theorem Encoding.ora (o : ReadOperand) : Encoding.Statement (.ora o) := by
  intro u rest h
  cases o with
  | immediate v => rfl
  | mem m => cases m <;> first
    | rfl
    | (rename_i w; conv => rhs; rw [← w16_lo_hi w]
       rfl)
    | exact absurd h Bool.false_ne_true

theorem Encoding.eor (o : ReadOperand) : Encoding.Statement (.eor o) := by
  intro u rest h
  cases o with
  | immediate v => rfl
  | mem m => cases m <;> first
    | rfl
    | (rename_i w; conv => rhs; rw [← w16_lo_hi w]
       rfl)
    | exact absurd h Bool.false_ne_true

theorem Encoding.bit (m : MemOperand) : Encoding.Statement (.bit m) := by
  intro u rest h
  cases m <;> first
    | rfl
    | (rename_i w; conv => rhs; rw [← w16_lo_hi w]
       rfl)
    | exact absurd h Bool.false_ne_true

theorem Encoding.asl (o : ShiftOperand) : Encoding.Statement (.asl o) := by
  intro u rest h
  cases o with
  | accumulator => rfl
  | mem m => cases m <;> first
    | rfl
    | (rename_i w; conv => rhs; rw [← w16_lo_hi w]
       rfl)
    | exact absurd h Bool.false_ne_true

theorem Encoding.lsr (o : ShiftOperand) : Encoding.Statement (.lsr o) := by
  intro u rest h
  cases o with
  | accumulator => rfl
  | mem m => cases m <;> first
    | rfl
    | (rename_i w; conv => rhs; rw [← w16_lo_hi w]
       rfl)
    | exact absurd h Bool.false_ne_true

theorem Encoding.rol (o : ShiftOperand) : Encoding.Statement (.rol o) := by
  intro u rest h
  cases o with
  | accumulator => rfl
  | mem m => cases m <;> first
    | rfl
    | (rename_i w; conv => rhs; rw [← w16_lo_hi w]
       rfl)
    | exact absurd h Bool.false_ne_true

theorem Encoding.ror (o : ShiftOperand) : Encoding.Statement (.ror o) := by
  intro u rest h
  cases o with
  | accumulator => rfl
  | mem m => cases m <;> first
    | rfl
    | (rename_i w; conv => rhs; rw [← w16_lo_hi w]
       rfl)
    | exact absurd h Bool.false_ne_true

theorem Encoding.cmp (o : ReadOperand) : Encoding.Statement (.cmp o) := by
  intro u rest h
  cases o with
  | immediate v => rfl
  | mem m => cases m <;> first
    | rfl
    | (rename_i w; conv => rhs; rw [← w16_lo_hi w]
       rfl)
    | exact absurd h Bool.false_ne_true

theorem Encoding.cpx (o : ReadOperand) : Encoding.Statement (.cpx o) := by
  intro u rest h
  cases o with
  | immediate v => rfl
  | mem m => cases m <;> first
    | rfl
    | (rename_i w; conv => rhs; rw [← w16_lo_hi w]
       rfl)
    | exact absurd h Bool.false_ne_true

theorem Encoding.cpy (o : ReadOperand) : Encoding.Statement (.cpy o) := by
  intro u rest h
  cases o with
  | immediate v => rfl
  | mem m => cases m <;> first
    | rfl
    | (rename_i w; conv => rhs; rw [← w16_lo_hi w]
       rfl)
    | exact absurd h Bool.false_ne_true

theorem Encoding.inc (m : MemOperand) : Encoding.Statement (.inc m) := by
  intro u rest h
  cases m <;> first
    | rfl
    | (rename_i w; conv => rhs; rw [← w16_lo_hi w]
       rfl)
    | exact absurd h Bool.false_ne_true

theorem Encoding.dec (m : MemOperand) : Encoding.Statement (.dec m) := by
  intro u rest h
  cases m <;> first
    | rfl
    | (rename_i w; conv => rhs; rw [← w16_lo_hi w]
       rfl)
    | exact absurd h Bool.false_ne_true

theorem Encoding.inx : Encoding.Statement (.inx) := by
  intro u rest _
  rfl

theorem Encoding.iny : Encoding.Statement (.iny) := by
  intro u rest _
  rfl

theorem Encoding.dex : Encoding.Statement (.dex) := by
  intro u rest _
  rfl

theorem Encoding.dey : Encoding.Statement (.dey) := by
  intro u rest _
  rfl

theorem Encoding.pha : Encoding.Statement (.pha) := by
  intro u rest _
  rfl

theorem Encoding.pla : Encoding.Statement (.pla) := by
  intro u rest _
  rfl

theorem Encoding.php : Encoding.Statement (.php) := by
  intro u rest _
  rfl

theorem Encoding.plp : Encoding.Statement (.plp) := by
  intro u rest _
  rfl

theorem Encoding.jsr (target : Word) : Encoding.Statement (.jsr target) := by
  intro u rest _
  conv => rhs; rw [← w16_lo_hi target]
  rfl

theorem Encoding.rts : Encoding.Statement (.rts) := by
  intro u rest _
  rfl

theorem Encoding.brk : Encoding.Statement (.brk) := by
  intro u rest _
  rfl

theorem Encoding.rti : Encoding.Statement (.rti) := by
  intro u rest _
  rfl

theorem Encoding.jmp (o : JumpOperand) : Encoding.Statement (.jmp o) := by
  intro u rest _
  cases o with
  | absolute w =>
    conv => rhs; rw [← w16_lo_hi w]
    rfl
  | indirect w =>
    conv => rhs; rw [← w16_lo_hi w]
    rfl

theorem Encoding.bpl (offset : Byte) : Encoding.Statement (.bpl offset) := by
  intro u rest _
  rfl

theorem Encoding.bmi (offset : Byte) : Encoding.Statement (.bmi offset) := by
  intro u rest _
  rfl

theorem Encoding.bvc (offset : Byte) : Encoding.Statement (.bvc offset) := by
  intro u rest _
  rfl

theorem Encoding.bvs (offset : Byte) : Encoding.Statement (.bvs offset) := by
  intro u rest _
  rfl

theorem Encoding.bcc (offset : Byte) : Encoding.Statement (.bcc offset) := by
  intro u rest _
  rfl

theorem Encoding.bcs (offset : Byte) : Encoding.Statement (.bcs offset) := by
  intro u rest _
  rfl

theorem Encoding.bne (offset : Byte) : Encoding.Statement (.bne offset) := by
  intro u rest _
  rfl

theorem Encoding.beq (offset : Byte) : Encoding.Statement (.beq offset) := by
  intro u rest _
  rfl

theorem Encoding.clc : Encoding.Statement (.clc) := by
  intro u rest _
  rfl

theorem Encoding.sec : Encoding.Statement (.sec) := by
  intro u rest _
  rfl

theorem Encoding.cli : Encoding.Statement (.cli) := by
  intro u rest _
  rfl

theorem Encoding.sei : Encoding.Statement (.sei) := by
  intro u rest _
  rfl

theorem Encoding.cld : Encoding.Statement (.cld) := by
  intro u rest _
  rfl

theorem Encoding.sed : Encoding.Statement (.sed) := by
  intro u rest _
  rfl

theorem Encoding.clv : Encoding.Statement (.clv) := by
  intro u rest _
  rfl

theorem Encoding.nop : Encoding.Statement (.nop) := by
  intro u rest _
  rfl

theorem Encoding.slo (m : MemOperand) : Encoding.Statement (.slo m) := by
  intro u rest h
  cases m <;> first
    | rfl
    | (rename_i w; conv => rhs; rw [← w16_lo_hi w]
       rfl)
    | exact absurd h Bool.false_ne_true

theorem Encoding.rla (m : MemOperand) : Encoding.Statement (.rla m) := by
  intro u rest h
  cases m <;> first
    | rfl
    | (rename_i w; conv => rhs; rw [← w16_lo_hi w]
       rfl)
    | exact absurd h Bool.false_ne_true

theorem Encoding.sre (m : MemOperand) : Encoding.Statement (.sre m) := by
  intro u rest h
  cases m <;> first
    | rfl
    | (rename_i w; conv => rhs; rw [← w16_lo_hi w]
       rfl)
    | exact absurd h Bool.false_ne_true

theorem Encoding.rra (m : MemOperand) : Encoding.Statement (.rra m) := by
  intro u rest h
  cases m <;> first
    | rfl
    | (rename_i w; conv => rhs; rw [← w16_lo_hi w]
       rfl)
    | exact absurd h Bool.false_ne_true

theorem Encoding.dcp (m : MemOperand) : Encoding.Statement (.dcp m) := by
  intro u rest h
  cases m <;> first
    | rfl
    | (rename_i w; conv => rhs; rw [← w16_lo_hi w]
       rfl)
    | exact absurd h Bool.false_ne_true

theorem Encoding.isc (m : MemOperand) : Encoding.Statement (.isc m) := by
  intro u rest h
  cases m <;> first
    | rfl
    | (rename_i w; conv => rhs; rw [← w16_lo_hi w]
       rfl)
    | exact absurd h Bool.false_ne_true

theorem Encoding.lax (m : MemOperand) : Encoding.Statement (.lax m) := by
  intro u rest h
  cases m <;> first
    | rfl
    | (rename_i w; conv => rhs; rw [← w16_lo_hi w]
       rfl)
    | exact absurd h Bool.false_ne_true

theorem Encoding.sax (m : MemOperand) : Encoding.Statement (.sax m) := by
  intro u rest h
  cases m <;> first
    | rfl
    | (rename_i w; conv => rhs; rw [← w16_lo_hi w]
       rfl)
    | exact absurd h Bool.false_ne_true

theorem Encoding.nopImplied (op : Byte) : Encoding.Statement (.nopImplied op) := by
  intro u rest h
  have h : op ∈ nopImpliedBytes := List.contains_iff_mem.1 h
  simp only [nopImpliedBytes, List.mem_cons, List.not_mem_nil, or_false] at h
  rcases h with rfl | rfl | rfl | rfl | rfl | rfl <;> rfl

theorem Encoding.nopImmediate (op : Byte) (v : Byte) : Encoding.Statement (.nopImmediate op v) := by
  intro u rest h
  have h : op ∈ nopImmediateBytes := List.contains_iff_mem.1 h
  simp only [nopImmediateBytes, List.mem_cons, List.not_mem_nil, or_false] at h
  rcases h with rfl | rfl | rfl | rfl | rfl <;> rfl

theorem Encoding.nopMemory (op : Byte) (m : MemOperand) : Encoding.Statement (.nopMemory op m) := by
  intro u rest h
  have h : op ∈ nopMemoryBytes m.mode := List.contains_iff_mem.1 h
  cases m <;> simp only [MemOperand.mode, nopMemoryBytes, List.mem_cons, List.not_mem_nil, or_false] at h
  · rcases h with rfl | rfl | rfl <;> rfl
  · rcases h with rfl | rfl | rfl | rfl | rfl | rfl <;> rfl
  · subst h; rename_i w; conv => rhs; rw [← w16_lo_hi w]
    rfl
  · rename_i w _
    conv => rhs; rw [← w16_lo_hi w]
    rcases h with rfl | rfl | rfl | rfl | rfl | rfl <;> rfl

theorem Encoding.sbcImmediateEB (v : Byte) : Encoding.Statement (.sbcImmediateEB v) := by
  intro u rest h
  cases u
  · exact absurd h Bool.false_ne_true
  · rfl

theorem Encoding.unknown (op : Byte) : Encoding.Statement (.unknown op) := by
  intro u rest h
  have h : op ∈ unrecognisedBytes ∨ (op = 0xEB ∧ u = false) := by
    simpa [Instr.wellFormed, -List.contains_eq_mem, List.contains_iff_mem] using h
  simp only [unrecognisedBytes, List.mem_cons, List.not_mem_nil, or_false] at h
  rcases h with (rfl | rfl | rfl | rfl | rfl | rfl | rfl | rfl | rfl | rfl | rfl | rfl | rfl | rfl | rfl | rfl | rfl | rfl | rfl | rfl | rfl | rfl | rfl | rfl | rfl) | ⟨rfl, rfl⟩ <;> rfl

end Sys2Proof.Laws
end

