-- ==== Sys2Proof/Tests/Slice0.lean ====
section
/-! SUPPORT. The model's own tests: ill-formed terms refused, words decoded, single steps of 95_test_vectors.md, and a witness for the hypotheses of each statement. -/

namespace Sys2Proof.Tests

open Sys2Proof Sys2Proof.Machine

/-! ## WellFormed: each check refuses an ill-formed term (40_addressing.md R136, 30_encoding.md R107, 49 R289 to R292) -/

theorem test_illformed_loads :
    (Instr.lda (.mem (.zeroPageY 0))).wellFormed true = false ∧ (Instr.ldx (.mem (.zeroPageX 0))).wellFormed true = false ∧
    (Instr.ldx (.mem (.indirectIndexed 0))).wellFormed true = false ∧ (Instr.ldy (.mem (.absoluteY 0))).wellFormed true = false ∧
    (Instr.ldy (.mem (.zeroPageY 0))).wellFormed true = false := by decide

theorem test_illformed_stores :
    (Instr.sta (.zeroPageY 0)).wellFormed true = false ∧ (Instr.stx (.absoluteX 0)).wellFormed true = false ∧
    (Instr.stx (.zeroPageX 0)).wellFormed true = false ∧ (Instr.sty (.absoluteX 0)).wellFormed true = false ∧
    (Instr.sty (.zeroPageY 0)).wellFormed true = false := by decide

theorem test_illformed_arithmetic :
    (Instr.adc (.mem (.zeroPageY 0))).wellFormed true = false ∧ (Instr.sbc (.mem (.zeroPageY 0))).wellFormed true = false ∧
    (Instr.and (.mem (.zeroPageY 0))).wellFormed true = false ∧ (Instr.ora (.mem (.zeroPageY 0))).wellFormed true = false ∧
    (Instr.eor (.mem (.zeroPageY 0))).wellFormed true = false ∧ (Instr.bit (.zeroPageX 0)).wellFormed true = false ∧
    (Instr.cmp (.mem (.zeroPageY 0))).wellFormed true = false ∧ (Instr.cpx (.mem (.absoluteX 0))).wellFormed true = false ∧
    (Instr.cpy (.mem (.zeroPageX 0))).wellFormed true = false := by decide

theorem test_illformed_modifies :
    (Instr.asl (.mem (.absoluteY 0))).wellFormed true = false ∧ (Instr.lsr (.mem (.zeroPageY 0))).wellFormed true = false ∧
    (Instr.rol (.mem (.indexedIndirect 0))).wellFormed true = false ∧ (Instr.ror (.mem (.indirectIndexed 0))).wellFormed true = false ∧
    (Instr.inc (.absoluteY 0)).wellFormed true = false ∧ (Instr.dec (.zeroPageY 0)).wellFormed true = false := by decide

theorem test_illformed_unofficial :
    (Instr.slo (.zeroPageY 0)).wellFormed true = false ∧ (Instr.rla (.zeroPageY 0)).wellFormed true = false ∧
    (Instr.sre (.zeroPageY 0)).wellFormed true = false ∧ (Instr.rra (.zeroPageY 0)).wellFormed true = false ∧
    (Instr.dcp (.zeroPageY 0)).wellFormed true = false ∧ (Instr.isc (.zeroPageY 0)).wellFormed true = false ∧
    (Instr.lax (.zeroPageX 0)).wellFormed true = false ∧ (Instr.lax (.absoluteX 0)).wellFormed true = false ∧
    (Instr.sax (.indirectIndexed 0)).wellFormed true = false ∧ (Instr.sax (.absoluteY 0)).wellFormed true = false := by decide

theorem test_illformed_opcode_bytes :
    (Instr.nopImplied 0xEA).wellFormed true = false ∧ (Instr.nopImmediate 0xA9 0).wellFormed true = false ∧
    (Instr.nopMemory 0x0C (.zeroPage 0)).wellFormed true = false ∧ (Instr.nopMemory 0x04 (.absolute 0)).wellFormed true = false ∧
    (Instr.nopMemory 0x04 (.zeroPageY 0)).wellFormed true = false ∧ (Instr.sbcImmediateEB 0).wellFormed false = false ∧
    (Instr.unknown 0xA9).wellFormed true = false ∧ (Instr.unknown 0xEB).wellFormed true = false ∧
    (Instr.unknown 0xEB).wellFormed false = true := by decide

/-! ## Decoding: every constructor, by words written out from the Encoding lines of 41 to 49 and the map of 30 R108 -/

/-- The bytes decode to `i` with nothing left over. -/
def decodesTo (bytes : List Byte) (i : Instr) : Bool :=
  match decode true bytes with
  | .ok (j, rest) => j == i && rest.isEmpty
  | .error _ => false

theorem test_decode_load_store :
    (decodesTo [0b10101001, 0xC0] (.lda (.immediate 0xC0)) &&
     decodesTo [0b10110101, 0xFF] (.lda (.mem (.zeroPageX 0xFF))) &&
     decodesTo [0b10110001, 0x10] (.lda (.mem (.indirectIndexed 0x10))) &&
     decodesTo [0b10100001, 0xFE] (.lda (.mem (.indexedIndirect 0xFE))) &&
     decodesTo [0b10110110, 0xF0] (.ldx (.mem (.zeroPageY 0xF0))) &&
     decodesTo [0b10111100, 0xFF, 0x02] (.ldy (.mem (.absoluteX 0x02FF))) &&
     decodesTo [0b10001101, 0x00, 0x02] (.sta (.absolute 0x0200)) &&
     decodesTo [0b10011001, 0x00, 0x02] (.sta (.absoluteY 0x0200)) &&
     decodesTo [0b10010110, 0xFF] (.stx (.zeroPageY 0xFF)) &&
     decodesTo [0b10000100, 0x10] (.sty (.zeroPage 0x10))) = true := by decide

theorem test_decode_transfer :
    (decodesTo [0b10101010] .tax &&
     decodesTo [0b10101000] .tay &&
     decodesTo [0b10001010] .txa &&
     decodesTo [0b10011000] .tya &&
     decodesTo [0b10111010] .tsx &&
     decodesTo [0b10011010] .txs) = true := by decide

theorem test_decode_arithmetic_logic :
    (decodesTo [0b01101001, 0xC4] (.adc (.immediate 0xC4)) &&
     decodesTo [0b11110001, 0x20] (.sbc (.mem (.indirectIndexed 0x20))) &&
     decodesTo [0b00101001, 0x81] (.and (.immediate 0x81)) &&
     decodesTo [0b00001101, 0x34, 0x12] (.ora (.mem (.absolute 0x1234))) &&
     decodesTo [0b01011001, 0xFF, 0x02] (.eor (.mem (.absoluteY 0x02FF))) &&
     decodesTo [0b00100100, 0x10] (.bit (.zeroPage 0x10))) = true := by decide

theorem test_decode_shift :
    (decodesTo [0b00001010] (.asl .accumulator) &&
     decodesTo [0b01000110, 0x10] (.lsr (.mem (.zeroPage 0x10))) &&
     decodesTo [0b00111110, 0xFF, 0x02] (.rol (.mem (.absoluteX 0x02FF))) &&
     decodesTo [0b01110110, 0x10] (.ror (.mem (.zeroPageX 0x10)))) = true := by decide

theorem test_decode_compare_count :
    (decodesTo [0b11010001, 0x20] (.cmp (.mem (.indirectIndexed 0x20))) &&
     decodesTo [0b11100000, 0xFF] (.cpx (.immediate 0xFF)) &&
     decodesTo [0b11001100, 0x00, 0x02] (.cpy (.mem (.absolute 0x0200))) &&
     decodesTo [0b11100110, 0x10] (.inc (.zeroPage 0x10)) &&
     decodesTo [0b11011110, 0xFF, 0x02] (.dec (.absoluteX 0x02FF)) &&
     decodesTo [0b11101000] .inx &&
     decodesTo [0b11001000] .iny &&
     decodesTo [0b11001010] .dex &&
     decodesTo [0b10001000] .dey) = true := by decide

theorem test_decode_stack :
    (decodesTo [0b01001000] .pha &&
     decodesTo [0b01101000] .pla &&
     decodesTo [0b00001000] .php &&
     decodesTo [0b00101000] .plp &&
     decodesTo [0b00100000, 0x00, 0x07] (.jsr 0x0700) &&
     decodesTo [0b01100000] .rts &&
     decodesTo [0b00000000] .brk &&
     decodesTo [0b01000000] .rti) = true := by decide

theorem test_decode_jump_branch :
    (decodesTo [0b01001100, 0x00, 0x80] (.jmp (.absolute 0x8000)) &&
     decodesTo [0b01101100, 0xFF, 0x02] (.jmp (.indirect 0x02FF)) &&
     decodesTo [0b00010000, 0x00] (.bpl 0x00) &&
     decodesTo [0b00110000, 0x02] (.bmi 0x02) &&
     decodesTo [0b01010000, 0x02] (.bvc 0x02) &&
     decodesTo [0b01110000, 0x02] (.bvs 0x02) &&
     decodesTo [0b10010000, 0x80] (.bcc 0x80) &&
     decodesTo [0b10110000, 0x80] (.bcs 0x80) &&
     decodesTo [0b11010000, 0xFE] (.bne 0xFE) &&
     decodesTo [0b11110000, 0x7F] (.beq 0x7F)) = true := by decide

theorem test_decode_flags :
    (decodesTo [0b00011000] .clc &&
     decodesTo [0b00111000] .sec &&
     decodesTo [0b01011000] .cli &&
     decodesTo [0b01111000] .sei &&
     decodesTo [0b11011000] .cld &&
     decodesTo [0b11111000] .sed &&
     decodesTo [0b10111000] .clv &&
     decodesTo [0b11101010] .nop) = true := by decide

theorem test_decode_unofficial :
    (decodesTo [0b00000111, 0x10] (.slo (.zeroPage 0x10)) &&
     decodesTo [0b00110011, 0x10] (.rla (.indirectIndexed 0x10)) &&
     decodesTo [0b01001111, 0x00, 0x02] (.sre (.absolute 0x0200)) &&
     decodesTo [0b01111011, 0xFF, 0x02] (.rra (.absoluteY 0x02FF)) &&
     decodesTo [0b11000011, 0x20] (.dcp (.indexedIndirect 0x20)) &&
     decodesTo [0b11111111, 0x00, 0x00] (.isc (.absoluteX 0x0000)) &&
     decodesTo [0b10111111, 0xFF, 0x02] (.lax (.absoluteY 0x02FF)) &&
     decodesTo [0b10010111, 0xFF] (.sax (.zeroPageY 0xFF)) &&
     decodesTo [0b00011010] (.nopImplied 0x1A) &&
     decodesTo [0b10000000, 0xAB] (.nopImmediate 0x80 0xAB) &&
     decodesTo [0b00011100, 0xFF, 0x02] (.nopMemory 0x1C (.absoluteX 0x02FF)) &&
     decodesTo [0b11101011, 0x03] (.sbcImmediateEB 0x03) &&
     decodesTo [0b00000010] (.unknown 0x02)) = true := by decide

theorem test_decode_leaves_the_rest : decode true [0xAA, 0xE8] = .ok (.tax, [0xE8]) := by rfl

theorem test_decode_truncated :
    decode true [0b01101100, 0xFF] = .error (.truncated 0x6C) ∧ decode true [] = .error .noBytes := ⟨rfl, rfl⟩

theorem test_encode : encode (.jmp (.indirect 0x02FF)) = [0x6C, 0xFF, 0x02] ∧ encode (.bne 0xFE) = [0xD0, 0xFE] := by decide

/-- The second byte of a table word is bits 15 to 8. -/
theorem test_decodeTableWord :
    decodeTableWord 24 0x02FF6C = some (.jmp (.indirect 0x02FF)) ∧ decodeTableWord 8 0xA9 = some (.lda (.immediate 0x00)) ∧
    decodeTableWord 8 0x02 = some (.unknown 0x02) := by decide

/-! ## The cycle table of 70 R352 -/

/-- The instruction of an opcode byte, its operand bytes zero. -/
def sample (n : Nat) : Instr :=
  match entryOf true (BitVec.ofNat 8 n) with
  | .f1 i => i
  | .f2 make => make 0
  | .f3 make => make 0

/-- The base cost and the page-cross mark of every recognised instruction are those of the table, which Safety.lean copies. -/
theorem test_cycle_table :
    (List.range 256).map (fun n => ((sample n).baseCycles, (sample n).pageCrossPenalty)) =
      (List.range 256).map (fun n => (baseCost (BitVec.ofNat 8 n), crossMarks.contains (BitVec.ofNat 8 n))) := by decide +kernel

/-! ## Single steps: the vectors of 95_test_vectors.md section 2, by their names -/

/-- The base state of 95_test_vectors.md section 0 with `code` at 0x0600 and these bytes in memory. -/
def start (code : List Byte) (cells : List (Word × Byte)) : State :=
  (cells.foldl (fun (s : State) c => s.placeByte c.1 c.2) { State.reset with pc := 0x0600 }).placeBytes 0x0600 code

/-- One step from `s` ends in a next state of which `ok` holds. -/
def ends (s : State) (ok : State → Bool) : Bool :=
  match step s with
  | .next t => ok t
  | .fault _ => false
  | .refused _ => false

/-- LS1. -/
theorem test_lda_zero_flag : ends (start [0xA9, 0x00] []) (fun t => t.flags.z && !t.flags.n && t.pc == 0x0602 && t.cyc == 9) = true := by decide

/-- LS6. -/
theorem test_lda_absolute_x_page_cross : ends { start [0xBD, 0xFF, 0x02] [(0x0300, 0x42)] with x := 0x01 } (fun t => t.a == 0x42 && t.pc == 0x0603 && t.cyc == 12) = true := by decide

/-- LS13. -/
theorem test_ldx_zero_page_y_wraps : ends { start [0xB6, 0xF0] [(0x0010, 0x81)] with y := 0x20 } (fun t => t.x == 0x81 && t.flags.n && t.cyc == 11) = true := by decide

/-- LS14. -/
theorem test_ldy_absolute_x : ends { start [0xBC, 0xFF, 0x02] [(0x0300, 0x01)] with x := 0x01 } (fun t => t.y == 0x01 && t.cyc == 12) = true := by decide

/-- LS16. -/
theorem test_sta_absolute_x_never_charged : ends { start [0x9D, 0xFF, 0x02] [] with a := 0x77, x := 0x01 } (fun t => t.readByte 0x0300 == some 0x77 && t.cyc == 12) = true := by decide

/-- LS19. -/
theorem test_sta_indirect_y : ends { start [0x91, 0x40] [(0x0040, 0xF8), (0x0041, 0x02)] with a := 0x44, y := 0x10 } (fun t => t.readByte 0x0308 == some 0x44 && t.cyc == 13) = true := by decide

/-- LS20. -/
theorem test_stx_zero_page_y_wraps : ends { start [0x96, 0xFF] [] with x := 0x9C, y := 0x02 } (fun t => t.readByte 0x0001 == some 0x9C && t.cyc == 11) = true := by decide

/-- LS21. -/
theorem test_sty_zero_page_x_wraps : ends { start [0x94, 0xFF] [] with y := 0x05, x := 0x02 } (fun t => t.readByte 0x0001 == some 0x05 && t.cyc == 11) = true := by decide

/-- LS22. -/
theorem test_tax : ends { start [0xAA] [] with x := 0x12 } (fun t => t.x == 0x00 && t.flags.z && t.pc == 0x0601) = true := by decide

/-- LS23. -/
theorem test_tay : ends { start [0xA8] [] with a := 0x90 } (fun t => t.y == 0x90 && t.flags.n) = true := by decide

/-- LS24. -/
theorem test_txa : ends { start [0x8A] [] with a := 0x55 } (fun t => t.a == 0x00 && t.flags.z) = true := by decide

/-- LS25. -/
theorem test_tya : ends { start [0x98] [] with y := 0xFF } (fun t => t.a == 0xFF && t.flags.n) = true := by decide

/-- LS26. -/
theorem test_tsx_sets_n_from_sp : ends (start [0xBA] []) (fun t => t.x == 0xFD && t.flags.n && t.cyc == 9) = true := by decide

/-- LS27. -/
theorem test_txs_changes_no_flag : ends (start [0x9A] []) (fun t => t.sp == 0x00 && !t.flags.z && t.cyc == 9) = true := by decide

/-- AR4. -/
theorem test_adc_overflow_with_carry_in : ends { start [0x69, 0x00] [] with a := 0x7F, flags := { Flags.reset with c := true } } (fun t => t.a == 0x80 && !t.flags.c && t.flags.v && t.flags.n) = true := by decide

/-- AR6. -/
theorem test_adc_ignores_decimal : ends { start [0x69, 0x01] [] with a := 0x09, flags := { Flags.reset with d := true } } (fun t => t.a == 0x0A && t.flags.d && !t.flags.c) = true := by decide

/-- AR8. -/
theorem test_sbc_borrow : ends { start [0xE9, 0x05] [] with a := 0x03, flags := { Flags.reset with c := true } } (fun t => t.a == 0xFE && !t.flags.c && t.flags.n && !t.flags.v) = true := by decide

/-- AR9. -/
theorem test_sbc_overflow : ends { start [0xE9, 0x01] [] with a := 0x80, flags := { Flags.reset with c := true } } (fun t => t.a == 0x7F && t.flags.c && t.flags.v) = true := by decide

/-- LG2. -/
theorem test_and : ends { start [0x29, 0x81] [] with a := 0xFF } (fun t => t.a == 0x81 && t.flags.n) = true := by decide

/-- LG3. -/
theorem test_ora : ends { start [0x09, 0x80] [] with a := 0x01 } (fun t => t.a == 0x81 && t.flags.n) = true := by decide

/-- LG6. -/
theorem test_eor : ends { start [0x49, 0xFF] [] with a := 0x0F } (fun t => t.a == 0xF0 && t.flags.n) = true := by decide

/-- LG7. -/
theorem test_bit_copies_bits_of_memory : ends (start [0x24, 0x10] [(0x0010, 0xC0)]) (fun t => t.flags.z && t.flags.v && t.flags.n && t.a == 0x00 && t.cyc == 10) = true := by decide

/-- SH1. -/
theorem test_asl_carry_out : ends { start [0x0A] [] with a := 0x80 } (fun t => t.a == 0x00 && t.flags.c && t.flags.z) = true := by decide

/-- SH3. -/
theorem test_lsr_carry_out : ends { start [0x4A] [] with a := 0x01 } (fun t => t.a == 0x00 && t.flags.c && t.flags.z) = true := by decide

/-- SH9. -/
theorem test_rol_absolute_x : ends { start [0x3E, 0xFF, 0x02] [(0x0300, 0x7F)] with x := 0x01, flags := { Flags.reset with c := true } } (fun t => t.readByte 0x0300 == some 0xFF && !t.flags.c && t.flags.n && t.cyc == 14) = true := by decide

/-- SH5. -/
theorem test_ror_carry_in : ends { start [0x6A] [] with a := 0x01, flags := { Flags.reset with c := true } } (fun t => t.a == 0x80 && t.flags.c && t.flags.n) = true := by decide

/-- CI3. -/
theorem test_cmp_n_is_bit_seven : ends { start [0xC9, 0x01] [] with a := 0x90 } (fun t => t.flags.c && t.flags.n && !t.flags.z && t.a == 0x90) = true := by decide

/-- CI5. -/
theorem test_cpx : ends { start [0xE0, 0xFF] [] with x := 0xFF } (fun t => t.flags.c && t.flags.z) = true := by decide

/-- CI6. -/
theorem test_cpy : ends (start [0xC0, 0x00] []) (fun t => t.flags.c && t.flags.z) = true := by decide

/-- CI8. -/
theorem test_inc_wraps : ends (start [0xE6, 0x10] [(0x0010, 0xFF)]) (fun t => t.readByte 0x0010 == some 0x00 && t.flags.z && t.cyc == 12) = true := by decide

/-- CI9. -/
theorem test_dec_wraps : ends (start [0xC6, 0x10] []) (fun t => t.readByte 0x0010 == some 0xFF && t.flags.n && t.cyc == 12) = true := by decide

/-- CI11. -/
theorem test_inx_wraps : ends { start [0xE8] [] with x := 0xFF } (fun t => t.x == 0x00 && t.flags.z) = true := by decide

/-- CI12. -/
theorem test_iny : ends { start [0xC8] [] with y := 0x7F } (fun t => t.y == 0x80 && t.flags.n) = true := by decide

/-- CI13. -/
theorem test_dex : ends { start [0xCA] [] with x := 0x01 } (fun t => t.x == 0x00 && t.flags.z) = true := by decide

/-- CI14. -/
theorem test_dey_wraps : ends (start [0x88] []) (fun t => t.y == 0xFF && t.flags.n) = true := by decide

/-- ST1. -/
theorem test_pha : ends { start [0x48] [] with a := 0x42 } (fun t => t.readByte 0x01FD == some 0x42 && t.sp == 0xFC && t.cyc == 10) = true := by decide

/-- ST14. -/
theorem test_pha_overflow_stores_first : ends { start [0x48] [] with a := 0x42, sp := 0x00 } (fun t => t.readByte 0x0100 == some 0x42 && t.sp == 0x00 && t.run == .stopped .stackOverflow && t.pc == 0x0600 && t.cyc == 7) = true := by decide

/-- ST2. -/
theorem test_pla : ends { start [0x68] [(0x01FD, 0x80)] with sp := 0xFC } (fun t => t.a == 0x80 && t.sp == 0xFD && t.flags.n && t.cyc == 11) = true := by decide

/-- ST15. -/
theorem test_pla_empty_changes_nothing : ends { start [0x68] [] with sp := 0xFF } (fun t => t.sp == 0xFF && t.run == .stopped .stackEmpty && t.cyc == 7) = true := by decide

/-- ST3. -/
theorem test_php_pushes_bits_four_and_five : ends (start [0x08] []) (fun t => t.readByte 0x01FD == some 0x34 && t.sp == 0xFC) = true := by decide

/-- ST6. -/
theorem test_plp_keeps_b : ends (start [0x28] [(0x01FE, 0x10)]) (fun t => t.sp == 0xFE && !t.flags.i && !t.flags.b && t.cyc == 11) = true := by decide

/-- ST7. -/
theorem test_plp_loads_b : ends { start [0x28] [(0x01FE, 0x10)] with cfg := { Config.default with plpLoadsB := true } } (fun t => t.flags.b && !t.flags.i) = true := by decide

/-- ST8. -/
theorem test_jsr : ends (start [0x20, 0x00, 0x07] []) (fun t => t.pc == 0x0700 && t.sp == 0xFB && t.readByte 0x01FD == some 0x06 && t.readByte 0x01FC == some 0x02 && t.cyc == 13) = true := by decide

/-- ST16. -/
theorem test_jsr_overflow_on_second_push : ends { start [0x20, 0x00, 0x07] [] with sp := 0x01 } (fun t => t.sp == 0x00 && t.readByte 0x0101 == some 0x06 && t.readByte 0x0100 == some 0x02 && t.run == .stopped .stackOverflow && t.pc == 0x0600) = true := by decide

/-- ST10. -/
theorem test_rts_adds_one_and_wraps : ends (start [0x60] [(0x01FE, 0xFF), (0x01FF, 0xFF)]) (fun t => t.pc == 0x0000 && t.sp == 0xFF && t.cyc == 13) = true := by decide

/-- ST18. -/
theorem test_rts_empty_on_second_pull : ends { start [0x60] [(0x01FF, 0x03)] with sp := 0xFE } (fun t => t.sp == 0xFF && t.run == .stopped .stackEmpty && t.pc == 0x0600) = true := by decide

/-- ST11. -/
theorem test_rti_restores_b : ends { start [0x40] [(0x01FB, 0xB5), (0x01FC, 0x08), (0x01FD, 0x06)] with sp := 0xFA } (fun t => t.pc == 0x0608 && t.sp == 0xFD && t.flags.c && t.flags.b && t.flags.n && t.cyc == 13) = true := by decide

/-- ST12. -/
theorem test_brk_full : ends (start [0x00] [(0xFFFF, 0x80)]) (fun t => t.pc == 0x8000 && t.sp == 0xFA && t.readByte 0x01FD == some 0x06 && t.readByte 0x01FC == some 0x02 && t.readByte 0x01FB == some 0x34 && t.run == .stopped .brk && t.cyc == 7) = true := by decide

/-- ST13. -/
theorem test_brk_signal_only : ends { start [0x00] [(0xFFFF, 0x80)] with cfg := { Config.default with brkEffects := .signalOnly } } (fun t => t.pc == 0x0600 && t.sp == 0xFD && t.run == .stopped .brk && t.cyc == 7) = true := by decide

/-- JB1. -/
theorem test_jmp_absolute : ends (start [0x4C, 0x00, 0x80] []) (fun t => t.pc == 0x8000 && t.cyc == 10) = true := by decide

/-- JB2. -/
theorem test_jmp_indirect_page_wrap : ends (start [0x6C, 0xFF, 0x02] [(0x02FF, 0x34), (0x0300, 0x99), (0x0200, 0x12)]) (fun t => t.pc == 0x1234 && t.cyc == 12) = true := by decide

/-- JB9. -/
theorem test_bpl : ends (start [0x10, 0x00] []) (fun t => t.pc == 0x0602 && t.cyc == 10) = true := by decide

/-- JB10. -/
theorem test_bmi : ends { start [0x30, 0x02] [] with flags := { Flags.reset with n := true } } (fun t => t.pc == 0x0604 && t.cyc == 10) = true := by decide

/-- JB11. -/
theorem test_bvc : ends (start [0x50, 0x02] []) (fun t => t.pc == 0x0604 && t.cyc == 10) = true := by decide

/-- JB12. -/
theorem test_bvs_not_taken : ends (start [0x70, 0x02] []) (fun t => t.pc == 0x0602 && t.cyc == 9) = true := by decide

/-- JB13. -/
theorem test_bcc_backward_page_cross : ends (start [0x90, 0x80] []) (fun t => t.pc == 0x0582 && t.cyc == 11) = true := by decide

/-- JB6. -/
theorem test_bne_to_itself : ends (start [0xD0, 0xFE] []) (fun t => t.pc == 0x0600 && t.cyc == 10) = true := by decide

/-- JB5. -/
theorem test_bne_not_taken : ends { start [0xD0, 0x05] [] with flags := { Flags.reset with z := true } } (fun t => t.pc == 0x0602 && t.cyc == 9) = true := by decide

/-- JB15. -/
theorem test_beq_not_taken : ends (start [0xF0, 0x10] []) (fun t => t.pc == 0x0602 && t.cyc == 9) = true := by decide

/-- FL1. -/
theorem test_clc : ends { start [0x18] [] with flags := { Flags.reset with c := true } } (fun t => !t.flags.c && t.pc == 0x0601 && t.cyc == 9) = true := by decide

/-- FL2. -/
theorem test_sec : ends (start [0x38] []) (fun t => t.flags.c) = true := by decide

/-- FL3. -/
theorem test_cli : ends (start [0x58] []) (fun t => !t.flags.i) = true := by decide

/-- FL4. -/
theorem test_sei : ends { start [0x78] [] with flags := { Flags.reset with i := false } } (fun t => t.flags.i) = true := by decide

/-- FL5. -/
theorem test_cld : ends { start [0xD8] [] with flags := { Flags.reset with d := true } } (fun t => !t.flags.d) = true := by decide

/-- FL6. -/
theorem test_sed : ends (start [0xF8] []) (fun t => t.flags.d) = true := by decide

/-- FL7. -/
theorem test_clv : ends { start [0xB8] [] with flags := { Flags.reset with v := true } } (fun t => !t.flags.v) = true := by decide

/-- FL8. -/
theorem test_nop : ends (start [0xEA] []) (fun t => t.pc == 0x0601 && t.cyc == 9) = true := by decide

/-- UN1. -/
theorem test_slo : ends { start [0x07, 0x10] [(0x0010, 0x41)] with a := 0x01 } (fun t => t.a == 0x83 && t.readByte 0x0010 == some 0x82 && t.flags.n && !t.flags.c && t.cyc == 12) = true := by decide

/-- UN2. -/
theorem test_rla : ends { start [0x27, 0x10] [(0x0010, 0x80)] with a := 0xFF, flags := { Flags.reset with c := true } } (fun t => t.a == 0x01 && t.readByte 0x0010 == some 0x01 && t.flags.c) = true := by decide

/-- UN3. -/
theorem test_sre : ends { start [0x47, 0x10] [(0x0010, 0x03)] with a := 0xFF } (fun t => t.a == 0xFE && t.readByte 0x0010 == some 0x01 && t.flags.c && t.flags.n) = true := by decide

/-- UN4. -/
theorem test_rra : ends { start [0x67, 0x10] [(0x0010, 0x02)] with a := 0x10 } (fun t => t.a == 0x11 && t.readByte 0x0010 == some 0x01 && !t.flags.c) = true := by decide

/-- UN5. -/
theorem test_dcp : ends { start [0xC7, 0x10] [(0x0010, 0x06)] with a := 0x05 } (fun t => t.readByte 0x0010 == some 0x05 && t.flags.c && t.flags.z && t.a == 0x05) = true := by decide

/-- UN6. -/
theorem test_isc : ends { start [0xE7, 0x10] [(0x0010, 0x04)] with a := 0x10, flags := { Flags.reset with c := true } } (fun t => t.a == 0x0B && t.readByte 0x0010 == some 0x05 && t.flags.c) = true := by decide

/-- UN7. -/
theorem test_lax : ends (start [0xA7, 0x10] [(0x0010, 0x80)]) (fun t => t.a == 0x80 && t.x == 0x80 && t.flags.n && t.cyc == 10) = true := by decide

/-- UN10. -/
theorem test_sax : ends { start [0x97, 0xFF] [] with a := 0xFF, x := 0x0F, y := 0x02 } (fun t => t.readByte 0x0001 == some 0x0F && !t.flags.z && t.cyc == 11) = true := by decide

/-- UN11. -/
theorem test_nop_implied : ends (start [0x1A] []) (fun t => t.pc == 0x0601 && t.cyc == 9) = true := by decide

/-- UN12. -/
theorem test_nop_immediate_skips_its_byte : ends (start [0x80, 0xAB] []) (fun t => t.pc == 0x0602 && t.cyc == 9) = true := by decide

/-- UN14. -/
theorem test_nop_memory_page_cross : ends { start [0x1C, 0xFF, 0x02] [] with x := 0x01 } (fun t => t.pc == 0x0603 && t.cyc == 12) = true := by decide

/-- UN16. -/
theorem test_sbc_eb : ends { start [0xEB, 0x03] [] with a := 0x05, flags := { Flags.reset with c := true } } (fun t => t.a == 0x02 && t.flags.c && t.cyc == 9) = true := by decide

/-- UN17. -/
theorem test_sbc_eb_unrecognised : ends { start [0xEB, 0x03] [] with a := 0x05, cfg := { Config.default with usbcEb := false } } (fun t => t.a == 0x05 && t.run == .stopped (.unknownOpcode 0xEB) && t.pc == 0x0600) = true := by decide

/-- UN20. -/
theorem test_slo_indirect_x_pointer_wraps : ends { start [0x03, 0xFE] [(0x0000, 0x03), (0x0300, 0x81)] with x := 0x01 } (fun t => t.a == 0x02 && t.readByte 0x0300 == some 0x02 && t.flags.c && t.cyc == 15) = true := by decide

/-- UN21. -/
theorem test_isc_absolute_x : ends (start [0xFF, 0x00, 0x00] [(0x0000, 0x01)]) (fun t => t.a == 0xFD && t.readByte 0x0000 == some 0x02 && t.flags.n && t.cyc == 14) = true := by decide

/-- EX1. -/
theorem test_unknown_opcode : ends (start [0x02] []) (fun t => t.run == .stopped (.unknownOpcode 0x02) && t.pc == 0x0600 && t.cyc == 7) = true := by decide

theorem test_withFetchWord :
    ends (State.reset.withFetchWord 16 0xC0A9) (fun t => t.a == 0xC0 && t.flags.n && t.pc == 0x0002 && t.cyc == 9) = true := by decide

/-- A stopped run goes on with the placed instruction, and a ROM cell takes it. -/
theorem test_withFetchWord_rom :
    ends (State.withFetchWord { State.reset with pc := 0xFFFF, run := .stopped .brk, cfg := { Config.default with romBanks := .two } }
      24 0x02004C) (fun t => t.pc == 0x0200 && t.run == .running) = true := by decide

/-- 95_test_vectors.md W1 and W2. -/
theorem test_values :
    bitArray 0xA5 = [true, false, true, false, false, true, false, true] ∧ signed8 0xA5 = -91 ∧ signed8 0x7F = 127 ∧
    samepage 0x02FF 1 = 0x0200 ∧ crossed 0x02FF 0x0300 = true ∧ crossed 0x0200 0x02FF = false := by decide

/-- 95_test_vectors.md section 2.10: no core under a strict GENERAL_RAM that omits the vector. -/
theorem test_construct_fails :
    construct { Params.default with generalRam := [⟨0x0000, 0xFFFB⟩] } = .error (.failed .failedParsingEntryPoint) := by rfl

/-- 95_test_vectors.md section 0: PC is the word at 0xFFFC. -/
theorem test_construct_vector :
    (match construct { Params.default with initMem := [(.generalRam 0xFFFD, 0x06)] } with
      | .ok s => s.pc == 0x0600 && s.sp == 0xFD && s.cyc == 7 && s.flags == Flags.reset
      | .error _ => false) = true := by decide

/-- The trace names the instruction at PC and shows `pack(B)` (60 R317). -/
theorem test_trace :
    (trace (start [0x4C, 0x00, 0x80] [])).mnemonic = some "JMP" ∧
    (trace (start [0x4C, 0x00, 0x80] [])).operands = [some 0x00, some 0x80] ∧ (trace (start [] [])).p = 0x24 := by decide

/-- 95_test_vectors.md JB6: the assembler writes a branch to itself with offset FE (30 R111). -/
theorem test_branch_offset : branchOffset 0x0600 0x0600 = 0xFE ∧ Instr.text 0x0600 (.bne 0xFE) = "BNE $0600" := by decide

/-! ## Witnesses: states and operands that meet the hypotheses of the statements -/

/-- A machine in which only these addresses are mapped (95_test_vectors.md P7). -/
def strict (first last : Word) (s : State) : State := { s with cfg := { Config.default with generalRam := [⟨first, last⟩] } }

theorem silent_default : Config.Silent Config.default := by
  intro a
  have h : inGeneralRam Config.default a = true := by
    have := a.isLt
    simp [inGeneralRam, Config.default, Params.config, Params.default]
    omega
  have hr : inRomWindow Config.default a = false := by simp [inRomWindow, romBytes, Config.default, Params.config]
  have hp : inPrgRamWindow Config.default a = false := by simp [inPrgRamWindow, Config.default, Params.config, Params.default]
  simp [resolveCell, h, hr, hp]

theorem witness_DecodeOfEncodeIsTheInstruction :
    (Instr.lda (.immediate 0xC0)).wellFormed true = true ∧ (Instr.unknown 0xEB).wellFormed false = true := by decide

theorem witness_EncodeOfDecodeIsTheBytes : decode true [0xA9, 0xC0, 0xAA] = .ok (.lda (.immediate 0xC0), [0xAA]) := by rfl

theorem witness_DecodeFailsOnlyOnMissingBytes :
    ([0x00] : List Byte).length < (entryOf true 0x6C).operandBytes ∧ (entryOf true 0x6C).operandBytes ≤ ([0x00, 0x02] : List Byte).length ∧
    (entryOf true 0xAA).operandBytes ≤ ([] : List Byte).length := by decide

theorem witness_StepRunsTheDecodedInstruction :
    (start [0x6C, 0xFF, 0x02] []).run = .running ∧
    decode (start [0x6C, 0xFF, 0x02] []).cfg.usbcEb [0x6C, 0xFF, 0x02] = .ok (.jmp (.indirect 0x02FF), []) ∧
    ∀ k, k < (Instr.jmp (.indirect 0x02FF)).length →
      (start [0x6C, 0xFF, 0x02] []).readByte ((start [0x6C, 0xFF, 0x02] []).pc + BitVec.ofNat 16 k) = ([0x6C, 0xFF, 0x02] : List Byte)[k]? := by
  refine ⟨rfl, rfl, ?_⟩
  decide

theorem witness_FetchErrorsComeInAccessOrder :
    ((strict 0x0000 0x05FF (start [] [])).run = .running ∧ (strict 0x0000 0x05FF (start [] [])).readByte 0x0600 = none) ∧
    ((strict 0x0600 0x0600 (start [0xA9] [])).readByte 0x0600 = some 0xA9 ∧ 1 ≤ (entryOf true 0xA9).operandBytes ∧
      (strict 0x0600 0x0600 (start [0xA9] [])).readByte 0x0601 = none) ∧
    ((strict 0x0600 0x0601 (start [0x4C, 0x01] [])).readByte 0x0600 = some 0x4C ∧ (entryOf true 0x4C).operandBytes = 2 ∧
      (strict 0x0600 0x0601 (start [0x4C, 0x01] [])).readByte 0x0601 = some 0x01 ∧
      (strict 0x0600 0x0601 (start [0x4C, 0x01] [])).readByte 0x0602 = none) := by decide

theorem witness_UnrecognisedOpcodeOnlyStopsTheRun :
    ((start [0xCB] []).run = .running ∧ (start [0xCB] []).readByte (start [0xCB] []).pc = some 0xCB) ∧
    (State.readByte { start [0xEB] [] with cfg := { Config.default with usbcEb := false } } 0x0600 = some 0xEB) := by decide

theorem witness_StoppedRunRepeatsItsError : ({ State.reset with run := .stopped .brk } : State).run = .stopped .brk := by decide

theorem witness_EveryInstructionHasANextState : State.reset.run = .running := by decide

theorem witness_EveryStepKeepsMemoryCanonical :
    (start [0x85, 0x20] [(0x0020, 0x11)]).Inv ∧ ∃ t, step (start [0x85, 0x20] [(0x0020, 0x11)]) = .next t := ⟨by decide, _, rfl⟩

/-- The first PRG-RAM cell that no address reaches holds its INIT_MEM byte. -/
theorem witness_RunsKeepFormConfigurationAndUnreachedCells :
    Reachable Params.default State.reset ∧
    ∃ s, Reachable { Params.default with prgRamSize := 8193, initMem := [(.prgRam 8192, 0x5A)] } s ∧
      s.cellByte (.prgRam 8192) = 0x5A ∧ 8192 ≤ 8192 ∧ 8192 < 8193 :=
  ⟨.construct rfl, _, .construct rfl, by decide, by decide, by decide⟩

/-- PRG-ROM that is all zero lists no cell. -/
theorem romCells_zero (n k : Nat) : romCells (List.replicate n 0x00) k = [] := by
  induction n generalizing k with
  | zero => rfl
  | succ n ih =>
    rw [List.replicate_succ, romCells, ih]
    rfl

theorem constructs_of_zero_rom {n : Nat} {b : RomBanks} (hb : romBanksOf n = some b)
    (hv : ∀ a : Word, 0x8000 ≤ a.toNat → ∃ k, resolveCell (Params.config { Params.default with prgRom := List.replicate n 0x00 } b) a = some (.prgRom k)) :
    ∃ s, construct { Params.default with prgRom := List.replicate n 0x00 } = .ok s := by
  obtain ⟨k, hk⟩ := hv 0xFFFC (by decide)
  obtain ⟨j, hj⟩ := hv (0xFFFC + 1) (by decide)
  unfold construct
  simp only [List.length_replicate, hb]
  rw [read16, readPair_of (readByte_eq (s := beforeVector _ b) hk) (readByte_eq (s := beforeVector _ b) hj)]
  exact ⟨_, rfl⟩

theorem witness_CartridgeRomSurvivesEveryRun :
    (∃ s, Reachable { Params.default with prgRom := List.replicate 0x4000 0x00 } s) ∧
    (∃ s, Reachable { Params.default with prgRom := List.replicate 0x8000 0x00 } s) ∧ Params.default.romWrite = .ignore ∧
    (List.replicate 0x4000 (0x00 : Byte)).length = 0x4000 ∧ (List.replicate 0x8000 (0x00 : Byte)).length = 0x8000 ∧
    0x8000 ≤ (0x8000 : Word).toNat := by
  have one : ∃ s, construct { Params.default with prgRom := List.replicate 0x4000 0x00 } = .ok s := by
    refine constructs_of_zero_rom (b := .one) rfl fun a ha => ⟨(a.toNat - 0x8000) % 0x4000, ?_⟩
    unfold resolveCell
    rw [if_pos (by simpa [inRomWindow, romBytes, Params.config] using ha)]
    rfl
  have two : ∃ s, construct { Params.default with prgRom := List.replicate 0x8000 0x00 } = .ok s := by
    refine constructs_of_zero_rom (b := .two) rfl fun a ha => ⟨(a.toNat - 0x8000) % 0x8000, ?_⟩
    unfold resolveCell
    rw [if_pos (by simpa [inRomWindow, romBytes, Params.config] using ha)]
    rfl
  exact ⟨one.imp fun _ h => .construct h, two.imp fun _ h => .construct h, rfl, List.length_replicate, List.length_replicate, by decide⟩

/-- Both ends of each window, and addresses in and out of a strict GENERAL_RAM. -/
theorem witness_AddressesReadTheCellOfTheirWindow :
    ({ State.reset with cfg := { Config.default with romBanks := .one } } : State).cfg.romBanks = .one ∧
    ({ State.reset with cfg := { Config.default with romBanks := .two } } : State).cfg.romBanks = .two ∧
    (0x8000 ≤ (0x8000 : Word).toNat ∧ 0x8000 ≤ (0xFFFF : Word).toNat ∧ (0xBFFF : Word).toNat < 0xC000) ∧
    0 < ({ State.reset with cfg := { Config.default with prgRamSize := 0x1000 } } : State).cfg.prgRamSize ∧
    (0x6000 ≤ (0x6000 : Word).toNat ∧ (0x7FFF : Word).toNat < 0x8000 ∧ (0x6FFF : Word).toNat + 0x1000 < 0x8000) ∧
    (∃ r ∈ Config.default.generalRam, r.first.toNat ≤ (0xFFFF : Word).toNat ∧ (0xFFFF : Word).toNat ≤ r.last.toNat) ∧
    (∀ r ∈ (strict 0x0600 0x06FF State.reset).cfg.generalRam, ¬ (r.first.toNat ≤ (0x0700 : Word).toNat ∧ (0x0700 : Word).toNat ≤ r.last.toNat)) ∧
    resolveCell State.reset.cfg 0xFFFF = some (.generalRam 0xFFFF) ∧
    resolveCell (strict 0x0600 0x06FF State.reset).cfg 0x0700 = none := by decide

/-- The fallback addresses of the three ranges. -/
theorem fallback_default : Fallback Config.default 0x5FFF ∧ Fallback Config.default 0x7FFF ∧ Fallback Config.default 0xFFFF :=
  ⟨.inl (by decide), .inr (.inl (by decide)), .inr (.inr (by decide))⟩

/-- Writes to RAM and, under ROM_WRITE = store, to one bank, whose mirror shares the cell; a cell that the write leaves. -/
theorem witness_WriteChangesOneCell :
    State.reset.Inv ∧ (resolveCell State.reset.cfg 0x0000).isSome = true ∧ (resolveCell State.reset.cfg 0xFFFF).isSome = true ∧
    (resolveCell { Config.default with romBanks := .one, romWrite := .store } 0x8000).isSome = true ∧
    ignoresWrite { Config.default with romBanks := .one, romWrite := .store } 0x8000 = false ∧
    cellExists Config.default (.generalRam 0x0800) = true ∧ resolveCell Config.default 0x0000 ≠ some (.generalRam 0x0800) := by decide

theorem sameCell_mirror : SameCell { Config.default with romBanks := .one, romWrite := .store } 0x8000 0xC000 ∧
    ¬ SameCell { Config.default with romBanks := .two, romWrite := .store } 0x8000 0xC000 ∧ ¬ SameCell Config.default 0x0000 0x0800 := by
  refine ⟨.inr (.inl (by decide)), ?_, ?_⟩ <;> (unfold SameCell; decide)

theorem witness_SilentMapperNeverFails :
    Config.default.generalRam = [⟨0x0000, 0xFFFF⟩] ∧ Config.Silent State.reset.cfg ∧ State.reset.run = .running ∧
    ∃ t, step State.reset = .next t := ⟨rfl, silent_default, rfl, _, rfl⟩

/-- A step that raises, on BRK under each BRK_EFFECTS, and on an unrecognised byte. -/
theorem witness_ErrorStepsKeepPcAndCycles :
    (∃ t, step (start [0x02] []) = .next t ∧ t.run = .stopped (.unknownOpcode 0x02)) ∧
    (∃ t, step (start [0x00] []) = .next t ∧ t.run = .stopped .brk) ∧
    (∃ t, step { start [0x00] [] with cfg := { Config.default with brkEffects := .signalOnly } } = .next t ∧ t.run = .stopped .brk) :=
  ⟨⟨_, rfl, by decide⟩, ⟨_, rfl, by decide⟩, ⟨_, rfl, by decide⟩⟩

theorem witness_EachErrorComesFromItsCause :
    (∃ t, step (start [0x00] []) = .next t ∧ t.run = .stopped .brk) ∧
    (∃ t, step (start [0x02] []) = .next t ∧ t.run = .stopped (.unknownOpcode 0x02)) ∧
    (∃ t, step { start [0x48] [] with sp := 0x00 } = .next t ∧ t.run = .stopped .stackOverflow) ∧
    (∃ t, step { start [0x60] [] with sp := 0xFE } = .next t ∧ t.run = .stopped .stackEmpty) ∧
    (∃ t, step (strict 0x0600 0x0600 (start [0xA9] [])) = .next t ∧ t.run = .stopped (.memoryAccess 0x0601 .read)) :=
  ⟨⟨_, rfl, by decide⟩, ⟨_, rfl, by decide⟩, ⟨_, rfl, by decide⟩, ⟨_, rfl, by decide⟩, ⟨_, rfl, by decide⟩⟩

/-- A page cross, a branch onto another page, and an instruction of neither kind. -/
theorem witness_SuccessfulStepsPayTheirCycles :
    ((start [0xBD, 0xFF, 0x02] []).readByte 0x0600 = some 0xBD ∧
      fetch (start [0xBD, 0xFF, 0x02] []) = .ok (.lda (.mem (.absoluteX 0x02FF))) ∧ 0xBD ∈ crossMarks ∧
      ∃ t, step { start [0xBD, 0xFF, 0x02] [] with x := 0x01 } = .next t ∧ t.run = .running ∧ t.cyc = 12) ∧
    ((start [0xD0, 0xFC] []).readByte 0x0600 = some 0xD0 ∧ fetch (start [0xD0, 0xFC] []) = .ok (.bne 0xFC) ∧ 0xD0 ∈ branchOpcodes ∧
      ∃ t, step (start [0xD0, 0xFC] []) = .next t ∧ t.run = .running ∧ t.cyc = 11) ∧
    ((start [0xAA] []).readByte 0x0600 = some 0xAA ∧ fetch (start [0xAA] []) = .ok .tax ∧ 0xAA ∉ crossMarks ∧ 0xAA ∉ branchOpcodes ∧
      ∃ t, step (start [0xAA] []) = .next t ∧ t.run = .running ∧ t.cyc = 9) :=
  ⟨⟨by decide, by decide, by decide, _, rfl, by decide, by decide⟩, ⟨by decide, by decide, by decide, _, rfl, by decide, by decide⟩,
    ⟨by decide, by decide, by decide, by decide, _, rfl, by decide, by decide⟩⟩

theorem witness_SuccessfulStepsAdvanceByTheLength :
    fetch (start [0xAA] []) = .ok .tax ∧ (∃ t, step (start [0xAA] []) = .next t ∧ t.run = .running) ∧ setsPC .tax = false :=
  ⟨by decide, ⟨_, rfl, by decide⟩, by decide⟩

theorem witness_CycleCountInfluencesNothing :
    (∃ t, step State.reset = .next t) ∧ ∃ r, step { State.reset with run := .stopped .brk } = .fault r := ⟨⟨_, rfl⟩, _, rfl⟩

theorem witness_BreakFlagInfluencesNothing : ∃ t, step (start [0x08] []) = .next t := ⟨_, rfl⟩

theorem witness_DecimalFlagDoesNotChangeArithmetic :
    Instr.adc (.immediate 0x01) ∈ [Instr.adc (.immediate 0x01), .sbc (.immediate 0x01), .sbcImmediateEB 0x00, .rra (.zeroPage 0x10), .isc (.zeroPage 0x10)] ∧
    ∃ t, exec (.adc (.immediate 0x01)) State.reset = .next t := ⟨by decide, _, rfl⟩

theorem witness_ByteIsItsBitArray :
    255 < 256 ∧ byteOfBits [true, true, true, true, true, true, true, true] = some 0xFF ∧ 7 < 8 ∧ 8 ≤ 8 := by decide

theorem witness_ZeroPageModesStayInPageZero :
    Instr.lax (.zeroPageY 0xFF) ∈ readersOf (.zeroPageY 0xFF) 0x04 ++ storersOf (.zeroPageY 0xFF) ∧
    (Instr.lax (.zeroPageY 0xFF)).wellFormed true = true ∧ (Instr.lda (.mem (.zeroPageY 0xFF))).wellFormed true = false := by decide

theorem witness_WordIsItsPairOfBytes : 65535 < 65536 := by decide

theorem witness_IndirectModesReadTheirPointer :
    (start [] [(0x0000, 0x03)]).readByte (BitVec.ofNat 16 ((0xFE + (0x01 : Byte).toNat) % 256)) = some 0x00 ∧
    (start [] [(0x0000, 0x03)]).readByte (BitVec.ofNat 16 ((0xFE + (0x01 : Byte).toNat + 1) % 256)) = some 0x03 ∧
    (start [] [(0x0000, 0x04)]).readByte (BitVec.ofNat 16 (0xFF : Byte).toNat) = some 0x00 ∧
    (start [] [(0x0000, 0x04)]).readByte (BitVec.ofNat 16 (((0xFF : Byte).toNat + 1) % 256)) = some 0x04 := by decide

/-- The pointer's low byte, its high byte, and the effective address. -/
theorem witness_UnreadableOperandOnlyStopsTheRun :
    (pointerReads (.indirectIndexed 0x10) (strict 0x0600 0x06FF State.reset)).find?
      (fun a => ((strict 0x0600 0x06FF State.reset).readByte a).isNone) = some 0x0010 ∧
    (pointerReads (.indexedIndirect 0xFF) (strict 0x00FF 0x0100 State.reset)).find?
      (fun a => ((strict 0x00FF 0x0100 State.reset).readByte a).isNone) = some 0x0000 ∧
    (pointerReads (.absolute 0x0700) (strict 0x0600 0x06FF State.reset)).find?
      (fun a => ((strict 0x0600 0x06FF State.reset).readByte a).isNone) = none ∧
    Instr.lda (.mem (.absolute 0x0700)) ∈ readersOf (.absolute 0x0700) 0x0C ∧ Instr.sax (.absolute 0x0700) ∈ storersOf (.absolute 0x0700) ∧
    resolve (.absolute 0x0700) (strict 0x0600 0x06FF State.reset) = .ok ⟨0x0700, false⟩ ∧
    (strict 0x0600 0x06FF State.reset).readByte 0x0700 = none := by decide

/-- A literal, and a page-crossing memory operand with its resolver's answer and its byte. -/
theorem witness_LoadsComplete :
    resolve (.absoluteY 0x02FF) { start [] [(0x0300, 0x42)] with y := 0x01 } = .ok ⟨0x0300, true⟩ ∧
    State.readByte { start [] [(0x0300, 0x42)] with y := 0x01 } 0x0300 = some 0x42 ∧
    load (.immediate 0x80) State.reset = .ok ⟨0x80, false⟩ ∧
    loadMem (.absoluteY 0x02FF) { start [] [(0x0300, 0x42)] with y := 0x01 } = .ok ⟨0x42, true⟩ := by decide

/-- Stores to RAM, and to PRG-ROM that ignores them. -/
theorem witness_StoresComplete :
    State.reset.Inv ∧ resolve (.absolute 0x8000) State.reset = .ok ⟨0x8000, false⟩ ∧
    (resolveCell State.reset.cfg 0x8000).isSome = true ∧
    (resolveCell { Config.default with romBanks := .one } 0x8000).isSome = true ∧
    ignoresWrite { Config.default with romBanks := .one } 0x8000 = true ∧
    (Instr.sax (.absolute 0x8000), State.reset.a &&& State.reset.x) ∈
      [(Instr.sta (.absolute 0x8000), State.reset.a), (.stx (.absolute 0x8000), State.reset.x), (.sty (.absolute 0x8000), State.reset.y),
       (.sax (.absolute 0x8000), State.reset.a &&& State.reset.x)] := by decide

theorem witness_AddWithCarryCompletes : load (.immediate 0x50) State.reset = .ok ⟨0x50, false⟩ := by decide

theorem witness_SubtractWithBorrowCompletes :
    load (.immediate 0x03) State.reset = .ok ⟨0x03, false⟩ ∧ State.reset.cfg.usbcEb = true ∧
    ({ State.reset with cfg := { Config.default with usbcEb := false } } : State).cfg.usbcEb = false := by decide

theorem witness_LogicCompletes :
    load (.mem (.zeroPage 0x10)) (start [] [(0x0010, 0xC0)]) = .ok ⟨0xC0, false⟩ ∧
    loadMem (.zeroPage 0x10) (start [] [(0x0010, 0xC0)]) = .ok ⟨0xC0, false⟩ ∧
    (Instr.eor (.mem (.zeroPage 0x10)), (0xC0 : Byte)) ∈ [(Instr.and (.mem (.zeroPage 0x10)), State.reset.a &&& 0xC0),
      (.ora (.mem (.zeroPage 0x10)), State.reset.a ||| 0xC0), (.eor (.mem (.zeroPage 0x10)), State.reset.a ^^^ 0xC0)] := by decide

theorem witness_ComparesComplete : load (.immediate 0x80) State.reset = .ok ⟨0x80, false⟩ ∧
    (Instr.cpy (.immediate 0x80), State.reset.y) ∈ [(Instr.cmp (.immediate 0x80), State.reset.a), (.cpx (.immediate 0x80), State.reset.x),
      (.cpy (.immediate 0x80), State.reset.y)] := by decide

theorem witness_AccumulatorShiftsComplete :
    (Instr.ror .accumulator, State.reset.a.toNat / 2 + 128 * State.reset.flags.c.toNat, decide (State.reset.a.toNat % 2 = 1)) ∈
      [(Instr.asl .accumulator, State.reset.a.toNat * 2 % 256, decide (128 ≤ State.reset.a.toNat)),
       (.lsr .accumulator, State.reset.a.toNat / 2, decide (State.reset.a.toNat % 2 = 1)),
       (.rol .accumulator, (State.reset.a.toNat * 2 + State.reset.flags.c.toNat) % 256, decide (128 ≤ State.reset.a.toNat)),
       (.ror .accumulator, State.reset.a.toNat / 2 + 128 * State.reset.flags.c.toNat, decide (State.reset.a.toNat % 2 = 1))] := by decide

/-- A read-modify-write of RAM at the last address, and the state's memory is canonical. -/
theorem witness_MemoryModifiesComplete :
    (start [] [(0xFFFF, 0x81)]).Inv ∧ resolve (.absolute 0xFFFF) (start [] [(0xFFFF, 0x81)]) = .ok ⟨0xFFFF, false⟩ ∧
    (start [] [(0xFFFF, 0x81)]).readByte 0xFFFF = some 0x81 ∧
    (Instr.inc (.absolute 0xFFFF), 0x82, false) ∈
      [(Instr.asl (.mem (.absolute 0xFFFF)), 0x81 * 2 % 256, decide (128 ≤ 0x81)), (.lsr (.mem (.absolute 0xFFFF)), 0x81 / 2, decide (0x81 % 2 = 1)),
       (.rol (.mem (.absolute 0xFFFF)), (0x81 * 2 + Flags.reset.c.toNat) % 256, decide (128 ≤ 0x81)),
       (.ror (.mem (.absolute 0xFFFF)), 0x81 / 2 + 128 * Flags.reset.c.toNat, decide (0x81 % 2 = 1)),
       (.inc (.absolute 0xFFFF), (0x81 + 1) % 256, Flags.reset.c), (.dec (.absolute 0xFFFF), (0x81 + 255) % 256, Flags.reset.c)] := by decide

theorem witness_ShiftAndLogicCompletes :
    (start [] [(0x0010, 0x81)]).Inv ∧ resolve (.zeroPage 0x10) (start [] [(0x0010, 0x81)]) = .ok ⟨0x0010, false⟩ ∧
    (start [] [(0x0010, 0x81)]).readByte 0x0010 = some 0x81 ∧
    (Instr.sre (.zeroPage 0x10), (0x40 : Byte), (0x40 : Byte), true) ∈
      [(Instr.slo (.zeroPage 0x10), (BitVec.ofNat 8 (0x81 * 2) : Byte), State.reset.a ||| BitVec.ofNat 8 (0x81 * 2), decide (128 ≤ 0x81)),
       (.rla (.zeroPage 0x10), BitVec.ofNat 8 (0x81 * 2 + Flags.reset.c.toNat), State.reset.a &&& BitVec.ofNat 8 (0x81 * 2 + Flags.reset.c.toNat), decide (128 ≤ 0x81)),
       (.sre (.zeroPage 0x10), BitVec.ofNat 8 (0x81 / 2), State.reset.a ^^^ BitVec.ofNat 8 (0x81 / 2), decide (0x81 % 2 = 1))] := by decide

theorem witness_ModifyAndArithmeticCompletes :
    (start [] [(0x0010, 0x01)]).Inv ∧ resolve (.zeroPage 0x10) (start [] [(0x0010, 0x01)]) = .ok ⟨0x0010, false⟩ ∧
    (start [] [(0x0010, 0x01)]).readByte 0x0010 = some 0x01 := by decide

theorem witness_FlagInstructionsComplete :
    (Instr.nop, State.reset.flags) ∈ [(Instr.clc, { State.reset.flags with c := false }), (.sec, { State.reset.flags with c := true }),
      (.cli, { State.reset.flags with i := false }), (.sei, { State.reset.flags with i := true }),
      (.cld, { State.reset.flags with d := false }), (.sed, { State.reset.flags with d := true }),
      (.clv, { State.reset.flags with v := false }), (.nop, State.reset.flags)] := by decide

theorem witness_UnofficialNopsComplete :
    loadMem (.absoluteX 0x02FF) { State.reset with x := 0x01 } = .ok ⟨0x00, true⟩ := by decide

theorem witness_JumpsComplete :
    (start [] [(0x02FF, 0x34), (0x0200, 0x12)]).readByte 0x02FF = some 0x34 ∧
    (start [] [(0x02FF, 0x34), (0x0200, 0x12)]).readByte
      (BitVec.ofNat 16 ((0x02FF : Word).toNat / 256 * 256 + ((0x02FF : Word).toNat % 256 + 1) % 256)) = some 0x12 ∧
    (strict 0x0600 0x06FF State.reset).readByte 0x02FF = none ∧
    ((strict 0x02FF 0x0300 State.reset).readByte 0x02FF).isSome = true ∧ (strict 0x02FF 0x0300 State.reset).readByte 0x0200 = none ∧
    (0x0200 : Word) = BitVec.ofNat 16 ((0x02FF : Word).toNat / 256 * 256 + ((0x02FF : Word).toNat % 256 + 1) % 256) := by decide

/-- Taken and not taken. -/
theorem witness_BranchesComplete :
    (Instr.bne 0xFC, State.reset.flags.z, false) ∈ branchTests State.reset 0xFC ∧ State.reset.flags.z = false ∧
    (Instr.beq 0x7F, State.reset.flags.z, true) ∈ branchTests State.reset 0x7F ∧ State.reset.flags.z ≠ true := by decide

theorem witness_PushesComplete :
    ({ State.reset with sp := 0x01 } : State).Inv ∧ ({ State.reset with sp := 0x01 } : State).sp ≠ 0x00 ∧
    (resolveCell State.reset.cfg (BitVec.ofNat 16 (256 + 0x01))).isSome = true ∧
    (resolveCell State.reset.cfg (BitVec.ofNat 16 (256 + 0xFF))).isSome = true ∧
    (Instr.php, State.reset.flags.pack true) ∈ [(Instr.pha, State.reset.a), (.php, State.reset.flags.pack true)] := by decide

theorem witness_PullsComplete :
    ({ start [] [(0x01FF, 0xC3)] with sp := 0xFE } : State).sp ≠ 0xFF ∧
    State.readByte { start [] [(0x01FF, 0xC3)] with sp := 0xFE } (BitVec.ofNat 16 (256 + 0xFE + 1)) = some 0xC3 := by decide

theorem witness_ExhaustedStackStopsTheRun :
    ({ State.reset with sp := 0x00 } : State).Inv ∧ ({ State.reset with sp := 0x00 } : State).sp = 0x00 ∧
    (resolveCell State.reset.cfg 0x0100).isSome = true ∧ ({ State.reset with sp := 0xFF } : State).sp = 0xFF ∧
    (Instr.jsr 0x0700, hi (State.reset.pc + 2)) ∈ [(Instr.pha, State.reset.a), (.php, State.reset.flags.pack true), (.jsr 0x0700, hi (State.reset.pc + 2))] ∧
    Instr.rti ∈ [Instr.pla, .plp, .rts, .rti] := by decide

theorem witness_SubroutineCallCompletes :
    ({ State.reset with sp := 0x02 } : State).Inv ∧ 2 ≤ ({ State.reset with sp := 0x02 } : State).sp.toNat ∧
    (resolveCell State.reset.cfg (BitVec.ofNat 16 (256 + 0x02))).isSome = true ∧
    (resolveCell State.reset.cfg (BitVec.ofNat 16 (255 + 0x02))).isSome = true := by decide

/-- BRK's third push at SP = 0x02, JSR's second at an unmapped cell, RTI's third pull at SP = 0xFD and at an unmapped cell, BRK's
vector unmapped at either byte. -/
theorem witness_UnfinishedStackWorkStays :
    (({ State.reset with sp := 0x02 } : State).Inv ∧ State.reset.cfg.brkEffects = .full ∧
      (Instr.brk, [hi (State.reset.pc + 2), lo (State.reset.pc + 2), State.reset.flags.pack true]) ∈
        [(Instr.pha, [State.reset.a]), (.php, [State.reset.flags.pack true]), (.jsr 0x0700, [hi (State.reset.pc + 2), lo (State.reset.pc + 2)]),
          (.brk, [hi (State.reset.pc + 2), lo (State.reset.pc + 2), State.reset.flags.pack true])] ∧
      ([0x00, 0x02] : List Byte).length ≤ ({ State.reset with sp := 0x02 } : State).sp.toNat ∧
      (∀ k, k < 2 → (resolveCell State.reset.cfg (BitVec.ofNat 16 (256 + 0x02 - k))).isSome = true) ∧
      (resolveCell State.reset.cfg (BitVec.ofNat 16 (256 + 0x02 - 2))).isSome = true) ∧
    ((strict 0x01FD 0x01FD State.reset).Inv ∧ (strict 0x01FD 0x01FD State.reset).sp = 0xFD ∧
      (resolveCell (strict 0x01FD 0x01FD State.reset).cfg (BitVec.ofNat 16 (256 + 0xFD - 0))).isSome = true ∧
      resolveCell (strict 0x01FD 0x01FD State.reset).cfg (BitVec.ofNat 16 (256 + 0xFD - 1)) = none) ∧
    ((Instr.rti, 3) ∈ [(Instr.pla, 1), (.plp, 1), (.rts, 2), (.rti, 3)] ∧ (0xFD : Byte).toNat + ([0xB5, 0x08] : List Byte).length = 255 ∧
      (∀ k, k < 2 → (start [] [(0x01FE, 0xB5), (0x01FF, 0x08)]).readByte (BitVec.ofNat 16 (257 + 0xFD + k)) = ([0xB5, 0x08] : List Byte)[k]?)) ∧
    ((0xFC : Byte).toNat + ([0xB5, 0x08] : List Byte).length < 255 ∧
      (∀ k, k < 2 → (strict 0x01FD 0x01FE (start [] [(0x01FD, 0xB5), (0x01FE, 0x08)])).readByte (BitVec.ofNat 16 (257 + 0xFC + k)) =
        ([0xB5, 0x08] : List Byte)[k]?) ∧
      resolveCell (strict 0x01FD 0x01FE State.reset).cfg (BitVec.ofNat 16 (257 + 0xFC + 2)) = none) ∧
    (3 ≤ (strict 0x0100 0x01FF State.reset).sp.toNat ∧ (strict 0x0100 0x01FF State.reset).cfg.brkEffects = .full ∧
      (∀ k, k < 3 → (resolveCell (strict 0x0100 0x01FF State.reset).cfg (BitVec.ofNat 16 (256 + 0xFD - k))).isSome = true) ∧
      resolveCell (strict 0x0100 0x01FF State.reset).cfg 0xFFFE = none ∧
      (resolveCell (strict 0x0100 0xFFFE State.reset).cfg 0xFFFE).isSome = true ∧
      resolveCell (strict 0x0100 0xFFFE State.reset).cfg 0xFFFF = none) := by decide

theorem witness_ReturnsComplete :
    (({ start [] [(0x01FE, 0x02), (0x01FF, 0x06)] with sp := 0xFD } : State).sp.toNat < 254 ∧
      (start [] [(0x01FE, 0x02), (0x01FF, 0x06)]).readByte (BitVec.ofNat 16 (257 + 0xFD)) = some 0x02 ∧
      (start [] [(0x01FE, 0x02), (0x01FF, 0x06)]).readByte (BitVec.ofNat 16 (258 + 0xFD)) = some 0x06) ∧
    (({ start [] [(0x01FD, 0xB5), (0x01FE, 0x08), (0x01FF, 0x06)] with sp := 0xFC } : State).sp.toNat < 253 ∧
      (start [] [(0x01FD, 0xB5), (0x01FE, 0x08), (0x01FF, 0x06)]).readByte (BitVec.ofNat 16 (257 + 0xFC)) = some 0xB5 ∧
      (start [] [(0x01FD, 0xB5), (0x01FE, 0x08), (0x01FF, 0x06)]).readByte (BitVec.ofNat 16 (258 + 0xFC)) = some 0x08 ∧
      (start [] [(0x01FD, 0xB5), (0x01FE, 0x08), (0x01FF, 0x06)]).readByte (BitVec.ofNat 16 (259 + 0xFC)) = some 0x06) := by decide

/-- A GENERAL_RAM of the three stack cells of the lowest SP and the vector alone. -/
def breakCells : Config := { Config.default with generalRam := [⟨0x0101, 0x0103⟩, ⟨0xFFFE, 0xFFFF⟩] }

theorem witness_BreakTakesItsEntry :
    ({ State.reset with sp := 0x03, cfg := breakCells } : State).Inv ∧ breakCells.brkEffects = .full ∧ 3 ≤ (0x03 : Byte).toNat ∧
    (resolveCell breakCells (BitVec.ofNat 16 (256 + 0x03))).isSome = true ∧ (resolveCell breakCells (BitVec.ofNat 16 (255 + 0x03))).isSome = true ∧
    (resolveCell breakCells (BitVec.ofNat 16 (254 + 0x03))).isSome = true ∧ (resolveCell breakCells 0xFFFE).isSome = true ∧
    (resolveCell breakCells 0xFFFF).isSome = true ∧
    ({ State.reset with cfg := { Config.default with brkEffects := .signalOnly } } : State).cfg.brkEffects = .signalOnly := by decide

theorem witness_PullUndoesPush :
    ({ State.reset with sp := 0x01 } : State).Inv ∧ ({ State.reset with sp := 0x01 } : State).sp ≠ 0x00 ∧
    (resolveCell State.reset.cfg (BitVec.ofNat 16 (256 + 0x01))).isSome = true := by decide

theorem witness_ReturnComesBackAfterTheCall :
    ({ State.reset with sp := 0x02 } : State).Inv ∧ 2 ≤ ({ State.reset with sp := 0x02 } : State).sp.toNat ∧
    (resolveCell State.reset.cfg (BitVec.ofNat 16 (256 + 0x02))).isSome = true ∧
    (resolveCell State.reset.cfg (BitVec.ofNat 16 (255 + 0x02))).isSome = true := by decide

theorem witness_ConstructionSetsTheResetState :
    (([0x00] : List Byte).length ≠ 0 ∧ ([0x00] : List Byte).length ≠ 16384 ∧ ([0x00] : List Byte).length ≠ 32768) ∧
    romBanksOf Params.default.prgRom.length = some .none ∧
    resolveCell (Params.config { Params.default with generalRam := [⟨0x0000, 0xFFFC⟩] } .none) 0xFFFD = none ∧
    (resolveCell (Params.default.config .none) 0xFFFC).isSome = true ∧ (resolveCell (Params.default.config .none) 0xFFFD).isSome = true ∧
    ([0x11, 0x22] : List Byte)[1]? = some 0x22 ∧ 8192 < 8193 ∧
    resolveCell State.reset.cfg 0xFFFF = some (.generalRam 0xFFFF) :=
  ⟨by decide, rfl, by decide, by decide, by decide, by decide, by decide, by decide⟩

theorem witness_HostAccessorsGoThroughTheMapper :
    State.reset.Inv ∧ (resolveCell State.reset.cfg 0xFFFF).isSome = true ∧
    resolveCell (strict 0x0600 0x06FF State.reset).cfg 0x0700 = none ∧ (start [] [(0x0200, 0x2A)]).readByte 0x0200 = some 0x2A := by decide

end Sys2Proof.Tests
end

section
/-! PROOFS. The value types of 00_scope.md section 5: a byte against its bit array and its signed reading, a word against its
pair of bytes. -/

namespace Sys2Proof.Machine

/-! ### The bit array of a byte -/

theorem bitAt_of_lt (v : Byte) {i : Nat} (h : i < 8) : bitAt v i = some (v.getLsbD i) := by
  unfold bitAt bitArray
  interval_cases i <;> rfl

theorem bitAt_of_ge (v : Byte) {i : Nat} (h : 8 ≤ i) : bitAt v i = none :=
  List.getElem?_eq_none h

/-- A byte has no other content than its bit array. -/
theorem bitArray_injective : Function.Injective bitArray := by
  intro v w h
  refine BitVec.eq_of_getLsbD_eq fun i hi => Option.some.inj ?_
  rw [← bitAt_of_lt v hi, ← bitAt_of_lt w hi, bitAt, bitAt, h]

theorem bitArray_of_byteOfBits {bits : List Bool} {v : Byte} (h : byteOfBits bits = some v) : bitArray v = bits := by
  unfold byteOfBits at h
  split at h
  case h_1 =>
    cases h
    simp only [bitArray, BitVec.getLsbD_append]
    simp
  case h_2 => cases h

/-- The byte built from a bit array has that bit array, so it is the byte the array came from. -/
theorem byteOfBits_bitArray (v : Byte) : byteOfBits (bitArray v) = some v := by
  obtain ⟨w, hw⟩ : ∃ w, byteOfBits (bitArray v) = some w := ⟨_, rfl⟩
  rw [hw, bitArray_injective (bitArray_of_byteOfBits hw)]

theorem getLsbD_eq_binary_digit (v : Byte) (i : Nat) : v.getLsbD i = decide (v.toNat / 2 ^ i % 2 = 1) :=
  Nat.testBit_eq_decide_div_mod_eq

/-! ### The signed reading -/

/-- `signed8` is the library's two's complement reading. -/
theorem signed8_eq_toInt (v : Byte) : signed8 v = v.toInt := by
  rw [signed8, BitVec.toInt_eq_toNat_cond]
  split <;> split <;> omega

theorem signed8_bounds (v : Byte) : -128 ≤ signed8 v ∧ signed8 v ≤ 127 := by
  have hv : v.toNat < 256 := v.isLt
  unfold signed8
  split <;> omega

theorem getLsbD_seven_eq_signed8_neg (v : Byte) : v.getLsbD 7 = decide (signed8 v < 0) := by
  rw [signed8_eq_toInt, ← BitVec.msb_eq_toInt, BitVec.msb_eq_getLsbD_last]

theorem sext16_toNat (v : Byte) : ((sext16 v).toNat : Int) = signed8 v % 65536 := by
  rw [signed8_eq_toInt, sext16, ← BitVec.toInt_signExtend_of_le (v := 16) (by decide : 8 ≤ 16), BitVec.toInt_eq_toNat_cond]
  have hlt : (v.signExtend 16).toNat < 65536 := (v.signExtend 16).isLt
  split <;> omega

theorem branchTarget_toNat (pc : Word) (offset : Byte) :
    ((branchTarget pc offset).toNat : Int) = (pc.toNat + 2 + signed8 offset) % 65536 := by
  have hext := sext16_toNat offset
  have hsum : (branchTarget pc offset).toNat = ((pc.toNat + 2) % 65536 + (sext16 offset).toNat) % 65536 := by
    rw [branchTarget, BitVec.toNat_add, BitVec.toNat_add]
    rfl
  omega

/-! ### The statements about values -/

/-- Settles O25: the bit array determines the byte, and the signed reading is the two's complement one. -/
theorem byteIsItsBitArray : Obligations.ByteIsItsBitArray := by
  unfold Obligations.ByteIsItsBitArray
  refine ⟨fun _ hn => Nat.mod_eq_of_lt hn, byteOfBits_bitArray, fun _ _ h => bitArray_of_byteOfBits h, ?digit, ?sign,
    fun v _ hi => bitAt_of_lt v hi, fun v _ hi => bitAt_of_ge v hi, fun v => ⟨rfl, signed8_bounds v⟩, branchTarget_toNat⟩
  case digit =>
    intro v i hi
    rw [bitAt_of_lt v hi, getLsbD_eq_binary_digit]
  case sign =>
    intro v
    rw [bitAt_of_lt v (by decide), getLsbD_seven_eq_signed8_neg]

/-- Settles O26: the value of the pair is `w16_toNat`, and splitting undoes building both ways. -/
theorem wordIsItsPairOfBytes : Obligations.WordIsItsPairOfBytes := by
  unfold Obligations.WordIsItsPairOfBytes
  refine ⟨fun _ hn => Nat.mod_eq_of_lt hn, ?value, fun l h => ⟨lo_w16 l h, hi_w16 l h⟩, w16_lo_hi,
    fun _ _ => BitVec.toNat_inj.symm⟩
  case value =>
    intro l h
    rw [w16_toNat, Nat.mul_comm]

end Sys2Proof.Machine
end

section
/-! PROOFS. What an instruction means, as one of a few shapes (`Meaning`): the one case split over the instructions, from
which the facts about every step follow. -/

namespace Sys2Proof.Machine

/-! ### Operations that see no more than registers and flags -/

/-- The state with CYC `k` higher and `b` in the break flag. -/
def State.twin (s : State) (k : Nat) (b : Bool) : State := { s with cyc := s.cyc + k, flags := { s.flags with b := b } }

/-- An update of registers and flags that neither looks at CYC or B nor changes them. -/
structure Plain (f : State → State) : Prop where
  held : ∀ s, Held s (f s)
  twin : ∀ s k b, f (s.twin k b) = (f s).twin k b
  keepsB : ∀ s, (f s).flags.b = s.flags.b

/-- A value computed without CYC and B. -/
def Blind {α : Type} (g : State → α) : Prop := ∀ s k b, g (s.twin k b) = g s

/-- A one-operand primitive that neither looks at B nor changes it. -/
def Primitive.IgnoresB (prim : Primitive) : Prop :=
  ∀ v f b, prim v { f with b := b } = ⟨(prim v f).value, { (prim v f).flags with b := b }⟩ ∧ (prim v f).flags.b = f.b

theorem plain_id : Plain (fun s => s) := ⟨Held.refl, fun _ _ _ => rfl, fun _ => rfl⟩

theorem plain_setSP (g : State → Byte) (hg : Blind g) : Plain (fun s => s.setSP (g s)) :=
  ⟨fun s => (Held.refl s).setSP _, fun s k b => by rw [hg]; rfl, fun _ => rfl⟩

theorem plain_loadA (g : State → Byte) (hg : Blind g) : Plain (fun s => s.loadA (g s)) :=
  ⟨fun s => ((Held.refl s).setA _).setFlags _, fun s k b => by rw [hg]; rfl, fun _ => rfl⟩

theorem plain_loadX (g : State → Byte) (hg : Blind g) : Plain (fun s => s.loadX (g s)) :=
  ⟨fun s => ((Held.refl s).setX _).setFlags _, fun s k b => by rw [hg]; rfl, fun _ => rfl⟩

theorem plain_loadY (g : State → Byte) (hg : Blind g) : Plain (fun s => s.loadY (g s)) :=
  ⟨fun s => ((Held.refl s).setY _).setFlags _, fun s k b => by rw [hg]; rfl, fun _ => rfl⟩

theorem plain_loadAX (v : Byte) : Plain (fun s => (s.setA v).loadX v) :=
  ⟨fun s => (((Held.refl s).setA v).setX v).setFlags _, fun _ _ _ => rfl, fun _ => rfl⟩

theorem plain_adc (m : Byte) : Plain (fun s => s.adc m) :=
  ⟨fun s => ((Held.refl s).setA _).setFlags _, fun _ _ _ => rfl, fun _ => rfl⟩

theorem plain_sbc (m : Byte) : Plain (fun s => s.sbc m) := plain_adc (~~~m)

theorem plain_compare (g : State → Byte) (hg : Blind g) (m : Byte) : Plain (fun s => s.compare (g s) m) :=
  ⟨fun s => (Held.refl s).setFlags _, fun s k b => by rw [hg]; rfl, fun _ => rfl⟩

theorem plain_setZN (v : Byte) : Plain (fun s => s.setZN v) :=
  ⟨fun s => (Held.refl s).setFlags _, fun _ _ _ => rfl, fun _ => rfl⟩

theorem plain_bitTest (m : Byte) : Plain (fun s => s.setFlags (s.flags.bitTest s.a m)) :=
  ⟨fun s => (Held.refl s).setFlags _, fun _ _ _ => rfl, fun _ => rfl⟩

/-- A flag instruction whose function of the flags leaves B aside. -/
theorem plain_setFlags (g : Flags → Flags) (hg : ∀ f b, g { f with b := b } = { g f with b := b }) (hb : ∀ f, (g f).b = f.b) :
    Plain (fun s => s.setFlags (g s.flags)) :=
  ⟨fun s => (Held.refl s).setFlags _, fun s k b => congrArg (s.twin k b).setFlags (hg s.flags b), fun s => hb s.flags⟩

theorem Plain.comp {f g : State → State} (hf : Plain f) (hg : Plain g) : Plain (fun s => g (f s)) :=
  ⟨fun s => (hf.held s).trans (hg.held (f s)), fun s k b => by rw [hf.twin, hg.twin],
    fun s => (hg.keepsB (f s)).trans (hf.keepsB s)⟩

theorem ignoresB_aslOp : aslOp.IgnoresB := fun _ _ _ => ⟨rfl, rfl⟩
theorem ignoresB_lsrOp : lsrOp.IgnoresB := fun _ _ _ => ⟨rfl, rfl⟩
theorem ignoresB_rolOp : rolOp.IgnoresB := fun _ _ _ => ⟨rfl, rfl⟩
theorem ignoresB_rorOp : rorOp.IgnoresB := fun _ _ _ => ⟨rfl, rfl⟩
theorem ignoresB_incOp : incOp.IgnoresB := fun _ _ _ => ⟨rfl, rfl⟩
theorem ignoresB_decOp : decOp.IgnoresB := fun _ _ _ => ⟨rfl, rfl⟩

/-! ### The shapes of a meaning -/

/-- `Meaning i F`: the meaning `F` of instruction `i` is one of the shapes of 40_addressing.md R138, or one of the
instructions of the stack. Every shape but the jumps advances by the instruction's own length. -/
inductive Meaning (i : Instr) : (State → Out) → Prop where
  | read (o : ReadOperand) (f : Byte → State → State) (hf : ∀ v, Plain (f v)) (hlen : i.length = o.len)
      (hpc : setsPC i = false) : Meaning i (readWith o f)
  | store (m : MemOperand) (g : State → Byte) (hg : Blind g) (hlen : i.length = m.len) (hpc : setsPC i = false) :
      Meaning i (fun s => storeValue m (g s) s)
  | modify (m : MemOperand) (prim : Primitive) (after : Byte → State → State) (hprim : prim.IgnoresB)
      (hafter : ∀ r, Plain (after r)) (hlen : i.length = m.len) (hpc : setsPC i = false) : Meaning i (modifyWith m prim after)
  | shiftA (prim : Primitive) (hprim : prim.IgnoresB) (hlen : i.length = 1) (hpc : setsPC i = false) :
      Meaning i (shiftWith .accumulator prim)
  | implied (f : State → State) (hf : Plain f) (hlen : i.length = 1) (hpc : setsPC i = false) : Meaning i (implied f)
  | branch (cond : State → Bool) (offset : Byte) (hcond : Blind cond) (hpc : setsPC i = true) :
      Meaning i (fun s => branchIf (cond s) offset s)
  | jmp (o : JumpOperand) (hi : i = .jmp o) : Meaning i (execJmp o)
  | pha (hi : i = .pha) : Meaning i execPha
  | php (hi : i = .php) : Meaning i execPhp
  | pla (hi : i = .pla) : Meaning i execPla
  | plp (hi : i = .plp) : Meaning i execPlp
  | jsr (target : Word) (hi : i = .jsr target) : Meaning i (execJsr target)
  | rts (hi : i = .rts) : Meaning i execRts
  | brk (hi : i = .brk) : Meaning i execBrk
  | rti (hi : i = .rti) : Meaning i execRti
  | sbcEB (v : Byte) (hi : i = .sbcImmediateEB v) : Meaning i (execSbcImmediateEB v)
  | unknown (op : Byte) (hi : i = .unknown op) : Meaning i (execUnknown op)

/-- A shift in either of its forms. -/
theorem Meaning.shift {i : Instr} (o : ShiftOperand) {prim : Primitive} (hprim : prim.IgnoresB) (hlen : i.length = o.len)
    (hpc : setsPC i = false) : Meaning i (shiftWith o prim) := by
  cases o with
  | accumulator => exact .shiftA prim hprim hlen hpc
  | mem m => exact .modify m prim _ hprim plain_setZN hlen hpc

/-- Every instruction has one of the shapes. -/
theorem exec_meaning (i : Instr) : Meaning i (exec i) := by
  cases i with
  | lda o => exact .read o _ (fun v => plain_loadA (fun _ => v) fun _ _ _ => rfl) rfl rfl
  | ldx o => exact .read o _ (fun v => plain_loadX (fun _ => v) fun _ _ _ => rfl) rfl rfl
  | ldy o => exact .read o _ (fun v => plain_loadY (fun _ => v) fun _ _ _ => rfl) rfl rfl
  | sta m => exact .store m State.a (fun _ _ _ => rfl) rfl rfl
  | stx m => exact .store m State.x (fun _ _ _ => rfl) rfl rfl
  | sty m => exact .store m State.y (fun _ _ _ => rfl) rfl rfl
  | tax => exact .implied _ (plain_loadX State.a fun _ _ _ => rfl) rfl rfl
  | tay => exact .implied _ (plain_loadY State.a fun _ _ _ => rfl) rfl rfl
  | txa => exact .implied _ (plain_loadA State.x fun _ _ _ => rfl) rfl rfl
  | tya => exact .implied _ (plain_loadA State.y fun _ _ _ => rfl) rfl rfl
  | tsx => exact .implied _ (plain_loadX State.sp fun _ _ _ => rfl) rfl rfl
  | txs => exact .implied _ (plain_setSP State.x fun _ _ _ => rfl) rfl rfl
  | adc o => exact .read o _ plain_adc rfl rfl
  | sbc o => exact .read o _ plain_sbc rfl rfl
  | and o => exact .read o _ (fun v => plain_loadA (fun s => s.a &&& v) fun _ _ _ => rfl) rfl rfl
  | ora o => exact .read o _ (fun v => plain_loadA (fun s => s.a ||| v) fun _ _ _ => rfl) rfl rfl
  | eor o => exact .read o _ (fun v => plain_loadA (fun s => s.a ^^^ v) fun _ _ _ => rfl) rfl rfl
  | bit m => exact .read (.mem m) _ plain_bitTest rfl rfl
  | asl o => exact .shift o ignoresB_aslOp rfl rfl
  | lsr o => exact .shift o ignoresB_lsrOp rfl rfl
  | rol o => exact .shift o ignoresB_rolOp rfl rfl
  | ror o => exact .shift o ignoresB_rorOp rfl rfl
  | cmp o => exact .read o _ (plain_compare State.a fun _ _ _ => rfl) rfl rfl
  | cpx o => exact .read o _ (plain_compare State.x fun _ _ _ => rfl) rfl rfl
  | cpy o => exact .read o _ (plain_compare State.y fun _ _ _ => rfl) rfl rfl
  | inc m => exact .modify m _ _ ignoresB_incOp plain_setZN rfl rfl
  | dec m => exact .modify m _ _ ignoresB_decOp plain_setZN rfl rfl
  | inx => exact .implied _ (plain_loadX (fun s => s.x + 1) fun _ _ _ => rfl) rfl rfl
  | iny => exact .implied _ (plain_loadY (fun s => s.y + 1) fun _ _ _ => rfl) rfl rfl
  | dex => exact .implied _ (plain_loadX (fun s => s.x - 1) fun _ _ _ => rfl) rfl rfl
  | dey => exact .implied _ (plain_loadY (fun s => s.y - 1) fun _ _ _ => rfl) rfl rfl
  | pha => exact .pha rfl
  | pla => exact .pla rfl
  | php => exact .php rfl
  | plp => exact .plp rfl
  | jsr target => exact .jsr target rfl
  | rts => exact .rts rfl
  | brk => exact .brk rfl
  | rti => exact .rti rfl
  | jmp o => exact .jmp o rfl
  | bpl offset => exact .branch (fun s => !s.flags.n) offset (fun _ _ _ => rfl) rfl
  | bmi offset => exact .branch (fun s => s.flags.n) offset (fun _ _ _ => rfl) rfl
  | bvc offset => exact .branch (fun s => !s.flags.v) offset (fun _ _ _ => rfl) rfl
  | bvs offset => exact .branch (fun s => s.flags.v) offset (fun _ _ _ => rfl) rfl
  | bcc offset => exact .branch (fun s => !s.flags.c) offset (fun _ _ _ => rfl) rfl
  | bcs offset => exact .branch (fun s => s.flags.c) offset (fun _ _ _ => rfl) rfl
  | bne offset => exact .branch (fun s => !s.flags.z) offset (fun _ _ _ => rfl) rfl
  | beq offset => exact .branch (fun s => s.flags.z) offset (fun _ _ _ => rfl) rfl
  | clc => exact .implied _ (plain_setFlags (fun f => { f with c := false }) (fun _ _ => rfl) fun _ => rfl) rfl rfl
  | sec => exact .implied _ (plain_setFlags (fun f => { f with c := true }) (fun _ _ => rfl) fun _ => rfl) rfl rfl
  | cli => exact .implied _ (plain_setFlags (fun f => { f with i := false }) (fun _ _ => rfl) fun _ => rfl) rfl rfl
  | sei => exact .implied _ (plain_setFlags (fun f => { f with i := true }) (fun _ _ => rfl) fun _ => rfl) rfl rfl
  | cld => exact .implied _ (plain_setFlags (fun f => { f with d := false }) (fun _ _ => rfl) fun _ => rfl) rfl rfl
  | sed => exact .implied _ (plain_setFlags (fun f => { f with d := true }) (fun _ _ => rfl) fun _ => rfl) rfl rfl
  | clv => exact .implied _ (plain_setFlags (fun f => { f with v := false }) (fun _ _ => rfl) fun _ => rfl) rfl rfl
  | nop => exact .implied _ plain_id rfl rfl
  | slo m => exact .modify m _ _ ignoresB_aslOp (fun r => plain_loadA (fun s => s.a ||| r) fun _ _ _ => rfl) rfl rfl
  | rla m => exact .modify m _ _ ignoresB_rolOp (fun r => plain_loadA (fun s => s.a &&& r) fun _ _ _ => rfl) rfl rfl
  | sre m => exact .modify m _ _ ignoresB_lsrOp (fun r => plain_loadA (fun s => s.a ^^^ r) fun _ _ _ => rfl) rfl rfl
  | rra m => exact .modify m _ _ ignoresB_rorOp plain_adc rfl rfl
  | dcp m =>
    exact .modify m _ _ ignoresB_decOp (fun r => (plain_setZN r).comp (plain_compare State.a (fun _ _ _ => rfl) r)) rfl rfl
  | isc m => exact .modify m _ _ ignoresB_incOp (fun r => (plain_setZN r).comp (plain_sbc r)) rfl rfl
  | lax m => exact .read (.mem m) _ plain_loadAX rfl rfl
  | sax m => exact .store m (fun s => s.a &&& s.x) (fun _ _ _ => rfl) rfl rfl
  | nopImplied op => exact .implied _ plain_id rfl rfl
  | nopImmediate op v => exact .read (.immediate v) _ (fun _ => plain_id) rfl rfl
  | nopMemory op m => exact .read (.mem m) _ (fun _ => plain_id) rfl rfl
  | sbcImmediateEB v => exact .sbcEB v rfl
  | unknown op => exact .unknown op rfl

end Sys2Proof.Machine
end

section
/-! PROOFS. What any instruction can leave (`Left`), from its shape: writes through the mapper, and PC and CYC at the end
alone (10_state.md R35, R45, R48; 60_exceptions.md R302). -/

namespace Sys2Proof.Machine

/-- The states an execution of `i` in `s` can leave. What it did before its end is held to registers, flags and writes. -/
inductive Left (i : Instr) (s : State) : State → Prop where
  /-- It succeeds and advances (40_addressing.md R138). -/
  | advanced {u : State} (k : Nat) (hu : Held s u) : Left i s (u.advance i.length k)
  /-- It succeeds and sets PC itself. -/
  | jumped {u : State} (target : Word) (k : Nat) (hu : Held s u) (hi : setsPC i = true) : Left i s (u.jumpTo target k)
  /-- It raises `e` (60_exceptions.md R302). -/
  | raised {u : State} (e : StepError) (hu : Held s u) : Left i s (u.setRun (.stopped e))
  /-- It is BRK and went through its entry before it raises Break (60_exceptions.md R311). -/
  | broke {u : State} (target : Word) (hu : Held s u) (hi : i = .brk) (hfull : s.cfg.brkEffects = .full) :
      Left i s ((u.setPC target).setRun (.stopped .brk))

/-- A finished body leaves what its last state is, or raises with the registers and writes of its parts. -/
theorem Left.of_finish {i : Instr} {s t : State} {r : Res State} (h : finish r = .next t)
    (hok : ∀ u, r = .ok u → Left i s u) (herr : ∀ e u, r = .err e u → Held s u) : Left i s t := by
  rcases finish_eq_next h with hr | ⟨e, u, hr, rfl⟩
  · exact hok t hr
  · exact .raised e (herr e u hr)

theorem Left.of_readWith {i : Instr} {o : ReadOperand} {f : Byte → State → State} {s t : State}
    (h : readWith o f s = .next t) (hf : ∀ v, Plain (f v)) (hlen : i.length = o.len) : Left i s t := by
  rcases readWith_cases h with ⟨l, -, rfl⟩ | ⟨a, -, rfl⟩
  · rw [← hlen]
    exact .advanced _ ((hf _).held s)
  · exact .raised _ (.refl s)

theorem Left.of_storeValue {i : Instr} {m : MemOperand} {v : Byte} {s t : State}
    (h : storeValue m v s = .next t) (hlen : i.length = m.len) : Left i s t := by
  rcases storeValue_cases h with ⟨r, u, -, hu, rfl⟩ | ⟨a, d, -, rfl⟩
  · rw [← hlen]
    exact .advanced _ (writeByte_held hu)
  · exact .raised _ (.refl s)

theorem Left.of_modifyWith {i : Instr} {m : MemOperand} {prim : Primitive} {after : Byte → State → State} {s t : State}
    (h : modifyWith m prim after s = .next t) (hafter : ∀ r, Plain (after r)) (hlen : i.length = m.len) : Left i s t := by
  rcases modifyWith_cases h with ⟨r, v, u, -, -, hu, rfl⟩ | ⟨a, -, rfl⟩
  · rw [← hlen]
    exact .advanced _ ((((Held.refl s).setFlags _).trans (writeByte_held hu)).trans ((hafter _).held u))
  · exact .raised _ (.refl s)

/-- A push instruction (46_stack_subroutine.md R222, R224). -/
theorem Left.of_push {i : Instr} {v : Byte} {s t : State} (h : finish ((push v s).bind fun u => .ok (u.advance 1 3)) = .next t)
    (hlen : i.length = 1) : Left i s t := by
  refine .of_finish h (fun u hu => ?_) fun e u hu => ?_
  · obtain ⟨w, hw, hu⟩ := Res.bind_eq_ok hu
    cases hu
    rw [← hlen]
    exact .advanced 3 (push_held hw)
  · rcases Res.bind_eq_err hu with hu | ⟨w, -, hu⟩
    · exact push_held_err hu
    · cases hu

/-- A pull instruction whose update `f` of registers and flags comes after the pull (46 R223, R225). -/
theorem Left.of_pull {i : Instr} {f : Pulled → State} {s t : State}
    (h : finish ((pull s).bind fun p => .ok ((f p).advance 1 4)) = .next t) (hf : ∀ p, Held p.state (f p))
    (hlen : i.length = 1) : Left i s t := by
  refine .of_finish h (fun u hu => ?_) fun e u hu => ?_
  · obtain ⟨p, hp, hu⟩ := Res.bind_eq_ok hu
    cases hu
    rw [← hlen]
    exact .advanced 4 ((pull_held hp).trans (hf p))
  · rcases Res.bind_eq_err hu with hu | ⟨w, -, hu⟩
    · exact pull_held_err hu
    · cases hu

theorem Left.of_jmp {o : JumpOperand} {s t : State} (h : execJmp o s = .next t) : Left (.jmp o) s t := by
  refine .of_finish h (fun u hu => ?_) fun e u hu => ?_
  · obtain ⟨target, -, hu⟩ := Res.bind_eq_ok hu
    cases hu
    exact .jumped target _ (.refl s) rfl
  · rcases Res.bind_eq_err hu with hu | ⟨w, -, hu⟩
    · cases o with
      | absolute target => cases hu
      | indirect ptr => rw [(readPair_err hu).1]; exact .refl s
    · cases hu

theorem Left.of_jsr {target : Word} {s t : State} (h : execJsr target s = .next t) : Left (.jsr target) s t := by
  refine .of_finish h (fun u hu => ?_) fun e u hu => ?_
  · obtain ⟨w, hw, hu⟩ := Res.bind_eq_ok hu
    cases hu
    exact .jumped target 6 (pushWord_held hw) rfl
  · rcases Res.bind_eq_err hu with hu | ⟨w, -, hu⟩
    · exact pushWord_held_err hu
    · cases hu

theorem Left.of_rts {s t : State} (h : execRts s = .next t) : Left .rts s t := by
  refine .of_finish h (fun u hu => ?_) fun e u hu => ?_
  · obtain ⟨r, hr, hu⟩ := Res.bind_eq_ok hu
    cases hu
    exact .jumped _ 6 (pullWord_held hr) rfl
  · rcases Res.bind_eq_err hu with hu | ⟨w, -, hu⟩
    · exact pullWord_held_err hu
    · cases hu

theorem Left.of_rti {s t : State} (h : execRti s = .next t) : Left .rti s t := by
  refine .of_finish h (fun u hu => ?_) fun e u => interruptReturn_err
  obtain ⟨w, target, hw, rfl⟩ := interruptReturn_ok hu
  exact .jumped target 6 hw rfl

/-- BRK never succeeds: it raises at once, in its entry, or after it (46 R228). -/
theorem Left.of_brk {s t : State} (h : execBrk s = .next t) : Left .brk s t := by
  unfold execBrk at h
  split at h
  case h_2 =>
    cases h
    exact .raised .brk (.refl s)
  case h_1 hfull =>
    rcases finish_eq_next h with hr | ⟨e, u, hr, rfl⟩
    · obtain ⟨w, -, hw⟩ := Res.bind_eq_ok hr
      cases hw
    · rcases Res.bind_eq_err hr with hr | ⟨w, hw, hr⟩
      · exact .raised e (breakEntry_err hr)
      · cases hr
        obtain ⟨v, target, hv, rfl⟩ := breakEntry_ok hw
        exact .broke target hv rfl hfull

theorem Meaning.left {i : Instr} {F : State → Out} (hF : Meaning i F) {s t : State} (h : F s = .next t) : Left i s t := by
  cases hF with
  | read o f hf hlen _ => exact .of_readWith h hf hlen
  | store m g _ hlen _ => exact .of_storeValue h hlen
  | modify m prim after _ hafter hlen _ => exact .of_modifyWith h hafter hlen
  | shiftA prim _ hlen _ =>
    cases h
    rw [← hlen]
    exact .advanced _ ((((Held.refl s).setFlags _).setA _).setFlags _)
  | implied f hf hlen _ =>
    cases h
    rw [← hlen]
    exact .advanced 2 (hf.held s)
  | branch cond offset _ hpc =>
    unfold branchIf at h
    dsimp only at h
    split at h
    · cases h
      exact .jumped _ _ (.refl s) hpc
    · cases h
      exact .jumped (s.pc + 2) 2 (.refl s) hpc
  | jmp o hi => subst hi; exact .of_jmp h
  | pha hi => subst hi; exact .of_push h rfl
  | php hi => subst hi; exact .of_push h rfl
  | pla hi => subst hi; exact .of_pull h (fun p => ((Held.refl _).setA _).setFlags _) rfl
  | plp hi => subst hi; exact .of_pull h (fun p => (Held.refl _).setFlags _) rfl
  | jsr target hi => subst hi; exact .of_jsr h
  | rts hi => subst hi; exact .of_rts h
  | brk hi => subst hi; exact .of_brk h
  | rti hi => subst hi; exact .of_rti h
  | sbcEB v hi =>
    subst hi
    unfold execSbcImmediateEB at h
    split at h
    · exact .of_readWith h plain_sbc rfl
    · cases h
      exact .raised _ (.refl s)
  | unknown op hi =>
    cases h
    exact .raised _ (.refl s)

/-- What any instruction leaves. -/
theorem exec_left {i : Instr} {s t : State} (h : exec i s = .next t) : Left i s t := (exec_meaning i).left h

/-- No instruction writes the configuration (10_state.md R48). -/
theorem Left.cfg {i : Instr} {s t : State} (h : Left i s t) : t.cfg = s.cfg := by
  cases h with
  | advanced k hu => exact hu.cfg
  | jumped target k hu _ => exact hu.cfg
  | raised e hu => exact hu.cfg
  | broke target hu _ _ => exact hu.cfg

/-- An instruction changes memory by writes through the mapper alone (20_memory.md R72). -/
theorem Left.mem {i : Instr} {s t : State} (h : Left i s t) : Writes s.cfg s.mem t.mem := by
  cases h with
  | advanced k hu => exact hu.mem
  | jumped target k hu _ => exact hu.mem
  | raised e hu => exact hu.mem
  | broke target hu _ _ => exact hu.mem

/-! ### The step -/

theorem memRead_then_ok_err {a : Word} {s t : State} {α : Type} {k : Byte → α} {e : StepError}
    (h : ((memRead a s).bind fun b => Res.ok (k b)) = .err e t) : t = s := by
  rcases Res.bind_eq_err h with h | ⟨b, -, h⟩
  · exact (memRead_err.1 h).2.2
  · cases h

/-- A fetch that fails changes nothing (60 R309). -/
theorem fetch_err {s t : State} {e : StepError} (h : fetch s = .err e t) : t = s := by
  rcases Res.bind_eq_err h with h | ⟨op, -, h⟩
  · exact (memRead_err.1 h).2.2
  · split at h
    · cases h
    · exact memRead_then_ok_err h
    · rcases Res.bind_eq_err h with h | ⟨b, -, h⟩
      · exact (memRead_err.1 h).2.2
      · exact memRead_then_ok_err h

/-- A step with a next state is the execution of the fetched instruction, or an error of the fetch. -/
theorem step_cases {s t : State} (h : step s = .next t) :
    (∃ i, fetch s = .ok i ∧ exec i s = .next t) ∨ (∃ e, t = s.setRun (.stopped e)) := by
  unfold step at h
  split at h
  · cases h
  · split at h
    case h_1 i hi => exact .inl ⟨i, hi, h⟩
    case h_2 e u hu =>
      cases h
      exact .inr ⟨e, by rw [fetch_err hu]⟩

/-- No step writes the configuration, and memory changes by writes through the mapper alone. -/
theorem step_writes {s t : State} (h : step s = .next t) : t.cfg = s.cfg ∧ Writes s.cfg s.mem t.mem := by
  rcases step_cases h with ⟨i, -, h⟩ | ⟨e, rfl⟩
  · exact ⟨(exec_left h).cfg, (exec_left h).mem⟩
  · exact ⟨rfl, .none⟩

/-- Writes through the mapper keep the invariant. -/
theorem Writes.inv {s t : State} (hs : s.Inv) (hcfg : t.cfg = s.cfg) (hmem : Writes s.cfg s.mem t.mem) : t.Inv := by
  obtain ⟨hwf, hwithin⟩ := hs
  exact ⟨hmem.wf hwf, by rw [hcfg]; exact hmem.within hwithin⟩

/-! ### Runs -/

/-- `s` has the configuration construction gave it, and memory as construction left it but for writes through the mapper. -/
def RunOf (p : Params) (b : RomBanks) (s : State) : Prop :=
  s.cfg = p.config b ∧ Writes (p.config b) (beforeVector p b).mem s.mem

theorem construct_ok {p : Params} {s : State} (h : construct p = .ok s) :
    ∃ b pc, romBanksOf p.prgRom.length = some b ∧ read16 0xFFFC (beforeVector p b) = .ok pc ∧
      s = (beforeVector p b).setPC pc := by
  unfold construct at h
  split at h
  · cases h
  · split at h
    · cases h
      exact ⟨_, _, ‹_›, ‹_›, rfl⟩
    · cases h

theorem external_writes {op : ExternalOp} {s t : State} (h : op.apply s = .ok t) :
    t.cfg = s.cfg ∧ Writes s.cfg s.mem t.mem := by
  cases op with
  | setA v => cases h; exact ⟨rfl, .none⟩
  | setX v => cases h; exact ⟨rfl, .none⟩
  | setY v => cases h; exact ⟨rfl, .none⟩
  | setPC w => cases h; exact ⟨rfl, .none⟩
  | write a v =>
    simp only [ExternalOp.apply, writeMem] at h
    split at h
    · cases h
      have hu := writeByte_held ‹_›
      exact ⟨hu.cfg, hu.mem⟩
    · cases h

theorem RunOf.trans {p : Params} {b : RomBanks} {s t : State} (h : RunOf p b s)
    (ht : t.cfg = s.cfg ∧ Writes s.cfg s.mem t.mem) : RunOf p b t := by
  obtain ⟨hcfg, hmem⟩ := h
  obtain ⟨hcfg', hmem'⟩ := ht
  rw [hcfg] at hcfg' hmem'
  exact ⟨hcfg', hmem.trans hmem'⟩

/-- Every state of a run is reached by writes through the mapper from what construction left (10_state.md R48). -/
theorem Reachable.runOf {p : Params} {s : State} (h : Reachable p s) :
    ∃ b, romBanksOf p.prgRom.length = some b ∧ RunOf p b s := by
  induction h with
  | construct h =>
    obtain ⟨b, pc, hb, -, rfl⟩ := construct_ok h
    exact ⟨b, hb, rfl, .none⟩
  | step _ h ih =>
    obtain ⟨b, hb, hrun⟩ := ih
    exact ⟨b, hb, hrun.trans (step_writes h)⟩
  | external op _ h ih =>
    obtain ⟨b, hb, hrun⟩ := ih
    exact ⟨b, hb, hrun.trans (external_writes h)⟩

/-- What a RAM cell of the mapper holds at construction: its INIT_MEM byte, where PRG-ROM is not listed (20_memory.md R82). -/
theorem beforeVector_ramByte {p : Params} {b : RomBanks} {cell : StorageCell} (hcell : cellExists (p.config b) cell = true)
    (hram : cell.isRam = true) (hout : cell.home < 0x8000 ∨ 0x8000 + p.prgRom.length ≤ cell.home) :
    (beforeVector p b).cellByte cell = (p.initMem.lookup cell).getD 0x00 := by
  rw [State.cellByte, beforeVector, drawRam_get (romCells_wf _ _) _ hcell, if_pos hram, romCells_outside hout,
    Memory.unlisted]

theorem beforeVector_prgRamByte {p : Params} {b : RomBanks} (hb : romBanksOf p.prgRom.length = some b) {k : Nat}
    (hk : k < p.prgRamSize) : (beforeVector p b).cellByte (.prgRam k) = (p.initMem.lookup (.prgRam k)).getD 0x00 := by
  have hlen := romBytes_of_banks hb
  have hle := romBytes_le b
  refine beforeVector_ramByte (decide_eq_true hk) rfl ?_
  simp only [StorageCell.home]
  split <;> omega

/-! ### The statements about invariants -/

/-- Settles O11: nothing is listed. -/
theorem resetMeetsTheInvariant : Obligations.ResetMeetsTheInvariant := ⟨rfl, rfl⟩

/-- Settles O12: a step changes memory by writes through the mapper alone, and each keeps the form. -/
theorem everyStepKeepsMemoryCanonical : Obligations.EveryStepKeepsMemoryCanonical := by
  intro s t hs h
  obtain ⟨hcfg, hmem⟩ := step_writes h
  exact Writes.inv hs hcfg hmem

/-- Settles O13: by induction over the run memory is what construction left, but for writes through the mapper, and these
reach no PRG-RAM cell of 8192 or above. -/
theorem runsKeepFormConfigurationAndUnreachedCells : Obligations.RunsKeepFormConfigurationAndUnreachedCells := by
  intro p s h
  obtain ⟨b, hb, hcfg, hmem⟩ := h.runOf
  have hinv := beforeVector_inv hb
  refine ⟨⟨Writes.inv hinv hcfg hmem, b, hb, hcfg⟩, fun k hk hsize => ?_⟩
  have hunreached : ∀ a, resolveCell s.cfg a ≠ some (.prgRam k) := fun a ha =>
    absurd ((resolveCell_exists ha).2 k rfl) (by omega)
  refine ⟨hunreached, ?_⟩
  calc s.cellByte (.prgRam k)
      = (beforeVector p b).cellByte (.prgRam k) :=
        hmem.get_cell hinv.1 (decide_eq_true hsize) fun a ha => absurd (hcfg ▸ ha) (hunreached a)
    _ = _ := beforeVector_prgRamByte hb hsize

end Sys2Proof.Machine
end

section
/-! PROOFS. Two runs side by side: a machine whose CYC stands higher, or whose B differs, makes the same steps
(10_state.md R38, R39, R45; 70_reset_and_hazards.md R353). -/

namespace Sys2Proof.Machine

/-- `s'` is `s` with CYC `k` higher and with another B that `ρ` relates to the one of `s`. -/
def Alike (k : Nat) (ρ : Bool → Bool → Prop) (s s' : State) : Prop := ∃ b, ρ s.flags.b b ∧ s' = s.twin k b

/-- Two results of part of a step: values that `S` relates, or one error and states that are alike. -/
inductive Res.Alike (k : Nat) (ρ : Bool → Bool → Prop) {α : Type} (S : α → α → Prop) : Res α → Res α → Prop where
  | ok {v w : α} (h : S v w) : Res.Alike k ρ S (.ok v) (.ok w)
  | err {s s' : State} (e : StepError) (h : Machine.Alike k ρ s s') : Res.Alike k ρ S (.err e s) (.err e s')

/-- Two outcomes of a step: states that are alike, or one fault. -/
inductive OutAlike (k : Nat) (ρ : Bool → Bool → Prop) : Out → Out → Prop where
  | next {s s' : State} (h : Alike k ρ s s') : OutAlike k ρ (.next s) (.next s')
  | fault (r : Fault) : OutAlike k ρ (.fault r) (.fault r)

/-- The same byte pulled, and states that are alike. -/
def PulledAlike (k : Nat) (ρ : Bool → Bool → Prop) (p q : Pulled) : Prop := p.value = q.value ∧ Alike k ρ p.state q.state

/-- The same word pulled, and states that are alike. -/
def PulledWordAlike (k : Nat) (ρ : Bool → Bool → Prop) (p q : PulledWord) : Prop :=
  p.value = q.value ∧ Alike k ρ p.state q.state

section
variable {k : Nat} {ρ : Bool → Bool → Prop} {s s' : State}

theorem Res.Alike.bind {α β : Type} {S : α → α → Prop} {T : β → β → Prop} {r r' : Res α} {f g : α → Res β}
    (h : Res.Alike k ρ S r r') (hfg : ∀ v w, S v w → Res.Alike k ρ T (f v) (g w)) :
    Res.Alike k ρ T (r.bind f) (r'.bind g) := by
  cases h with
  | ok h => exact hfg _ _ h
  | err e h => exact .err e h

/-- Two results whose values are the same. -/
theorem Res.Alike.bind_eq {α β : Type} {T : β → β → Prop} {r r' : Res α} {f g : α → Res β}
    (h : Res.Alike k ρ Eq r r') (hfg : ∀ v, Res.Alike k ρ T (f v) (g v)) : Res.Alike k ρ T (r.bind f) (r'.bind g) :=
  h.bind fun v _ hvw => hvw ▸ hfg v

theorem finish_alike {r r' : Res State} (h : Res.Alike k ρ (Alike k ρ) r r') : OutAlike k ρ (finish r) (finish r') := by
  cases h with
  | ok h => exact .next h
  | err e h =>
    obtain ⟨b, hb, rfl⟩ := h
    exact .next ⟨b, hb, rfl⟩

/-- An outcome like a next state is a next state of its own. -/
theorem OutAlike.of_next {t : State} {o : Out} (h : OutAlike k ρ (.next t) o) :
    ∃ b, ρ t.flags.b b ∧ o = .next (t.twin k b) := by
  cases h with
  | next h =>
    obtain ⟨b, hb, rfl⟩ := h
    exact ⟨b, hb, rfl⟩

theorem OutAlike.of_fault {r : Fault} {o : Out} (h : OutAlike k ρ (.fault r) o) : o = .fault r := by
  cases h with
  | fault => rfl

/-! ### What agrees in states that are alike -/

theorem Alike.a (h : Alike k ρ s s') : s'.a = s.a := by obtain ⟨b, -, rfl⟩ := h; rfl
theorem Alike.sp (h : Alike k ρ s s') : s'.sp = s.sp := by obtain ⟨b, -, rfl⟩ := h; rfl
theorem Alike.pc (h : Alike k ρ s s') : s'.pc = s.pc := by obtain ⟨b, -, rfl⟩ := h; rfl
theorem Alike.run (h : Alike k ρ s s') : s'.run = s.run := by obtain ⟨b, -, rfl⟩ := h; rfl
theorem Alike.cfg (h : Alike k ρ s s') : s'.cfg = s.cfg := by obtain ⟨b, -, rfl⟩ := h; rfl
theorem Alike.mem (h : Alike k ρ s s') : s'.mem = s.mem := by obtain ⟨b, -, rfl⟩ := h; rfl

theorem Alike.blind {α : Type} {g : State → α} (hg : Blind g) (h : Alike k ρ s s') : g s' = g s := by
  obtain ⟨b, -, rfl⟩ := h
  exact hg s k b

/-- The packed status byte has its bit 4 from outside: B is not in it (10_state.md R39). -/
theorem Alike.pack (h : Alike k ρ s s') (b4 : Bool) : s'.flags.pack b4 = s.flags.pack b4 := by
  obtain ⟨b, -, rfl⟩ := h
  rfl

/-! ### Updates that keep states alike -/

theorem Plain.alike {f : State → State} (hf : Plain f) (h : Alike k ρ s s') : Alike k ρ (f s) (f s') := by
  obtain ⟨b, hb, rfl⟩ := h
  exact ⟨b, by rwa [hf.keepsB], hf.twin s k b⟩

theorem Alike.setSP (h : Alike k ρ s s') (v : Byte) : Alike k ρ (s.setSP v) (s'.setSP v) :=
  (plain_setSP (fun _ => v) fun _ _ _ => rfl).alike h

theorem Alike.setPC (h : Alike k ρ s s') (w : Word) : Alike k ρ (s.setPC w) (s'.setPC w) := by
  obtain ⟨b, hb, rfl⟩ := h
  exact ⟨b, hb, rfl⟩

theorem Alike.setRun (h : Alike k ρ s s') (r : RunStatus) : Alike k ρ (s.setRun r) (s'.setRun r) := by
  obtain ⟨b, hb, rfl⟩ := h
  exact ⟨b, hb, rfl⟩

/-- CYC is only added to, so the difference stays (10_state.md R45). -/
theorem Alike.addCyc (h : Alike k ρ s s') (n : Nat) : Alike k ρ (s.addCyc n) (s'.addCyc n) := by
  obtain ⟨b, hb, rfl⟩ := h
  exact ⟨b, hb, by simp only [State.addCyc, State.twin, Nat.add_right_comm]⟩

theorem Alike.jumpTo (h : Alike k ρ s s') (w : Word) (n : Nat) : Alike k ρ (s.jumpTo w n) (s'.jumpTo w n) :=
  (h.setPC w).addCyc n

theorem Alike.advance (h : Alike k ρ s s') (len n : Nat) : Alike k ρ (s.advance len n) (s'.advance len n) := by
  unfold State.advance
  rw [h.pc]
  exact (h.setPC _).addCyc n

/-- A pulled status byte gives both states one B where it is loaded, and leaves both their own where it is not (R40). -/
theorem Alike.unpack (hρ : ∀ b, ρ b b) (h : Alike k ρ s s') (loadB : Bool) (p : Byte) :
    Alike k ρ (s.setFlags (s.flags.unpack loadB p)) (s'.setFlags (s'.flags.unpack loadB p)) := by
  obtain ⟨b, hb, rfl⟩ := h
  cases loadB with
  | true => exact ⟨p.getLsbD 4, hρ _, rfl⟩
  | false => exact ⟨b, hb, rfl⟩

theorem Alike.primitive {prim : Primitive} (hprim : prim.IgnoresB) (h : Alike k ρ s s') (v : Byte) :
    (prim v s'.flags).value = (prim v s.flags).value ∧
    Alike k ρ (s.setFlags (prim v s.flags).flags) (s'.setFlags (prim v s'.flags).flags) := by
  obtain ⟨b, hb, rfl⟩ := h
  obtain ⟨hv, hkeep⟩ := hprim v s.flags b
  have htwin : prim v (s.twin k b).flags = ⟨(prim v s.flags).value, { (prim v s.flags).flags with b := b }⟩ := hv
  rw [htwin]
  exact ⟨rfl, b, by rwa [setFlags_flags, hkeep], rfl⟩

/-! ### The shared operations -/

theorem memRead_alike (h : Alike k ρ s s') (a : Word) : Res.Alike k ρ Eq (memRead a s) (memRead a s') := by
  unfold memRead
  rw [readByte_congr h.cfg h.mem]
  cases s.readByte a with
  | some v => exact .ok rfl
  | none => exact .err _ h

theorem memWrite_alike (h : Alike k ρ s s') (a : Word) (v : Byte) :
    Res.Alike k ρ (Alike k ρ) (memWrite a v s) (memWrite a v s') := by
  unfold memWrite State.writeByte
  rw [h.cfg]
  cases resolveCell s.cfg a with
  | none => exact .err _ h
  | some cell =>
    obtain ⟨b, hb, rfl⟩ := h
    refine .ok ?_
    dsimp only
    split
    · exact ⟨b, hb, rfl⟩
    · exact ⟨b, hb, rfl⟩

theorem readPair_alike (h : Alike k ρ s s') (la ha : Word) : Res.Alike k ρ Eq (readPair la ha s) (readPair la ha s') :=
  (memRead_alike h la).bind_eq fun _ => (memRead_alike h ha).bind_eq fun _ => .ok rfl

theorem push_alike (h : Alike k ρ s s') (v : Byte) : Res.Alike k ρ (Alike k ρ) (push v s) (push v s') := by
  unfold push
  rw [h.sp]
  refine (memWrite_alike h _ v).bind fun t t' ht => ?_
  rw [ht.sp]
  split
  · exact .err _ ht
  · exact .ok (ht.setSP _)

theorem pull_alike (h : Alike k ρ s s') : Res.Alike k ρ (PulledAlike k ρ) (pull s) (pull s') := by
  unfold pull
  rw [h.sp]
  split
  · exact .err _ h
  · exact (memRead_alike (h.setSP _) _).bind_eq fun v => .ok ⟨rfl, h.setSP _⟩

theorem pushWord_alike (h : Alike k ρ s s') (w : Word) : Res.Alike k ρ (Alike k ρ) (pushWord w s) (pushWord w s') :=
  (push_alike h _).bind fun _ _ ht => push_alike ht _

theorem pullWord_alike (h : Alike k ρ s s') : Res.Alike k ρ (PulledWordAlike k ρ) (pullWord s) (pullWord s') := by
  refine (pull_alike h).bind fun p q ⟨hpq, hstate⟩ => ?_
  refine (pull_alike hstate).bind fun p' q' ⟨hpq', hstate'⟩ => .ok ⟨?_, hstate'⟩
  rw [hpq, hpq']

theorem breakEntry_alike (h : Alike k ρ s s') : Res.Alike k ρ (Alike k ρ) (breakEntry s) (breakEntry s') := by
  unfold breakEntry
  rw [h.pc]
  refine (pushWord_alike h _).bind fun t t' ht => ?_
  rw [ht.pack]
  refine (push_alike ht _).bind fun u u' hu => ?_
  have hset : Plain fun s => s.setFlags { s.flags with i := true } :=
    plain_setFlags (fun f => { f with i := true }) (fun _ _ => rfl) fun _ => rfl
  exact (readPair_alike (hset.alike hu) _ _).bind_eq fun target => .ok ((hset.alike hu).setPC target)

theorem interruptReturn_alike (hρ : ∀ b, ρ b b) (h : Alike k ρ s s') (n : Nat) :
    Res.Alike k ρ (Alike k ρ) (interruptReturn n s) (interruptReturn n s') := by
  refine (pull_alike h).bind fun p q ⟨hpq, hstate⟩ => ?_
  rw [hpq]
  refine (pullWord_alike (hstate.unpack hρ true q.value)).bind fun r r' ⟨hr, hr'⟩ => ?_
  rw [hr]
  exact .ok (hr'.jumpTo _ n)

theorem resolve_alike (h : Alike k ρ s s') (m : MemOperand) : Res.Alike k ρ Eq (resolve m s) (resolve m s') := by
  have hpointer := readPair_alike h
  obtain ⟨b, hb, rfl⟩ := h
  cases m with
  | indexedIndirect p => exact (hpointer _ _).bind_eq fun _ => .ok rfl
  | indirectIndexed p => exact (hpointer _ _).bind_eq fun _ => .ok rfl
  | zeroPage p => exact .ok rfl
  | zeroPageX p => exact .ok rfl
  | zeroPageY p => exact .ok rfl
  | absolute w => exact .ok rfl
  | absoluteX w => exact .ok rfl
  | absoluteY w => exact .ok rfl

theorem load_alike (h : Alike k ρ s s') (o : ReadOperand) : Res.Alike k ρ Eq (load o s) (load o s') := by
  cases o with
  | immediate v => exact .ok rfl
  | mem m => exact (resolve_alike h m).bind_eq fun r => (memRead_alike h r.ea).bind_eq fun v => .ok rfl

/-! ### The shapes -/

theorem readWith_alike {o : ReadOperand} {f : Byte → State → State} (hf : ∀ v, Plain (f v)) (h : Alike k ρ s s') :
    OutAlike k ρ (readWith o f s) (readWith o f s') :=
  finish_alike ((load_alike h o).bind_eq fun l => .ok (((hf l.value).alike h).advance _ _))

theorem storeValue_alike (h : Alike k ρ s s') (m : MemOperand) (v : Byte) :
    OutAlike k ρ (storeValue m v s) (storeValue m v s') :=
  finish_alike ((resolve_alike h m).bind_eq fun r => (memWrite_alike h r.ea v).bind fun _ _ ht => .ok (ht.advance _ _))

theorem modifyWith_alike {m : MemOperand} {prim : Primitive} {after : Byte → State → State} (hprim : prim.IgnoresB)
    (hafter : ∀ r, Plain (after r)) (h : Alike k ρ s s') :
    OutAlike k ρ (modifyWith m prim after s) (modifyWith m prim after s') := by
  refine finish_alike ((resolve_alike h m).bind_eq fun r => (memRead_alike h r.ea).bind_eq fun v => ?_)
  obtain ⟨hvalue, hflags⟩ := h.primitive hprim v
  dsimp only
  rw [hvalue]
  exact (memWrite_alike hflags r.ea _).bind fun _ _ ht => .ok (((hafter _).alike ht).advance _ _)

theorem shiftA_alike {prim : Primitive} (hprim : prim.IgnoresB) (h : Alike k ρ s s') :
    OutAlike k ρ (shiftWith .accumulator prim s) (shiftWith .accumulator prim s') := by
  obtain ⟨hvalue, hflags⟩ := h.primitive hprim s.a
  unfold shiftWith
  dsimp only
  rw [h.a, hvalue]
  exact .next (((plain_loadA (fun _ => (prim s.a s.flags).value) fun _ _ _ => rfl).alike hflags).advance _ _)

theorem branchIf_alike (h : Alike k ρ s s') (cond : Bool) (offset : Byte) :
    OutAlike k ρ (branchIf cond offset s) (branchIf cond offset s') := by
  unfold branchIf
  rw [h.pc]
  cases cond with
  | true => exact .next (h.jumpTo _ _)
  | false => exact .next (h.advance 2 2)

theorem execJmp_alike (h : Alike k ρ s s') (o : JumpOperand) : OutAlike k ρ (execJmp o s) (execJmp o s') := by
  refine finish_alike (Res.Alike.bind_eq ?_ fun target => .ok (h.jumpTo target _))
  cases o with
  | absolute target => exact .ok rfl
  | indirect ptr => exact readPair_alike h _ _

theorem raise_alike (h : Alike k ρ s s') (e : StepError) : OutAlike k ρ (raise e s) (raise e s') := .next (h.setRun _)

theorem execBrk_alike (h : Alike k ρ s s') : OutAlike k ρ (execBrk s) (execBrk s') := by
  unfold execBrk
  rw [h.cfg]
  cases s.cfg.brkEffects with
  | full => exact finish_alike ((breakEntry_alike h).bind fun _ _ ht => .err _ ht)
  | signalOnly => exact raise_alike h .brk

theorem Meaning.alike {i : Instr} {F : State → Out} (hF : Meaning i F) (hρ : ∀ b, ρ b b) (h : Alike k ρ s s') :
    OutAlike k ρ (F s) (F s') := by
  cases hF with
  | read o f hf _ _ => exact readWith_alike hf h
  | store m g hg _ _ =>
    dsimp only
    rw [h.blind hg]
    exact storeValue_alike h m _
  | modify m prim after hprim hafter _ _ => exact modifyWith_alike hprim hafter h
  | shiftA prim hprim _ _ => exact shiftA_alike hprim h
  | implied f hf _ _ => exact .next ((hf.alike h).advance 1 2)
  | branch cond offset hcond _ =>
    dsimp only
    rw [h.blind hcond]
    exact branchIf_alike h _ offset
  | jmp o _ => exact execJmp_alike h o
  | pha _ =>
    unfold execPha
    rw [h.a]
    exact finish_alike ((push_alike h _).bind fun _ _ ht => .ok (ht.advance 1 3))
  | php _ =>
    unfold execPhp
    rw [h.pack]
    exact finish_alike ((push_alike h _).bind fun _ _ ht => .ok (ht.advance 1 3))
  | pla _ =>
    refine finish_alike ((pull_alike h).bind fun p q ⟨hpq, hstate⟩ => .ok ?_)
    rw [hpq]
    exact ((plain_loadA (fun _ => q.value) fun _ _ _ => rfl).alike hstate).advance 1 4
  | plp _ =>
    refine finish_alike ((pull_alike h).bind fun p q ⟨hpq, hstate⟩ => .ok ?_)
    rw [hpq, h.cfg]
    exact (hstate.unpack hρ _ _).advance 1 4
  | jsr target _ =>
    unfold execJsr
    rw [h.pc]
    exact finish_alike ((pushWord_alike h _).bind fun _ _ ht => .ok (ht.jumpTo target 6))
  | rts _ =>
    refine finish_alike ((pullWord_alike h).bind fun p q ⟨hpq, hstate⟩ => .ok ?_)
    rw [hpq]
    exact hstate.jumpTo _ 6
  | brk _ => exact execBrk_alike h
  | rti _ => exact finish_alike (interruptReturn_alike hρ h 6)
  | sbcEB v _ =>
    unfold execSbcImmediateEB
    rw [h.cfg]
    split
    · exact readWith_alike plain_sbc h
    · exact raise_alike h _
  | unknown op _ => exact raise_alike h _

/-! ### The step -/

theorem fetch_alike (h : Alike k ρ s s') : Res.Alike k ρ Eq (fetch s) (fetch s') := by
  unfold fetch
  rw [h.pc, h.cfg]
  refine (memRead_alike h _).bind_eq fun op => ?_
  cases entryOf s.cfg.usbcEb op with
  | f1 i => exact .ok rfl
  | f2 make => exact (memRead_alike h _).bind_eq fun b1 => .ok rfl
  | f3 make => exact (memRead_alike h _).bind_eq fun b1 => (memRead_alike h _).bind_eq fun b2 => .ok rfl

/-- States that are alike make steps that are alike. -/
theorem step_alike (hρ : ∀ b, ρ b b) (h : Alike k ρ s s') : OutAlike k ρ (step s) (step s') := by
  unfold step
  rw [h.run]
  cases s.run with
  | stopped e => exact .fault _
  | running =>
    have hfetch := fetch_alike h
    revert hfetch
    generalize fetch s = r, fetch s' = r'
    intro hfetch
    cases hfetch with
    | ok hi => subst hi; exact (exec_meaning _).alike hρ h
    | err e ht => exact raise_alike ht e

end

/-! ### The statements -/

/-- Settles O22: a higher CYC is a twin with the same B. -/
theorem cycleCountInfluencesNothing : Obligations.CycleCountInfluencesNothing := by
  intro s k
  have halike : OutAlike k Eq (step s) (step { s with cyc := s.cyc + k }) :=
    step_alike (fun _ => rfl) ⟨s.flags.b, rfl, rfl⟩
  refine ⟨fun t ht => ?_, fun r hr => ?_⟩
  · rw [ht] at halike
    obtain ⟨b, rfl, hnext⟩ := halike.of_next
    exact hnext
  · rw [hr] at halike
    exact halike.of_fault

/-- Settles O23: another B is a twin whose CYC is the same. -/
theorem breakFlagInfluencesNothing : Obligations.BreakFlagInfluencesNothing := by
  intro s b t ht
  have halike : OutAlike 0 (fun _ _ => True) (step s) (step { s with flags := { s.flags with b := b } }) :=
    step_alike (fun _ => trivial) ⟨b, trivial, rfl⟩
  rw [ht] at halike
  obtain ⟨b', -, hnext⟩ := halike.of_next
  exact ⟨b', hnext⟩

end Sys2Proof.Machine
end

section
/-! PROOFS. The fetched instruction against its opcode byte (30_encoding.md R101, R108), and the advance of PC by its length
(10_state.md R35). -/

namespace Sys2Proof.Machine

/-- The instruction of an entry with operand bytes `b1` and `b2`, of which it takes what it needs. -/
def entryInstr (b1 b2 : Byte) : Entry → Instr
  | .f1 i => i
  | .f2 make => make b1
  | .f3 make => make (w16 b1 b2)

/-- The opcode bytes from `start` on, `n` of them. -/
def opcodesFrom (start n : Nat) : List (Option Byte) := (List.range' start n).map fun op => some (BitVec.ofNat 8 op)

theorem opcodeMap03_opcodes (b1 b2 : Byte) :
    opcodeMap03.map (fun entry => (entryInstr b1 b2 entry).opcode) = opcodesFrom 0x00 64 := rfl

theorem opcodeMap47_opcodes (b1 b2 : Byte) :
    opcodeMap47.map (fun entry => (entryInstr b1 b2 entry).opcode) = opcodesFrom 0x40 64 := rfl

theorem opcodeMap8B_opcodes (b1 b2 : Byte) :
    opcodeMap8B.map (fun entry => (entryInstr b1 b2 entry).opcode) = opcodesFrom 0x80 64 := rfl

theorem opcodeMapCF_opcodes (b1 b2 : Byte) :
    opcodeMapCF.map (fun entry => (entryInstr b1 b2 entry).opcode) = opcodesFrom 0xC0 64 := rfl

theorem opcodesFrom_append (start m n : Nat) :
    opcodesFrom start m ++ opcodesFrom (start + m) n = opcodesFrom start (m + n) := by
  rw [opcodesFrom, opcodesFrom, ← List.map_append, List.range'_append_1, opcodesFrom]

theorem opcodesFrom_getElem? {start n k : Nat} (h : k < n) :
    (opcodesFrom start n)[k]? = some (some (BitVec.ofNat 8 (start + k))) := by
  simp [opcodesFrom, h]

/-- The map gives each byte instructions whose Encoding line lists that byte (30 R108). -/
theorem opcodeMap_opcodes (b1 b2 : Byte) :
    opcodeMap.map (fun entry => (entryInstr b1 b2 entry).opcode) = opcodesFrom 0 256 := by
  simp only [opcodeMap, List.map_append, opcodeMap03_opcodes, opcodeMap47_opcodes, opcodeMap8B_opcodes, opcodeMapCF_opcodes]
  rw [opcodesFrom_append 0 64 64, opcodesFrom_append 0 128 64, opcodesFrom_append 0 192 64]

theorem entryOf_opcode (usbcEb : Bool) (op b1 b2 : Byte) : (entryInstr b1 b2 (entryOf usbcEb op)).opcode = some op := by
  unfold entryOf
  split
  case isTrue h =>
    obtain ⟨hop, -⟩ := Bool.and_eq_true_iff.1 h
    rw [eq_of_beq hop]
    rfl
  case isFalse =>
    have hmap := congrArg (·[op.toNat]?) (opcodeMap_opcodes b1 b2)
    simp only [List.getElem?_map, opcodesFrom_getElem? op.isLt, Nat.zero_add, BitVec.ofNat_toNat, BitVec.setWidth_eq] at hmap
    obtain ⟨entry, hentry, hop⟩ := Option.map_eq_some_iff.1 hmap
    rw [List.getD_eq_getElem?_getD, hentry]
    exact hop

/-- The fetched instruction is that of the entry of the byte at PC. -/
theorem fetch_ok {s : State} {i : Instr} (h : fetch s = .ok i) :
    ∃ op b1 b2, s.readByte s.pc = some op ∧ i = entryInstr b1 b2 (entryOf s.cfg.usbcEb op) := by
  obtain ⟨op, hop, h⟩ := Res.bind_eq_ok h
  refine ⟨op, ?_⟩
  cases hentry : entryOf s.cfg.usbcEb op with
  | f1 j =>
    rw [hentry] at h
    cases h
    exact ⟨0, 0, memRead_ok.1 hop, rfl⟩
  | f2 make =>
    rw [hentry] at h
    obtain ⟨b1, -, h⟩ := Res.bind_eq_ok h
    cases h
    exact ⟨b1, 0, memRead_ok.1 hop, rfl⟩
  | f3 make =>
    rw [hentry] at h
    obtain ⟨b1, -, h⟩ := Res.bind_eq_ok h
    obtain ⟨b2, -, h⟩ := Res.bind_eq_ok h
    cases h
    exact ⟨b1, b2, memRead_ok.1 hop, rfl⟩

/-- The byte at PC is the opcode byte of the fetched instruction. -/
theorem fetch_opcode {s : State} {i : Instr} (h : fetch s = .ok i) : i.opcode = s.readByte s.pc := by
  obtain ⟨op, b1, b2, hop, rfl⟩ := fetch_ok h
  rw [entryOf_opcode, hop]

/-! ### Lengths (30 R101) -/

/-- The length of an instruction is that of its encoding, where it has one. -/
theorem encode_length {i : Instr} {op : Byte} (h : i.opcode = some op) : (encode i).length = i.length := by
  rw [encode, h, Instr.length, List.length_cons, Nat.add_comm]

theorem memOperand_len_le (m : MemOperand) : m.len ≤ 3 := by
  cases m <;> simp [MemOperand.len, MemOperand.bytes, wordBytes]

theorem readOperand_len_le (o : ReadOperand) : o.len ≤ 3 := by
  cases o with
  | immediate v => exact Nat.le_succ 2
  | mem m => exact memOperand_len_le m

/-- No instruction that advances is longer than three bytes: its shape says what its operand is. -/
theorem Meaning.length_le {i : Instr} {F : State → Out} (hF : Meaning i F) (hi : setsPC i = false) : i.length ≤ 3 := by
  cases hF with
  | read o f _ hlen _ => exact hlen ▸ readOperand_len_le o
  | store m g _ hlen _ => exact hlen ▸ memOperand_len_le m
  | modify m prim after _ _ hlen _ => exact hlen ▸ memOperand_len_le m
  | shiftA prim _ hlen _ => omega
  | implied f _ hlen _ => omega
  | branch cond offset _ hpc => simp [hi] at hpc
  | jmp o h => subst h; cases hi
  | pha h => subst h; decide
  | php h => subst h; decide
  | pla h => subst h; decide
  | plp h => subst h; decide
  | jsr target h => subst h; cases hi
  | rts h => subst h; cases hi
  | brk h => subst h; cases hi
  | rti h => subst h; cases hi
  | sbcEB v h => subst h; exact Nat.le_succ 2
  | unknown op h => subst h; exact Nat.le_add_left 1 2

/-- Settles O21: of what an instruction can leave, the advance alone is a success that does not set PC. -/
theorem successfulStepsAdvanceByTheLength : Obligations.SuccessfulStepsAdvanceByTheLength := by
  intro s t i hrun hi h hok hpc
  obtain ⟨op, b1, b2, hop, -⟩ := fetch_ok hi
  have hopcode : i.opcode = some op := (fetch_opcode hi).trans hop
  refine ⟨?_, (encode_length hopcode).symm, Nat.le_add_right 1 _, (exec_meaning i).length_le hpc⟩
  have hexec : exec i s = .next t := by simpa [step, hrun, hi] using h
  cases exec_left hexec with
  | advanced k hu => rw [advance_pc, hu.pc]
  | jumped target k _ hsets => rw [hpc] at hsets; cases hsets
  | raised e _ => cases hok
  | broke target _ _ _ => cases hok

end Sys2Proof.Machine
end

section
/-! PROOFS. Construction (70_reset_and_hazards.md R340 to R342): what is refused, what fails, and what the state holds. -/

namespace Sys2Proof.Machine

theorem romBanksOf_eq_none {n : Nat} (h0 : n ≠ 0) (h1 : n ≠ 16384) (h2 : n ≠ 32768) : romBanksOf n = none := by
  simp [romBanksOf, h0, h1, h2]

theorem construct_refused {p : Params} (h : romBanksOf p.prgRom.length = none) :
    construct p = .error (.romLength p.prgRom.length) := by
  simp only [construct, h]

theorem construct_of_vector {p : Params} {b : RomBanks} (hb : romBanksOf p.prgRom.length = some b) {pc : Word}
    (hpc : read16 0xFFFC (beforeVector p b) = .ok pc) : construct p = .ok ((beforeVector p b).setPC pc) := by
  simp only [construct, hb, hpc]

theorem construct_failed {p : Params} {b : RomBanks} (hb : romBanksOf p.prgRom.length = some b) {e : StepError} {s : State}
    (hpc : read16 0xFFFC (beforeVector p b) = .err e s) : construct p = .error (.failed .failedParsingEntryPoint) := by
  simp only [construct, hb, hpc]

/-- The vector cannot be read where one of its bytes is unmapped. -/
theorem readPair_unmapped {la ha : Word} {s : State} (h : resolveCell s.cfg la = none ∨ resolveCell s.cfg ha = none) :
    ∃ e t, readPair la ha s = .err e t := by
  cases hr : readPair la ha s with
  | err e t => exact ⟨e, t, rfl⟩
  | ok w =>
    obtain ⟨l, h', hl, hh, -⟩ := readPair_ok hr
    simp only [State.readByte, Option.map_eq_some_iff] at hl hh
    rcases h with h | h <;> simp [h] at hl hh

theorem readByte_mapped {s : State} {a : Word} (h : (resolveCell s.cfg a).isSome = true) : ∃ v, s.readByte a = some v :=
  Option.isSome_iff_exists.1 (by rw [readByte_isSome, h])

theorem beforeVector_romByte {p : Params} {b : RomBanks} (hb : romBanksOf p.prgRom.length = some b) {k : Nat} {v : Byte}
    (hv : p.prgRom[k]? = some v) : (beforeVector p b).cellByte (.prgRom k) = v := by
  obtain ⟨hk, -⟩ := List.getElem?_eq_some_iff.1 hv
  have hcell : cellExists (p.config b) (.prgRom k) = true := decide_eq_true (romBytes_of_banks hb ▸ hk)
  rw [State.cellByte, beforeVector, drawRam_get (romCells_wf _ _) _ hcell]
  exact romCells_get hv

/-- A general-RAM cell lies below the PRG-ROM window, or there is no PRG-ROM (20_memory.md R78). -/
theorem beforeVector_generalRamByte {p : Params} {b : RomBanks} (hb : romBanksOf p.prgRom.length = some b) {a : Word}
    (ha : resolveCell (p.config b) a = some (.generalRam a)) :
    (beforeVector p b).cellByte (.generalRam a) = (p.initMem.lookup (.generalRam a)).getD 0x00 := by
  have hlen := romBytes_of_banks hb
  have hout : ¬ (0x8000 ≤ a.toNat ∧ 0 < romBytes b) := by
    intro hin
    simp [resolveCell, inRomWindow, Params.config, hin] at ha
  refine beforeVector_ramByte (resolveCell_exists ha).1 rfl ?_
  simp only [StorageCell.home]
  omega

/-- Settles O59: construction lists PRG-ROM and the draw, and reads the vector from them. -/
theorem constructionSetsTheResetState : Obligations.ConstructionSetsTheResetState := by
  refine ⟨rfl, fun p => ⟨?refused, fun b hb => ⟨?failed, ?constructed⟩⟩⟩
  case refused =>
    intro h0 h1 h2
    exact construct_refused (romBanksOf_eq_none h0 h1 h2)
  case failed =>
    intro hunmapped
    obtain ⟨e, t, he⟩ := readPair_unmapped (s := beforeVector p b) hunmapped
    exact construct_failed hb he
  case constructed =>
    intro hlow hhigh
    obtain ⟨l, hl⟩ := readByte_mapped (s := beforeVector p b) hlow
    obtain ⟨h, hh⟩ := readByte_mapped (s := beforeVector p b) hhigh
    exact ⟨(beforeVector p b).setPC (w16 l h), l, h, construct_of_vector hb (readPair_of hl hh), hl, hh, rfl,
      beforeVector_inv hb, fun k v hv => beforeVector_romByte hb hv, fun k hk => beforeVector_prgRamByte hb hk,
      fun a ha => beforeVector_generalRamByte hb ha⟩

end Sys2Proof.Machine
end

section
/-! PROOFS. The packed status byte (10_state.md R39, R40). -/

namespace Sys2Proof.Machine

theorem pack_toNat (f : Flags) (b4 : Bool) :
    (f.pack b4).toNat = f.n.toNat * 128 + f.v.toNat * 64 + 32 + b4.toNat * 16 + f.d.toNat * 8 + f.i.toNat * 4 +
      f.z.toNat * 2 + f.c.toNat := by
  obtain ⟨c, z, i, d, b, v, n⟩ := f
  revert c z i d v n b4
  simp only [Flags.pack]
  decide

/-- The bits of the packed byte, bit 0 first: N V 1 b4 D I Z C (R39). -/
theorem bitArray_pack (f : Flags) (b4 : Bool) : bitArray (f.pack b4) = [f.c, f.z, f.i, f.d, b4, true, f.v, f.n] :=
  bitArray_of_byteOfBits rfl

/-- Unpacking a packed byte restores the flags, but B, which is not in it. -/
theorem unpack_pack (f g : Flags) (b4 loadB : Bool) :
    g.unpack loadB (f.pack b4) = { f with b := if loadB then b4 else g.b } := by
  have hbits := bitArray_pack f b4
  simp only [bitArray, List.cons.injEq, and_true] at hbits
  obtain ⟨hc, hz, hi, hd, hb, -, hv, hn⟩ := hbits
  simp only [Flags.unpack, hc, hz, hi, hd, hb, hv, hn]

/-- Bit 5 of a pulled byte is ignored. -/
theorem unpack_xor_bit5 (g : Flags) (loadB : Bool) (p : Byte) : g.unpack loadB (p ^^^ 0x20) = g.unpack loadB p := by
  simp [Flags.unpack]

/-- Packing an unpacked byte with its own bit 4 gives it back, with bit 5 set. -/
theorem pack_unpack (g : Flags) (loadB : Bool) (p : Byte) : (g.unpack loadB p).pack (p.getLsbD 4) = p ||| 0x20 := by
  apply bitArray_injective
  rw [bitArray_pack]
  simp [bitArray, Flags.unpack]

/-- Settles O29: packing and unpacking agree bit by bit. -/
theorem statusBytePacksTheFlags : Obligations.StatusBytePacksTheFlags := fun f g b4 loadB p =>
  ⟨pack_toNat f b4, unpack_pack f g b4 loadB, unpack_xor_bit5 g loadB p, pack_unpack g loadB p⟩

end Sys2Proof.Machine
end

section
/-! PROOFS. The stack (10_state.md R41 to R43; 46_stack_subroutine.md R220 to R229): pushes and pulls, done and cut off. -/

namespace Sys2Proof.Machine

/-! ### Stack addresses -/

theorem stackAddr_eq (sp : Byte) : stackAddr sp = BitVec.ofNat 16 (256 + sp.toNat) := by
  apply BitVec.eq_of_toNat_eq
  simp [stackAddr]

theorem sp_succ_toNat {sp : Byte} (h : sp.toNat < 255) : (sp + 1).toNat = sp.toNat + 1 := by
  bv_omega

theorem sp_pred_toNat {sp : Byte} (h : sp ≠ 0x00) : (sp - 1).toNat = sp.toNat - 1 := by
  bv_omega

theorem sp_lt_of_ne {sp : Byte} (h : sp ≠ 0xFF) : sp.toNat < 255 := by
  bv_omega

theorem stackAddr_succ {sp : Byte} (h : sp.toNat < 255) : stackAddr (sp + 1) = BitVec.ofNat 16 (257 + sp.toNat) := by
  rw [stackAddr_eq, sp_succ_toNat h]
  congr 1
  omega

/-- The stack lies below the PRG-ROM window, so no push is ignored (20_memory.md R79). -/
theorem ignoresWrite_stack (c : Config) (sp : Byte) : ignoresWrite c (BitVec.ofNat 16 (256 + sp.toNat)) = false := by
  have hlt : ¬ 0x8000 ≤ (BitVec.ofNat 16 (256 + sp.toNat)).toNat := by bv_omega
  rw [ignoresWrite, inRomWindow, decide_eq_false hlt, Bool.false_and, Bool.false_and]

/-! ### One push -/

/-- A push with room and a mapped cell (R41). -/
theorem push_done {s : State} (v : Byte) (hs : s.Inv) (hsp : s.sp ≠ 0x00)
    (hm : (resolveCell s.cfg (BitVec.ofNat 16 (256 + s.sp.toNat))).isSome = true) :
    ∃ u, push v s = .ok u ∧ WroteByte s u (BitVec.ofNat 16 (256 + s.sp.toNat)) v ∧
      u = { s with mem := u.mem, sp := s.sp - 1 } ∧ u.Inv := by
  rw [← stackAddr_eq] at hm ⊢
  obtain ⟨w, hw⟩ := writeByte_some v hm
  refine ⟨w.setSP (s.sp - 1), push_of hw hsp, (writeByte_wrote hs hw).congr rfl rfl rfl rfl, ?_,
    (writeByte_inv hs hw : w.Inv)⟩
  rw [writeByte_eq hw]
  rfl

/-- A push at SP = 0x00 stores its byte and raises StackOverflow (R41). -/
theorem push_full {s : State} (v : Byte) (hs : s.Inv) (hsp : s.sp = 0x00)
    (hm : (resolveCell s.cfg (BitVec.ofNat 16 (256 + s.sp.toNat))).isSome = true) :
    ∃ u, push v s = .err .stackOverflow u ∧ WroteByte s u (BitVec.ofNat 16 (256 + s.sp.toNat)) v ∧
      u = { s with mem := u.mem } := by
  rw [← stackAddr_eq] at hm ⊢
  obtain ⟨u, hu⟩ := writeByte_some v hm
  exact ⟨u, push_overflow hu hsp, writeByte_wrote hs hu, writeByte_eq hu⟩

theorem push_unmapped {s : State} (v : Byte) (hm : resolveCell s.cfg (BitVec.ofNat 16 (256 + s.sp.toNat)) = none) :
    push v s = .err (.memoryAccess (BitVec.ofNat 16 (256 + s.sp.toNat)) .write) s := by
  rw [← stackAddr_eq] at hm ⊢
  have hw : s.writeByte (stackAddr s.sp) v = none := by rw [State.writeByte, hm, Option.map_none]
  rw [push, memWrite_err.2 ⟨hw, rfl, rfl⟩, Res.bind_err]

theorem push_flags {v : Byte} {s t : State} (h : push v s = .ok t) : t.flags = s.flags := by
  obtain ⟨u, hu, -, rfl⟩ := push_ok h
  rw [writeByte_eq hu]
  rfl

/-! ### One pull -/

theorem pull_done {s : State} {v : Byte} (hsp : s.sp.toNat < 255)
    (h : s.readByte (BitVec.ofNat 16 (257 + s.sp.toNat)) = some v) : pull s = .ok ⟨v, s.setSP (s.sp + 1)⟩ :=
  pull_of (fun hff => by simp [hff] at hsp) (by rwa [stackAddr_succ hsp])

theorem memRead_unmapped {s : State} {a : Word} (h : resolveCell s.cfg a = none) :
    memRead a s = .err (.memoryAccess a .read) s :=
  memRead_err.2 ⟨by rw [State.readByte, h, Option.map_none], rfl, rfl⟩

theorem pull_unmapped {s : State} (hsp : s.sp.toNat < 255)
    (h : resolveCell s.cfg (BitVec.ofNat 16 (257 + s.sp.toNat)) = none) :
    pull s = .err (.memoryAccess (BitVec.ofNat 16 (257 + s.sp.toNat)) .read) (s.setSP (s.sp + 1)) := by
  rw [← stackAddr_succ hsp] at h ⊢
  rw [pull, if_neg fun hff => by simp [hff] at hsp]
  exact congrArg (Res.bind · _) (memRead_unmapped (s := s.setSP (s.sp + 1)) h)

/-! ### Bytes pushed one after another -/

/-- The bytes pushed in their order. -/
def pushAll (bytes : List Byte) (s : State) : Res State :=
  match bytes with
  | [] => .ok s
  | v :: rest => (push v s).bind (pushAll rest)

theorem Res.bind_assoc {α β γ : Type} (r : Res α) (f : α → Res β) (g : β → Res γ) :
    (r.bind f).bind g = r.bind fun a => (f a).bind g := by
  cases r with
  | ok v => rfl
  | err e s => rfl

theorem pushAll_append (bytes rest : List Byte) (s : State) :
    pushAll (bytes ++ rest) s = (pushAll bytes s).bind (pushAll rest) := by
  induction bytes generalizing s with
  | nil => rfl
  | cons v bytes ih =>
    rw [List.cons_append, pushAll, pushAll, Res.bind_assoc]
    exact congrArg _ (funext ih)

theorem pushAll_singleton (v : Byte) (s : State) : pushAll [v] s = push v s := by
  rw [pushAll]
  cases push v s with
  | ok t => rfl
  | err e t => rfl

theorem pushWord_eq_pushAll (w : Word) (s : State) : pushWord w s = pushAll [hi w, lo w] s :=
  congrArg _ (funext fun t => (pushAll_singleton (lo w) t).symm)

theorem pushAll_flags {bytes : List Byte} {s t : State} (h : pushAll bytes s = .ok t) : t.flags = s.flags := by
  induction bytes generalizing s with
  | nil => cases h; rfl
  | cons v rest ih =>
    obtain ⟨u, hu, ht⟩ := Res.bind_eq_ok h
    exact (ih ht).trans (push_flags hu)

/-- Bytes pushed with room and mapped cells for all of them. -/
theorem pushAll_done {bytes : List Byte} {s : State} (hs : s.Inv) (hroom : bytes.length ≤ s.sp.toNat)
    (hm : ∀ k, k < bytes.length → (resolveCell s.cfg (BitVec.ofNat 16 (256 + s.sp.toNat - k))).isSome = true) :
    ∃ u, pushAll bytes s = .ok u ∧ Pushed s bytes u ∧ u.Inv ∧ u = { s with mem := u.mem, sp := u.sp } ∧
      u.sp.toNat = s.sp.toNat - bytes.length := by
  induction bytes generalizing s with
  | nil => exact ⟨s, rfl, rfl, hs, rfl, rfl⟩
  | cons v rest ih =>
    rw [List.length_cons] at hroom hm
    have hsp : s.sp ≠ 0x00 := fun h => by simp [h] at hroom
    obtain ⟨t, hpush, hwrote, ht, hinv⟩ := push_done v hs hsp (hm 0 (Nat.succ_pos _))
    have htsp : t.sp.toNat = s.sp.toNat - 1 := by rw [ht]; exact sp_pred_toNat hsp
    have htcfg : t.cfg = s.cfg := by rw [ht]
    obtain ⟨u, hpushed, hu, huinv, hueq, husp⟩ := ih hinv (by omega) fun k hk => by
      rw [htcfg, show 256 + t.sp.toNat - k = 256 + s.sp.toNat - (k + 1) by omega]
      exact hm (k + 1) (by omega)
    refine ⟨u, by rw [pushAll, hpush, Res.bind_ok, hpushed], ⟨t, hwrote, ht, hu⟩, huinv, ?_, by
      rw [List.length_cons]; omega⟩
    rw [ht] at hueq
    exact hueq

/-! ### The instructions as their pushes -/

/-- What BRK does once its bytes are pushed: I, and then the vector (46 R228). -/
def breakVector (u : State) : Res State :=
  (read16 0xFFFE (u.setFlags { u.flags with i := true })).bind fun target =>
    .ok ((u.setFlags { u.flags with i := true }).setPC target)

/-- The two bytes of the vector are read in order (60 R309); the first unmapped one ends BRK. -/
theorem breakVector_cut {u : State} {a : Word} (hnone : resolveCell u.cfg a = none)
    (ha : a = 0xFFFE ∨ (a = 0xFFFF ∧ (resolveCell u.cfg 0xFFFE).isSome = true)) :
    breakVector u = .err (.memoryAccess a .read) (u.setFlags { u.flags with i := true }) := by
  have hread := memRead_unmapped (s := u.setFlags { u.flags with i := true }) hnone
  rcases ha with rfl | ⟨rfl, hlow⟩
  · rw [breakVector, read16, readPair, hread, Res.bind_err, Res.bind_err]
  · obtain ⟨l, hl⟩ := readByte_mapped (s := u.setFlags { u.flags with i := true }) hlow
    rw [breakVector, read16, readPair, memRead_ok.2 hl, Res.bind_ok, show (0xFFFE : Word) + 1 = 0xFFFF from rfl, hread,
      Res.bind_err, Res.bind_err]

theorem breakEntry_eq_pushAll (s : State) :
    breakEntry s = (pushAll [hi (s.pc + 2), lo (s.pc + 2), s.flags.pack true] s).bind breakVector := by
  rw [breakEntry, pushWord_eq_pushAll,
    show [hi (s.pc + 2), lo (s.pc + 2), s.flags.pack true] = [hi (s.pc + 2), lo (s.pc + 2)] ++ [s.flags.pack true] from rfl,
    pushAll_append]
  cases ht : pushAll [hi (s.pc + 2), lo (s.pc + 2)] s with
  | err e t => rfl
  | ok t =>
    rw [Res.bind_ok, Res.bind_ok, pushAll_singleton, pushAll_flags ht]
    rfl

/-- The pushing instructions with the bytes each pushes. -/
def pushers (s : State) (target : Word) : List (Instr × List Byte) :=
  [(.pha, [s.a]), (.php, [s.flags.pack true]), (.jsr target, [hi (s.pc + 2), lo (s.pc + 2)]),
    (.brk, [hi (s.pc + 2), lo (s.pc + 2), s.flags.pack true])]

/-- A pushing instruction is its pushes, and then something else. -/
theorem exec_eq_pushAll {s : State} {target : Word} {i : Instr} {bytes : List Byte} (h : (i, bytes) ∈ pushers s target)
    (hfull : i = .brk → s.cfg.brkEffects = .full) : ∃ next, exec i s = finish ((pushAll bytes s).bind next) := by
  simp only [pushers, List.mem_cons, Prod.mk.injEq, List.not_mem_nil, or_false] at h
  rcases h with ⟨rfl, rfl⟩ | ⟨rfl, rfl⟩ | ⟨rfl, rfl⟩ | ⟨rfl, rfl⟩
  · exact ⟨fun t => .ok (t.advance 1 3), by rw [pushAll_singleton]; rfl⟩
  · exact ⟨fun t => .ok (t.advance 1 3), by rw [pushAll_singleton]; rfl⟩
  · exact ⟨fun t => .ok (t.jumpTo target 6), by rw [← pushWord_eq_pushAll]; rfl⟩
  · refine ⟨fun t => (breakVector t).bind fun u => .err .brk u, ?_⟩
    rw [← Res.bind_assoc, ← breakEntry_eq_pushAll]
    simp only [exec, execBrk, hfull rfl]

section
variable {s : State} {target : Word} {i : Instr} {done rest : List Byte} {v : Byte}

/-- A pushing instruction cut off after the bytes of `done`: by an unmapped cell, or by SP = 0x00 (R41). -/
theorem exec_push_cut (hs : s.Inv) (h : (i, done ++ v :: rest) ∈ pushers s target)
    (hfull : i = .brk → s.cfg.brkEffects = .full) (hroom : done.length ≤ s.sp.toNat)
    (hm : ∀ k, k < done.length → (resolveCell s.cfg (BitVec.ofNat 16 (256 + s.sp.toNat - k))).isSome = true) {a : Word}
    (ha : a = BitVec.ofNat 16 (256 + s.sp.toNat - done.length)) :
    (resolveCell s.cfg a = none →
      ∃ u, Pushed s done u ∧ exec i s = .next { u with run := .stopped (.memoryAccess a .write) }) ∧
    ((resolveCell s.cfg a).isSome = true → done.length = s.sp.toNat →
      ∃ u t, Pushed s done u ∧ WroteByte u t a v ∧ exec i s = .next t ∧
        t = { u with mem := t.mem, run := .stopped .stackOverflow }) := by
  obtain ⟨next, hexec⟩ := exec_eq_pushAll h hfull
  obtain ⟨u, hdone, hpushed, hinv, hu, hsp⟩ := pushAll_done hs hroom hm
  have hcfg : u.cfg = s.cfg := by rw [hu]
  have haddr : a = BitVec.ofNat 16 (256 + u.sp.toNat) := by rw [ha, hsp, Nat.add_sub_assoc hroom]
  rw [pushAll_append, hdone, Res.bind_ok, pushAll] at hexec
  subst haddr
  constructor
  · intro hnone
    rw [← hcfg] at hnone
    rw [push_unmapped v hnone] at hexec
    exact ⟨u, hpushed, hexec⟩
  · intro hsome hempty
    rw [← hcfg] at hsome
    have husp : u.sp = 0x00 := BitVec.eq_of_toNat_eq (by rw [hsp, hempty, Nat.sub_self]; rfl)
    obtain ⟨t, hpush, hwrote, ht⟩ := push_full v hinv husp hsome
    rw [hpush] at hexec
    exact ⟨u, t.setRun (.stopped .stackOverflow), hpushed, hwrote.congr rfl rfl rfl rfl, hexec, by rw [ht]; rfl⟩

end

/-- BRK whose vector has an unmapped byte keeps its pushes and I (46 R228, 60 R302). -/
theorem exec_brk_vector_cut {s : State} {a : Word} (hs : s.Inv) (hfull : s.cfg.brkEffects = .full) (hroom : 3 ≤ s.sp.toNat)
    (hm : ∀ k, k < 3 → (resolveCell s.cfg (BitVec.ofNat 16 (256 + s.sp.toNat - k))).isSome = true)
    (ha : a = 0xFFFE ∨ (a = 0xFFFF ∧ (resolveCell s.cfg 0xFFFE).isSome = true)) (hnone : resolveCell s.cfg a = none) :
    ∃ u, Pushed s [hi (s.pc + 2), lo (s.pc + 2), s.flags.pack true] u ∧
      exec .brk s = .next { u with flags := { s.flags with i := true }, run := .stopped (.memoryAccess a .read) } := by
  obtain ⟨u, hdone, hpushed, -, hu, -⟩ :=
    pushAll_done (bytes := [hi (s.pc + 2), lo (s.pc + 2), s.flags.pack true]) hs hroom hm
  have hcfg : u.cfg = s.cfg := by rw [hu]
  rw [← hcfg] at ha hnone
  refine ⟨u, hpushed, ?_⟩
  simp only [exec, execBrk, hfull, breakEntry_eq_pushAll, hdone, Res.bind_ok, breakVector_cut hnone ha, Res.bind_err,
    pushAll_flags hdone]
  rfl

/-! ### The instructions as their pulls -/

/-- The pulling instructions with the number of bytes each pulls. -/
def pullers : List (Instr × Nat) := [(.pla, 1), (.plp, 1), (.rts, 2), (.rti, 3)]

/-- The flags of `s` after instruction `i` pulled `pulled`: RTI's first byte is the status byte (46 R229). -/
def flagsAfterPulls (s : State) (i : Instr) (pulled : List Byte) : Flags :=
  if i = .rti then (pulled.head?.map (s.flags.unpack true)).getD s.flags else s.flags

/-- The state of `i` after it pulled `pulled`: SP has moved over the bytes. -/
def afterPulls (s : State) (i : Instr) (pulled : List Byte) : State :=
  { s with sp := s.sp + BitVec.ofNat 8 pulled.length, flags := flagsAfterPulls s i pulled }

theorem afterPulls_nil (s : State) (i : Instr) : afterPulls s i [] = s := by
  have hflags : flagsAfterPulls s i [] = s.flags := ite_self _
  have hsp : s.sp + BitVec.ofNat 8 0 = s.sp := BitVec.add_zero s.sp
  rw [afterPulls, hflags, List.length_nil, hsp]

theorem pullWord_bind {α : Type} (s : State) (next : PulledWord → Res α) :
    (pullWord s).bind next = (pull s).bind fun p => (pull p.state).bind fun q => next ⟨w16 p.value q.value, q.state⟩ := by
  rw [pullWord, Res.bind_assoc]
  exact congrArg _ (funext fun p => Res.bind_assoc _ _ _)

theorem exec_rts_eq (s : State) :
    exec .rts s = finish ((pullWord s).bind fun r => .ok (r.state.jumpTo (r.value + 1) 6)) := rfl

/-- RTI sets the flags once its first byte is pulled (46 R229). -/
theorem exec_rti_of_pull {s t : State} {p : Byte} (h : pull s = .ok ⟨p, t⟩) :
    exec .rti s = finish ((pullWord (t.setFlags (t.flags.unpack true p))).bind fun r => .ok (r.state.jumpTo r.value 6)) := by
  simp only [exec, execRti, interruptReturn, h, Res.bind_ok]

/-- A pulling instruction that has done some of its pulls goes on with another. -/
theorem exec_eq_pull {s : State} {i : Instr} {pulls : Nat} {pulled : List Byte} (h : (i, pulls) ∈ pullers)
    (hmore : pulled.length < pulls) (hroom : s.sp.toNat + pulled.length ≤ 255)
    (hread : ∀ k, k < pulled.length → s.readByte (BitVec.ofNat 16 (257 + s.sp.toNat + k)) = pulled[k]?) :
    ∃ next, exec i s = finish ((pull (afterPulls s i pulled)).bind next) := by
  simp only [pullers, List.mem_cons, Prod.mk.injEq, List.not_mem_nil, or_false] at h
  match pulled with
  | [] =>
    rw [afterPulls_nil]
    rcases h with ⟨rfl, -⟩ | ⟨rfl, -⟩ | ⟨rfl, -⟩ | ⟨rfl, -⟩
    · exact ⟨_, rfl⟩
    · exact ⟨_, rfl⟩
    · exact ⟨_, by rw [exec_rts_eq, pullWord_bind]⟩
    · exact ⟨_, rfl⟩
  | p :: rest =>
    simp only [List.length_cons] at hmore hroom hread
    have hfirst : pull s = .ok ⟨p, s.setSP (s.sp + 1)⟩ := pull_done (by omega) (hread 0 (by omega))
    rcases h with ⟨rfl, rfl⟩ | ⟨rfl, rfl⟩ | ⟨rfl, rfl⟩ | ⟨rfl, rfl⟩
    · omega
    · omega
    · obtain rfl : rest = [] := List.length_eq_zero_iff.1 (by omega)
      rw [exec_rts_eq, pullWord_bind, hfirst]
      exact ⟨_, rfl⟩
    · rw [exec_rti_of_pull hfirst, pullWord_bind]
      match rest with
      | [] => exact ⟨_, rfl⟩
      | [l] =>
        simp only [List.length_cons, List.length_nil] at hroom hread
        have hsp := sp_succ_toNat (sp := s.sp) (by omega)
        rw [pull_done (v := l) (by rw [setFlags_sp, setSP_sp]; omega) (by
          rw [setFlags_sp, setSP_sp, hsp]
          exact (congrArg (fun n => s.readByte (BitVec.ofNat 16 n)) (by omega)).trans (hread 1 (by omega)))]
        have hsp2 : s.sp + 1 + 1 = s.sp + BitVec.ofNat 8 2 := BitVec.add_assoc s.sp 1 1
        rw [Res.bind_ok, setFlags_sp, setSP_sp, hsp2]
        exact ⟨_, rfl⟩
      | _ :: _ :: _ => simp only [List.length_cons] at hmore; omega

/-- A pulling instruction cut off after the bytes of `pulled`: by SP = 0xFF, or by an unmapped cell (R42). -/
theorem exec_pull_cut {s : State} {i : Instr} {pulls : Nat} {pulled : List Byte} (h : (i, pulls) ∈ pullers)
    (hmore : pulled.length < pulls) (hroom : s.sp.toNat + pulled.length ≤ 255)
    (hread : ∀ k, k < pulled.length → s.readByte (BitVec.ofNat 16 (257 + s.sp.toNat + k)) = pulled[k]?) {a : Word}
    (ha : a = BitVec.ofNat 16 (257 + s.sp.toNat + pulled.length)) :
    (s.sp.toNat + pulled.length = 255 →
      exec i s = .next { s with sp := 0xFF, flags := flagsAfterPulls s i pulled, run := .stopped .stackEmpty }) ∧
    (s.sp.toNat + pulled.length < 255 → resolveCell s.cfg a = none →
      exec i s = .next { s with
        sp := s.sp + BitVec.ofNat 8 (pulled.length + 1), flags := flagsAfterPulls s i pulled,
        run := .stopped (.memoryAccess a .read) }) := by
  obtain ⟨next, hexec⟩ := exec_eq_pull h hmore hroom hread
  have hsp : (s.sp + BitVec.ofNat 8 pulled.length).toNat = s.sp.toNat + pulled.length := by
    rw [BitVec.toNat_add, BitVec.toNat_ofNat]
    omega
  constructor
  · intro hempty
    have hff : s.sp + BitVec.ofNat 8 pulled.length = 0xFF := BitVec.eq_of_toNat_eq (hsp.trans hempty)
    rw [pull_empty (s := afterPulls s i pulled) hff] at hexec
    rw [hexec, ← hff]
    rfl
  · intro hlt hnone
    have haddr : a = BitVec.ofNat 16 (257 + (afterPulls s i pulled).sp.toNat) := by
      rw [ha, afterPulls, hsp, Nat.add_assoc]
    subst haddr
    rw [pull_unmapped (s := afterPulls s i pulled) (hsp ▸ hlt) hnone] at hexec
    have hsucc : s.sp + BitVec.ofNat 8 (pulled.length + 1) = s.sp + BitVec.ofNat 8 pulled.length + 1 := by
      rw [BitVec.ofNat_add, ← BitVec.add_assoc]
      rfl
    rw [hexec, hsucc]
    rfl

/-! ### Pushes and pulls that complete -/

/-- PHA and PHP with room and a mapped cell (46 R222, R224). -/
theorem exec_push_done {s : State} {i : Instr} {v : Byte}
    (hexec : exec i s = finish ((push v s).bind fun t => .ok (t.advance 1 3))) (hs : s.Inv) (hsp : s.sp ≠ 0x00)
    (hm : (resolveCell s.cfg (BitVec.ofNat 16 (256 + s.sp.toNat))).isSome = true) :
    ∃ t, exec i s = .next t ∧ WroteByte s t (BitVec.ofNat 16 (256 + s.sp.toNat)) v ∧
      t = { s with mem := t.mem, sp := s.sp - 1, pc := s.pc + 1, cyc := s.cyc + 3 } := by
  obtain ⟨u, hpush, hwrote, hu, -⟩ := push_done v hs hsp hm
  refine ⟨u.advance 1 3, by rw [hexec, hpush, Res.bind_ok, finish_ok], hwrote.congr rfl rfl rfl rfl, ?_⟩
  rw [hu]
  rfl

theorem exec_pla_done {s : State} {v : Byte} (hpull : pull s = .ok ⟨v, s.setSP (s.sp + 1)⟩) :
    exec .pla s = .next { s with a := v, sp := s.sp + 1, flags := withZN s.flags v, pc := s.pc + 1, cyc := s.cyc + 4 } := by
  simp only [exec, execPla, hpull, Res.bind_ok, finish_ok]
  rw [← setZN_eq_withZN]
  rfl

theorem exec_plp_done {s : State} {v : Byte} (hpull : pull s = .ok ⟨v, s.setSP (s.sp + 1)⟩) :
    exec .plp s = .next { s with
      sp := s.sp + 1, flags := s.flags.unpack s.cfg.plpLoadsB v, pc := s.pc + 1, cyc := s.cyc + 4 } := by
  simp only [exec, execPlp, hpull, Res.bind_ok, finish_ok]
  rfl

/-- The flags of a pulled status byte, by weight (R40). -/
theorem unpack_eq_digits (f : Flags) (loadB : Bool) (v : Byte) :
    f.unpack loadB v = {
      c := decide (v.toNat % 2 = 1)
      z := decide (v.toNat / 2 % 2 = 1)
      i := decide (v.toNat / 4 % 2 = 1)
      d := decide (v.toNat / 8 % 2 = 1)
      b := if loadB then decide (v.toNat / 16 % 2 = 1) else f.b
      v := decide (v.toNat / 64 % 2 = 1)
      n := decide (v.toNat / 128 % 2 = 1) } := by
  simp only [Flags.unpack, getLsbD_eq_binary_digit, Nat.reducePow, Nat.div_one]

/-- A push and then a pull at the SP it left give the byte back: the cell is below PRG-ROM and so takes the write (R43). -/
theorem pull_after_push {s t : State} {v : Byte} (hsp : s.sp ≠ 0x00) (hback : t.sp + 1 = s.sp)
    (hwrote : WroteByte s t (BitVec.ofNat 16 (256 + s.sp.toNat)) v) : pull t = .ok ⟨v, t.setSP (t.sp + 1)⟩ := by
  obtain ⟨-, hstored, -⟩ := hwrote
  refine pull_of (fun hff => hsp ?_) ?_
  · rw [← hback, hff]
    rfl
  · rw [hback, stackAddr_eq]
    exact hstored (ignoresWrite_stack _ _) _ rfl

/-! ### The statements about the stack -/

/-- Settles O50: each instruction is one push that has room. -/
theorem pushesComplete : Obligations.PushesComplete := by
  intro s hs hsp hm i v hiv
  simp only [List.mem_cons, Prod.mk.injEq, List.not_mem_nil, or_false] at hiv
  rcases hiv with ⟨rfl, rfl⟩ | ⟨rfl, rfl⟩
  · exact exec_push_done rfl hs hsp hm
  · exact exec_push_done rfl hs hsp hm

/-- Settles O51: each instruction is one pull that has a byte. -/
theorem pullsComplete : Obligations.PullsComplete := by
  intro s v hsp hread
  rw [Nat.add_right_comm] at hread
  have hpull := pull_done (sp_lt_of_ne hsp) hread
  exact ⟨exec_pla_done hpull, by rw [exec_plp_done hpull, unpack_eq_digits]⟩

/-- Settles O52: the first push or pull is the one that is cut off. -/
theorem exhaustedStackStopsTheRun : Obligations.ExhaustedStackStopsTheRun := by
  refine ⟨fun s hs hsp hm target i v hiv => ?_, fun s hsp i hi => ?_⟩
  · have hpusher : ∃ rest, (i, [] ++ v :: rest) ∈ pushers s target ∧ i ≠ .brk := by
      simp only [List.mem_cons, Prod.mk.injEq, List.not_mem_nil, or_false] at hiv
      rcases hiv with ⟨rfl, rfl⟩ | ⟨rfl, rfl⟩ | ⟨rfl, rfl⟩
      · exact ⟨[], by simp [pushers], nofun⟩
      · exact ⟨[], by simp [pushers], nofun⟩
      · exact ⟨[lo (s.pc + 2)], by simp [pushers], nofun⟩
    obtain ⟨rest, hmem, hbrk⟩ := hpusher
    have hcut := exec_push_cut (a := 0x0100) hs hmem (fun h => absurd h hbrk) (Nat.zero_le _) nofun (by rw [hsp]; rfl)
    obtain ⟨u, t, rfl, hwrote, hexec, ht⟩ := hcut.2 hm (by rw [hsp]; rfl)
    exact ⟨t, hexec, hwrote, ht⟩
  · have hpuller : ∃ pulls, (i, pulls) ∈ pullers ∧ 0 < pulls := by
      simp only [List.mem_cons, List.not_mem_nil, or_false] at hi
      rcases hi with rfl | rfl | rfl | rfl
      · exact ⟨1, by decide, by decide⟩
      · exact ⟨1, by decide, by decide⟩
      · exact ⟨2, by decide, by decide⟩
      · exact ⟨3, by decide, by decide⟩
    obtain ⟨pulls, hmem, hpos⟩ := hpuller
    obtain ⟨next, hexec⟩ := exec_eq_pull (pulled := []) hmem hpos (by rw [hsp]; decide) nofun
    rw [hexec, afterPulls_nil, pull_empty hsp]
    rfl

/-- Settles O53: the pushes before the cut are `pushAll_done`, the pulls before it `exec_eq_pull`. -/
theorem unfinishedStackWorkStays : Obligations.UnfinishedStackWorkStays := by
  refine ⟨?pushes, ?pulls, ?vector⟩
  case pushes =>
    rintro s target i _ done rest v a hs hmem hfull rfl hroom hm ha
    exact exec_push_cut hs hmem hfull hroom hm ha
  case pulls =>
    rintro s i pulls pulled _ a hmem hmore hroom hread rfl ha
    exact exec_pull_cut hmem hmore hroom hread ha
  case vector =>
    intro s a hs hfull hroom hm ha hnone
    exact exec_brk_vector_cut hs hfull hroom hm ha hnone

/-- Settles O57: the pull finds the byte the push wrote, and the status byte is unpacked to the flags it was packed from. -/
theorem pullUndoesPush : Obligations.PullUndoesPush := by
  intro s hs hsp hm
  have hback : s.sp - 1 + 1 = s.sp := BitVec.sub_add_cancel s.sp 1
  constructor
  · obtain ⟨t, hexec, hwrote, ht⟩ := exec_push_done (i := .pha) rfl hs hsp hm
    have htsp : t.sp + 1 = s.sp := by rw [ht]; exact hback
    have hpla := exec_pla_done (pull_after_push hsp htsp hwrote)
    exact ⟨t, _, hexec, hpla, rfl, htsp, by rw [ht], by rw [ht]⟩
  · obtain ⟨t, hexec, hwrote, ht⟩ := exec_push_done (i := .php) rfl hs hsp hm
    have htsp : t.sp + 1 = s.sp := by rw [ht]; exact hback
    have hplp := exec_plp_done (pull_after_push hsp htsp hwrote)
    refine ⟨t, _, hexec, hplp, htsp, by rw [ht], ?_⟩
    rw [unpack_pack, ht]

end Sys2Proof.Machine
end

section
/-! PROOFS. The windows of the mapper (20_memory.md R73 to R83): the cell each address resolves to, the addresses of one cell,
what a write changes, and the PRG-ROM bytes that no write reaches. -/

namespace Sys2Proof.Machine

/-! ### The windows -/

theorem romBytes_pos {b : RomBanks} : 0 < romBytes b ↔ b ≠ .none := by
  cases b <;> decide

theorem inRomWindow_iff {c : Config} {a : Word} : inRomWindow c a = true ↔ 0x8000 ≤ a.toNat ∧ c.romBanks ≠ .none := by
  rw [inRomWindow, Bool.and_eq_true, decide_eq_true_iff, decide_eq_true_iff, romBytes_pos]

theorem inPrgRamWindow_iff {c : Config} {a : Word} :
    inPrgRamWindow c a = true ↔ 0x6000 ≤ a.toNat ∧ a.toNat < 0x8000 ∧ 0 < c.prgRamSize := by
  simp only [inPrgRamWindow, Bool.and_eq_true, decide_eq_true_iff, and_assoc]

theorem inGeneralRam_iff {c : Config} {a : Word} :
    inGeneralRam c a = true ↔ ∃ r ∈ c.generalRam, r.first.toNat ≤ a.toNat ∧ a.toNat ≤ r.last.toNat := by
  simp only [inGeneralRam, List.any_eq_true, Bool.and_eq_true, decide_eq_true_iff]

/-- A fallback address is one outside both windows (R78). -/
theorem not_inWindow_of_fallback {c : Config} {a : Word} (h : Fallback c a) :
    ¬ inRomWindow c a = true ∧ ¬ inPrgRamWindow c a = true := by
  rw [inRomWindow_iff, inPrgRamWindow_iff]
  rcases h with hlow | ⟨hmid, hsize⟩ | ⟨hhigh, hbanks⟩
  · omega
  · omega
  · exact ⟨fun h => h.2 hbanks, by omega⟩

/-! ### The cell of an address -/

theorem resolveCell_romWindow {c : Config} {a : Word} (ha : 0x8000 ≤ a.toNat) (hbanks : c.romBanks ≠ .none) :
    resolveCell c a = some (.prgRom ((a.toNat - 0x8000) % romBytes c.romBanks)) := by
  rw [resolveCell, if_pos (inRomWindow_iff.2 ⟨ha, hbanks⟩)]

theorem resolveCell_oneBank {c : Config} {a : Word} (hbanks : c.romBanks = .one) (ha : 0x8000 ≤ a.toNat) :
    resolveCell c a = some (.prgRom ((a.toNat - 0x8000) % 0x4000)) := by
  rw [resolveCell_romWindow ha (by rw [hbanks]; decide), hbanks, romBytes]

/-- Two banks fill the window: no address of it wraps (R76). -/
theorem resolveCell_twoBanks {c : Config} {a : Word} (hbanks : c.romBanks = .two) (ha : 0x8000 ≤ a.toNat) :
    resolveCell c a = some (.prgRom (a.toNat - 0x8000)) := by
  have hlt : a.toNat - 0x8000 < 0x8000 := by omega
  rw [resolveCell_romWindow ha (by rw [hbanks]; decide), hbanks, romBytes, Nat.mod_eq_of_lt hlt]

theorem resolveCell_prgRamWindow {c : Config} {a : Word} (hsize : 0 < c.prgRamSize) (hlow : 0x6000 ≤ a.toNat)
    (hhigh : a.toNat < 0x8000) : resolveCell c a = some (.prgRam ((a.toNat - 0x6000) % c.prgRamSize)) := by
  have hrom : ¬ inRomWindow c a = true := by rw [inRomWindow_iff]; omega
  rw [resolveCell, if_neg hrom, if_pos (inPrgRamWindow_iff.2 ⟨hlow, hhigh, hsize⟩)]

theorem resolveCell_fallback {c : Config} {a : Word} (h : Fallback c a) :
    resolveCell c a = if inGeneralRam c a then some (.generalRam a) else none := by
  obtain ⟨hrom, hram⟩ := not_inWindow_of_fallback h
  rw [resolveCell, if_neg hrom, if_neg hram]

/-- Addresses of one cell read alike (R81). -/
theorem readByte_eq_of_resolveCell_eq {s : State} {a b : Word} (h : resolveCell s.cfg a = resolveCell s.cfg b) :
    s.readByte a = s.readByte b := by
  rw [State.readByte, State.readByte, h]

theorem readByte_eq_none_iff {s : State} {a : Word} : s.readByte a = none ↔ resolveCell s.cfg a = none :=
  Option.map_eq_none_iff

theorem writeByte_eq_none_iff {s : State} {a : Word} {v : Byte} : s.writeByte a v = none ↔ resolveCell s.cfg a = none :=
  Option.map_eq_none_iff

/-- One bank repeats in the upper half of the window (R75). -/
theorem resolveCell_oneBank_mirror {c : Config} {a : Word} (hbanks : c.romBanks = .one) (hlow : 0x8000 ≤ a.toNat)
    (hhigh : a.toNat < 0xC000) : resolveCell c a = resolveCell c (a + 0x4000) := by
  have hnat : (a + 0x4000).toNat = a.toNat + 0x4000 := by bv_omega
  rw [resolveCell_oneBank hbanks hlow, resolveCell_oneBank hbanks (by omega), hnat, Nat.sub_add_comm hlow,
    Nat.add_mod_right]

/-- PRG-RAM repeats at every multiple of its size (R77). -/
theorem resolveCell_prgRam_mirror {c : Config} {a : Word} (hsize : 0 < c.prgRamSize) (hlow : 0x6000 ≤ a.toNat)
    (hhigh : a.toNat + c.prgRamSize < 0x8000) :
    resolveCell c a = resolveCell c (a + BitVec.ofNat 16 c.prgRamSize) := by
  have hnat : (a + BitVec.ofNat 16 c.prgRamSize).toNat = a.toNat + c.prgRamSize := by
    rw [BitVec.toNat_add, BitVec.toNat_ofNat]
    omega
  rw [resolveCell_prgRamWindow hsize hlow (by omega), resolveCell_prgRamWindow hsize (by omega) (by omega), hnat,
    Nat.sub_add_comm hlow, Nat.add_mod_right]

/-- Settles O15: the cell of an address is said window by window, and addresses of one cell read alike. -/
theorem addressesReadTheCellOfTheirWindow : Obligations.AddressesReadTheCellOfTheirWindow := by
  intro s a
  refine ⟨resolveCell_oneBank, resolveCell_twoBanks, resolveCell_prgRamWindow, ?inRam, ?unmapped, fun _ => readByte_eq,
    readByte_eq_none_iff.2, ?oneBank, ?prgRam⟩
  case inRam =>
    intro hfall hin
    rw [resolveCell_fallback hfall, if_pos (inGeneralRam_iff.2 hin)]
  case unmapped =>
    intro hfall hout
    have hram : ¬ inGeneralRam s.cfg a = true := fun h =>
      let ⟨r, hr, hin⟩ := inGeneralRam_iff.1 h
      hout r hr hin
    rw [resolveCell_fallback hfall, if_neg hram]
  case oneBank =>
    intro hbanks hlow hhigh
    exact readByte_eq_of_resolveCell_eq (resolveCell_oneBank_mirror hbanks hlow hhigh)
  case prgRam =>
    intro hsize hlow hhigh
    exact readByte_eq_of_resolveCell_eq (resolveCell_prgRam_mirror hsize hlow hhigh)

/-! ### The addresses of one cell -/

/-- Addresses that the windows say share a cell resolve to one cell. -/
theorem SameCell.resolveCell_eq {c : Config} {a b : Word} (h : SameCell c a b) : resolveCell c b = resolveCell c a := by
  rcases h with rfl | ⟨hbanks, ha, hb, hmod⟩ | ⟨hsize, ha, ha', hb, hb', hmod⟩
  · rfl
  · have hoffset : (b.toNat - 0x8000) % 0x4000 = (a.toNat - 0x8000) % 0x4000 := by omega
    rw [resolveCell_oneBank hbanks ha, resolveCell_oneBank hbanks hb, hoffset]
  · rw [resolveCell_prgRamWindow hsize ha ha', resolveCell_prgRamWindow hsize hb hb', hmod]

/-- PRG-ROM addresses of one cell are congruent with one bank, and equal with two (R75, R76). -/
theorem sameCell_of_rom {c : Config} {a b : Word} (ha : inRomWindow c a = true) (hb : inRomWindow c b = true)
    (h : (b.toNat - 0x8000) % romBytes c.romBanks = (a.toNat - 0x8000) % romBytes c.romBanks) : SameCell c a b := by
  obtain ⟨ha, hbanks⟩ := inRomWindow_iff.1 ha
  obtain ⟨hb, -⟩ := inRomWindow_iff.1 hb
  cases hc : c.romBanks with
  | none => exact absurd hc hbanks
  | one =>
    rw [hc, romBytes] at h
    exact .inr (.inl ⟨hc, ha, hb, by omega⟩)
  | two =>
    rw [hc, romBytes] at h
    exact .inl (BitVec.eq_of_toNat_eq (by omega))

theorem sameCell_of_prgRam {c : Config} {a b : Word} (ha : inPrgRamWindow c a = true) (hb : inPrgRamWindow c b = true)
    (h : (b.toNat - 0x6000) % c.prgRamSize = (a.toNat - 0x6000) % c.prgRamSize) : SameCell c a b := by
  obtain ⟨ha, ha', hsize⟩ := inPrgRamWindow_iff.1 ha
  obtain ⟨hb, hb', -⟩ := inPrgRamWindow_iff.1 hb
  exact .inr (.inr ⟨hsize, ha, ha', hb, hb', h.symm⟩)

/-- The windows say of a mapped address which others share its cell, as the mapper does (R81). -/
theorem sameCell_iff {c : Config} {a b : Word} (ha : (resolveCell c a).isSome = true) :
    SameCell c a b ↔ resolveCell c b = resolveCell c a := by
  refine ⟨SameCell.resolveCell_eq, fun h => ?_⟩
  obtain ⟨cell, hcell⟩ := Option.isSome_iff_exists.1 ha
  rw [hcell] at h
  rcases resolveCell_cases hcell with ⟨hwa, rfl⟩ | ⟨-, hwa, rfl⟩ | ⟨-, -, -, rfl⟩
  · rcases resolveCell_cases h with ⟨hwb, hk⟩ | ⟨-, -, hk⟩ | ⟨-, -, -, hk⟩
    · exact sameCell_of_rom hwa hwb (StorageCell.prgRom.inj hk).symm
    · cases hk
    · cases hk
  · rcases resolveCell_cases h with ⟨-, hk⟩ | ⟨-, hwb, hk⟩ | ⟨-, -, -, hk⟩
    · cases hk
    · exact sameCell_of_prgRam hwa hwb (StorageCell.prgRam.inj hk).symm
    · cases hk
  · rcases resolveCell_cases h with ⟨-, hk⟩ | ⟨-, -, hk⟩ | ⟨-, -, -, hk⟩
    · cases hk
    · cases hk
    · exact .inl (StorageCell.generalRam.inj hk)

/-! ### Writes -/

theorem ignoresWrite_iff {c : Config} {a : Word} :
    ignoresWrite c a = true ↔ 0x8000 ≤ a.toNat ∧ c.romBanks ≠ .none ∧ c.romWrite = .ignore := by
  rw [ignoresWrite, Bool.and_eq_true, decide_eq_true_iff, inRomWindow_iff, and_assoc]

/-- Settles O16: `WroteByte` says it of the mapper's cells, and `SameCell` is the mapper's cells said by the windows. -/
theorem writeChangesOneCell : Obligations.WriteChangesOneCell := by
  intro s a v hs hmapped
  obtain ⟨t, ht⟩ := writeByte_some v hmapped
  obtain ⟨hignored, hstored, hframe⟩ := writeByte_wrote hs ht
  obtain ⟨hwf, -⟩ := hs
  have hsame : ∀ b, SameCell s.cfg a b ↔ resolveCell s.cfg b = resolveCell s.cfg a := fun b => sameCell_iff hmapped
  exact ⟨t, ht, writeByte_eq ht, ⟨hignored, hstored, hframe⟩, hsame, ignoresWrite_iff,
    fun b hb hi => hstored hi b ((hsame b).1 hb), fun b hb => hframe b fun h => hb ((hsame b).2 h),
    fun cell hcell ha => writeByte_cellByte hwf ht hcell ha⟩

/-! ### The cartridge -/

/-- Under ROM_WRITE = ignore no write of a run reaches a PRG-ROM cell (R79). -/
theorem Reachable.romByte {p : Params} {s : State} (h : Reachable p s) (hro : p.romWrite = .ignore) {k : Nat}
    (hk : k < p.prgRom.length) : p.prgRom[k]? = some (s.cellByte (.prgRom k)) := by
  obtain ⟨b, hb, -, hmem⟩ := h.runOf
  obtain ⟨hwf, -⟩ := beforeVector_inv hb
  have hcell : cellExists (p.config b) (.prgRom k) = true := decide_eq_true (romBytes_of_banks hb ▸ hk)
  have hkept : s.cellByte (.prgRom k) = (beforeVector p b).cellByte (.prgRom k) :=
    hmem.get_cell hwf hcell fun _ _ => by simp [writable, Params.config, hro]
  rw [hkept, List.getElem?_eq_getElem hk, beforeVector_romByte hb (List.getElem?_eq_getElem hk)]

theorem Reachable.romBanks {p : Params} {s : State} (h : Reachable p s) {b : RomBanks}
    (hb : romBanksOf p.prgRom.length = some b) : s.cfg.romBanks = b := by
  obtain ⟨b', hb', hcfg, -⟩ := h.runOf
  rw [hb] at hb'
  cases hb'
  rw [hcfg]
  rfl

/-- Settles O14: the address resolves to a PRG-ROM cell, which holds its byte of the cartridge. -/
theorem cartridgeRomSurvivesEveryRun : Obligations.CartridgeRomSurvivesEveryRun := by
  intro p s h hro
  refine ⟨fun hlen a ha => ?oneBank, fun hlen a ha => ?twoBanks⟩
  case oneBank =>
    have hbanks : s.cfg.romBanks = .one := h.romBanks (by rw [hlen]; rfl)
    rw [readByte_eq (resolveCell_oneBank hbanks ha), h.romByte hro (by omega)]
  case twoBanks =>
    have hbanks : s.cfg.romBanks = .two := h.romBanks (by rw [hlen]; rfl)
    rw [readByte_eq (resolveCell_twoBanks hbanks ha), h.romByte hro (by omega)]

end Sys2Proof.Machine
end

section
/-! PROOFS. Where MemoryAccessError comes from (60_exceptions.md R306): every part of a step that raises it names an address
that the mapper does not map, so a silent mapper raises none (20_memory.md R78). -/

namespace Sys2Proof.Machine

/-- A state of a step that goes on, under configuration `c`. It is about two fields alone, so that it holds by definition
after an update of any other. -/
def Going (c : Config) (s : State) : Prop := s.run = .running ∧ s.cfg = c

/-- Part of a step under configuration `c`: a value of which `P` holds, or an error that, if it is MemoryAccessError, names
an address `c` does not map. -/
inductive Res.Ends (c : Config) {α : Type} (P : α → Prop) : Res α → Prop where
  | ok {v : α} (h : P v) : Res.Ends c P (.ok v)
  | err {e : StepError} {s : State} (h : ∀ a d, e = .memoryAccess a d → resolveCell c a = none) : Res.Ends c P (.err e s)

/-- An outcome under configuration `c`: if MemoryAccessError stops its next state, `c` does not map the address. -/
def OutEnds (c : Config) (o : Out) : Prop :=
  ∀ t a d, o = .next t → t.run = .stopped (.memoryAccess a d) → resolveCell c a = none

section
variable {c : Config} {s : State}

theorem Going.running (h : Going c s) : s.run = .running := h.left

theorem Going.cfg (h : Going c s) : s.cfg = c := h.right

theorem Res.Ends.bind {α β : Type} {P : α → Prop} {Q : β → Prop} {r : Res α} {f : α → Res β} (h : r.Ends c P)
    (hf : ∀ v, P v → (f v).Ends c Q) : (r.bind f).Ends c Q := by
  cases h with
  | ok h => exact hf _ h
  | err h => exact .err h

theorem Res.Ends.memoryAccess {α : Type} {P : α → Prop} {a : Word} (d : Access) (h : resolveCell c a = none) :
    (Res.err (.memoryAccess a d) s : Res α).Ends c P := by
  refine .err fun b d' heq => ?_
  cases heq
  exact h

theorem finish_ends {r : Res State} (h : r.Ends c (Going c)) : OutEnds c (finish r) := by
  intro t a d hnext hrun
  cases h with
  | ok h =>
    cases hnext
    rw [h.running] at hrun
    cases hrun
  | err h =>
    cases hnext
    exact h a d (RunStatus.stopped.inj hrun)

theorem next_ends (h : Going c s) : OutEnds c (.next s) := finish_ends (.ok h)

theorem raise_ends {e : StepError} (h : ∀ a d, e ≠ .memoryAccess a d) : OutEnds c (raise e s) :=
  finish_ends (.err fun a d he => absurd he (h a d))

theorem Held.going {t : State} (h : Held s t) (hs : Going c s) : Going c t := ⟨h.run.trans hs.running, h.cfg.trans hs.cfg⟩

/-! ### The shared operations -/

theorem memRead_ends (hs : Going c s) (a : Word) : (memRead a s).Ends c fun _ => True := by
  unfold memRead
  split
  case h_1 => exact .ok trivial
  case h_2 h => exact .memoryAccess _ (hs.cfg ▸ readByte_eq_none_iff.1 h)

theorem memWrite_ends (hs : Going c s) (a : Word) (v : Byte) : (memWrite a v s).Ends c (Going c) := by
  unfold memWrite
  split
  case h_1 t h => exact .ok ((writeByte_held h).going hs)
  case h_2 h => exact .memoryAccess _ (hs.cfg ▸ writeByte_eq_none_iff.1 h)

theorem readPair_ends (hs : Going c s) (la ha : Word) : (readPair la ha s).Ends c fun _ => True :=
  (memRead_ends hs la).bind fun _ _ => (memRead_ends hs ha).bind fun _ _ => .ok trivial

theorem push_ends (hs : Going c s) (v : Byte) : (push v s).Ends c (Going c) := by
  refine (memWrite_ends hs _ v).bind fun t ht => ?_
  split
  · exact .err nofun
  · exact .ok ht

theorem pull_ends (hs : Going c s) : (pull s).Ends c fun p => Going c p.state := by
  unfold pull
  split
  · exact .err nofun
  · exact (memRead_ends (s := s.setSP (s.sp + 1)) hs _).bind fun _ _ => .ok hs

theorem pushWord_ends (hs : Going c s) (w : Word) : (pushWord w s).Ends c (Going c) :=
  (push_ends hs _).bind fun _ ht => push_ends ht _

theorem pullWord_ends (hs : Going c s) : (pullWord s).Ends c fun r => Going c r.state :=
  (pull_ends hs).bind fun _ hl => (pull_ends hl).bind fun _ hh => .ok hh

theorem breakEntry_ends (hs : Going c s) : (breakEntry s).Ends c (Going c) :=
  (pushWord_ends hs _).bind fun _ ht => (push_ends ht _).bind fun u hu =>
    (readPair_ends (s := u.setFlags { u.flags with i := true }) hu _ _).bind fun _ _ => .ok hu

theorem interruptReturn_ends (hs : Going c s) (k : Nat) : (interruptReturn k s).Ends c (Going c) :=
  (pull_ends hs).bind fun p hp =>
    (pullWord_ends (s := p.state.setFlags (p.state.flags.unpack true p.value)) hp).bind fun _ hr => .ok hr

theorem resolve_ends (hs : Going c s) (m : MemOperand) : (resolve m s).Ends c fun _ => True := by
  cases m with
  | indexedIndirect b => exact (readPair_ends hs _ _).bind fun _ _ => .ok trivial
  | indirectIndexed b => exact (readPair_ends hs _ _).bind fun _ _ => .ok trivial
  | zeroPage b => exact .ok trivial
  | zeroPageX b => exact .ok trivial
  | zeroPageY b => exact .ok trivial
  | absolute w => exact .ok trivial
  | absoluteX w => exact .ok trivial
  | absoluteY w => exact .ok trivial

theorem load_ends (hs : Going c s) (o : ReadOperand) : (load o s).Ends c fun _ => True := by
  cases o with
  | immediate v => exact .ok trivial
  | mem m => exact (resolve_ends hs m).bind fun r _ => (memRead_ends hs r.ea).bind fun _ _ => .ok trivial

theorem jumpTarget_ends (hs : Going c s) (o : JumpOperand) : (jumpTarget o s).Ends c fun _ => True := by
  cases o with
  | absolute target => exact .ok trivial
  | indirect ptr => exact readPair_ends hs _ _

/-! ### The shapes -/

theorem readWith_ends {o : ReadOperand} {f : Byte → State → State} (hf : ∀ v, Plain (f v)) (hs : Going c s) :
    OutEnds c (readWith o f s) :=
  finish_ends ((load_ends hs o).bind fun l _ => .ok (((hf l.value).held s).going hs))

theorem storeValue_ends (hs : Going c s) (m : MemOperand) (v : Byte) : OutEnds c (storeValue m v s) :=
  finish_ends ((resolve_ends hs m).bind fun r _ => (memWrite_ends hs r.ea v).bind fun _ ht => .ok ht)

theorem modifyWith_ends {m : MemOperand} {prim : Primitive} {after : Byte → State → State} (hafter : ∀ r, Plain (after r))
    (hs : Going c s) : OutEnds c (modifyWith m prim after s) :=
  finish_ends ((resolve_ends hs m).bind fun r _ => (memRead_ends hs r.ea).bind fun v _ =>
    (memWrite_ends (s := s.setFlags (prim v s.flags).flags) hs r.ea _).bind fun t ht => .ok (((hafter _).held t).going ht))

theorem branchIf_ends (hs : Going c s) (cond : Bool) (offset : Byte) : OutEnds c (branchIf cond offset s) := by
  unfold branchIf
  cases cond with
  | true => exact next_ends hs
  | false => exact next_ends hs

theorem execBrk_ends (hs : Going c s) : OutEnds c (execBrk s) := by
  unfold execBrk
  split
  · exact finish_ends ((breakEntry_ends hs).bind fun _ _ => .err nofun)
  · exact raise_ends nofun

theorem Meaning.ends {i : Instr} {F : State → Out} (hF : Meaning i F) (hs : Going c s) : OutEnds c (F s) := by
  cases hF with
  | read o f hf _ _ => exact readWith_ends hf hs
  | store m g _ _ _ => exact storeValue_ends hs m (g s)
  | modify m prim after _ hafter _ _ => exact modifyWith_ends hafter hs
  | shiftA prim _ _ _ => exact next_ends hs
  | implied f hf _ _ => exact next_ends ((hf.held s).going hs)
  | branch cond offset _ _ => exact branchIf_ends hs (cond s) offset
  | jmp o _ => exact finish_ends ((jumpTarget_ends hs o).bind fun _ _ => .ok hs)
  | pha _ => exact finish_ends ((push_ends hs _).bind fun _ ht => .ok ht)
  | php _ => exact finish_ends ((push_ends hs _).bind fun _ ht => .ok ht)
  | pla _ => exact finish_ends ((pull_ends hs).bind fun _ hp => .ok hp)
  | plp _ => exact finish_ends ((pull_ends hs).bind fun _ hp => .ok hp)
  | jsr target _ => exact finish_ends ((pushWord_ends hs _).bind fun _ ht => .ok ht)
  | rts _ => exact finish_ends ((pullWord_ends hs).bind fun _ hr => .ok hr)
  | brk _ => exact execBrk_ends hs
  | rti _ => exact finish_ends (interruptReturn_ends hs 6)
  | sbcEB v _ =>
    unfold execSbcImmediateEB
    split
    · exact readWith_ends plain_sbc hs
    · exact raise_ends nofun
  | unknown op _ => exact raise_ends nofun

/-! ### The step -/

theorem fetch_ends (hs : Going c s) : (fetch s).Ends c fun _ => True := by
  refine (memRead_ends hs _).bind fun op _ => ?_
  split
  · exact .ok trivial
  · exact (memRead_ends hs _).bind fun _ _ => .ok trivial
  · exact (memRead_ends hs _).bind fun _ _ => (memRead_ends hs _).bind fun _ _ => .ok trivial

theorem step_ends (hs : Going c s) : OutEnds c (step s) := by
  have hfetch := fetch_ends hs
  unfold step
  rw [hs.running]
  generalize fetch s = r at hfetch
  cases hfetch with
  | ok _ => exact (exec_meaning _).ends hs
  | err he => exact finish_ends (.err he)

end

/-- MemoryAccessError names an address the mapper does not map (60 R306). -/
theorem step_memoryAccess_unmapped {s t : State} {a : Word} {d : Access} (hrun : s.run = .running) (h : step s = .next t)
    (ht : t.run = .stopped (.memoryAccess a d)) : resolveCell s.cfg a = none :=
  step_ends ⟨hrun, rfl⟩ t a d h ht

/-! ### The silent mapper -/

theorem resolveCell_isSome_of_generalRam {c : Config} {a : Word} (h : inGeneralRam c a = true) :
    (resolveCell c a).isSome = true := by
  rw [resolveCell, if_pos h]
  split
  · rfl
  · split <;> rfl

/-- Settles O17: every address is in GENERAL_RAM, and MemoryAccessError names an address that is not mapped. -/
theorem silentMapperNeverFails : Obligations.SilentMapperNeverFails := by
  refine ⟨fun c hram a => ?silent, fun s t a d hsilent hrun h ht => ?step⟩
  case silent =>
    have hrange : (⟨0x0000, 0xFFFF⟩ : AddrRange) ∈ c.generalRam := by rw [hram]; exact List.mem_singleton_self _
    exact resolveCell_isSome_of_generalRam
      (inGeneralRam_iff.2 ⟨_, hrange, Nat.zero_le _, Nat.le_of_lt_succ a.isLt⟩)
  case step =>
    have hmapped := hsilent a
    rw [step_memoryAccess_unmapped hrun h ht] at hmapped
    cases hmapped

end Sys2Proof.Machine
end

section
/-! PROOFS. The encoding (30_encoding.md R100 to R108): decoding read off the entry of the opcode byte, what the entries of the
map make, and the two round trips; from them the unrecognised bytes (R107) and the step that meets one (60 R304). -/

namespace Sys2Proof.Machine

/-! ### Decoding by the format of the entry -/

section
variable {usbcEb : Bool} {op : Byte}

theorem decode_f1 {i : Instr} (h : entryOf usbcEb op = .f1 i) (rest : List Byte) :
    decode usbcEb (op :: rest) = .ok (i, rest) := by
  simp only [decode, h]

theorem decode_f2 {make : Byte → Instr} (h : entryOf usbcEb op = .f2 make) (b : Byte) (rest : List Byte) :
    decode usbcEb (op :: b :: rest) = .ok (make b, rest) := by
  simp only [decode, h]

theorem decode_f3 {make : Word → Instr} (h : entryOf usbcEb op = .f3 make) (b1 b2 : Byte) (rest : List Byte) :
    decode usbcEb (op :: b1 :: b2 :: rest) = .ok (make (w16 b1 b2), rest) := by
  simp only [decode, h]

theorem decode_truncated {operands : List Byte} (h : operands.length < (entryOf usbcEb op).operandBytes) :
    decode usbcEb (op :: operands) = .error (.truncated op) := by
  cases hentry : entryOf usbcEb op with
  | f1 i => simp [hentry, Entry.operandBytes] at h
  | f2 make =>
    match operands, h with
    | [], _ => simp only [decode, hentry]
    | _ :: _, h => simp [hentry, Entry.operandBytes] at h
  | f3 make =>
    match operands, h with
    | [], _ => simp only [decode, hentry]
    | [_], _ => simp only [decode, hentry]
    | _ :: _ :: _, h => simp [hentry, Entry.operandBytes] at h

/-- The operand bytes an entry takes, of `b1` and `b2`. -/
def entryOperands (b1 b2 : Byte) : Entry → List Byte
  | .f1 _ => []
  | .f2 _ => [b1]
  | .f3 _ => wordBytes (w16 b1 b2)

theorem wordBytes_w16 (l h : Byte) : wordBytes (w16 l h) = [l, h] := by rw [wordBytes, lo_w16, hi_w16]

/-- Where enough operand bytes stand, the entry takes those it needs and leaves the rest. -/
theorem decode_entry {operands : List Byte} (h : (entryOf usbcEb op).operandBytes ≤ operands.length) :
    ∃ b1 b2, operands = entryOperands b1 b2 (entryOf usbcEb op) ++ operands.drop (entryOf usbcEb op).operandBytes ∧
      decode usbcEb (op :: operands) =
        .ok (entryInstr b1 b2 (entryOf usbcEb op), operands.drop (entryOf usbcEb op).operandBytes) := by
  cases hentry : entryOf usbcEb op with
  | f1 i => exact ⟨0, 0, rfl, decode_f1 hentry operands⟩
  | f2 make =>
    rw [hentry] at h
    match operands, h with
    | b :: rest, _ => exact ⟨b, 0, rfl, decode_f2 hentry b rest⟩
  | f3 make =>
    rw [hentry] at h
    match operands, h with
    | [_], h => simp [Entry.operandBytes] at h
    | b1 :: b2 :: rest, _ =>
      refine ⟨b1, b2, ?_, decode_f3 hentry b1 b2 rest⟩
      rw [entryOperands, wordBytes_w16]
      rfl

/-- What decodes is what an entry makes of the bytes it takes. -/
theorem decode_ok {bytes rest : List Byte} {i : Instr} (h : decode usbcEb bytes = .ok (i, rest)) :
    ∃ op b1 b2, bytes = op :: entryOperands b1 b2 (entryOf usbcEb op) ++ rest ∧
      i = entryInstr b1 b2 (entryOf usbcEb op) := by
  cases bytes with
  | nil => cases h
  | cons op operands =>
    rcases Nat.lt_or_ge operands.length (entryOf usbcEb op).operandBytes with hlen | hlen
    · rw [decode_truncated hlen] at h
      cases h
    · obtain ⟨b1, b2, hoperands, hdecode⟩ := decode_entry hlen
      rw [hdecode] at h
      cases h
      exact ⟨op, b1, b2, congrArg (op :: ·) hoperands, rfl⟩

end

/-! ### What the entries make -/

theorem opcodeMap_length : opcodeMap.length = 256 := by
  simpa [opcodesFrom] using congrArg List.length (opcodeMap_opcodes 0 0)

/-- What the four blocks of rows show of every entry, by its two sides, holds of the entry of `op`. -/
theorem opcodeMap_getD_congr {α : Type} {f g : Entry → α} (h03 : opcodeMap03.map f = opcodeMap03.map g)
    (h47 : opcodeMap47.map f = opcodeMap47.map g) (h8B : opcodeMap8B.map f = opcodeMap8B.map g)
    (hCF : opcodeMapCF.map f = opcodeMapCF.map g) (op : Byte) :
    f (opcodeMap.getD op.toNat (bad op)) = g (opcodeMap.getD op.toNat (bad op)) := by
  have hmap : opcodeMap.map f = opcodeMap.map g := by simp only [opcodeMap, List.map_append, h03, h47, h8B, hCF]
  have hlt : op.toNat < opcodeMap.length := opcodeMap_length ▸ op.isLt
  rw [List.getD_eq_getElem _ _ hlt]
  exact List.map_inj_left.1 hmap _ (List.getElem_mem hlt)

/-- The operand bytes of a decoded instruction are those its entry took (R102). -/
theorem entryOf_operandBytes (usbcEb : Bool) (op b1 b2 : Byte) :
    (entryInstr b1 b2 (entryOf usbcEb op)).operandBytes = entryOperands b1 b2 (entryOf usbcEb op) := by
  unfold entryOf
  split
  · rfl
  · exact opcodeMap_getD_congr (f := fun entry => (entryInstr b1 b2 entry).operandBytes) (g := entryOperands b1 b2)
      rfl rfl rfl rfl op

/-- The map holds well-formed instructions alone, but for SBC at EB where USBC_EB is false. -/
theorem opcodeMap_getD_wellFormed (usbcEb : Bool) (op b1 b2 : Byte) :
    (entryInstr b1 b2 (opcodeMap.getD op.toNat (bad op))).wellFormed usbcEb =
      !((entryInstr b1 b2 (opcodeMap.getD op.toNat (bad op))).opcode == some 0xEB && !usbcEb) :=
  opcodeMap_getD_congr (f := fun entry => (entryInstr b1 b2 entry).wellFormed usbcEb)
    (g := fun entry => !((entryInstr b1 b2 entry).opcode == some 0xEB && !usbcEb)) rfl rfl rfl
    (by cases usbcEb <;> rfl) op

/-- Each byte has well-formed instructions alone (R107, R136). -/
theorem entryOf_wellFormed (usbcEb : Bool) (op b1 b2 : Byte) :
    (entryInstr b1 b2 (entryOf usbcEb op)).wellFormed usbcEb = true := by
  have hop := entryOf_opcode usbcEb op b1 b2
  unfold entryOf at hop ⊢
  split at hop
  case isTrue h =>
    obtain ⟨-, heb⟩ := Bool.and_eq_true_iff.1 h
    rw [if_pos h, Bool.not_eq_eq_eq_not.1 heb]
    rfl
  case isFalse h =>
    rw [if_neg h, opcodeMap_getD_wellFormed, hop, Bool.not_eq_true']
    exact Bool.eq_false_iff.2 h

/-! ### The round trips -/

open Laws in
/-- Every instruction by its own lemma of the family Encoding. -/
theorem encoding_statement : (i : Instr) → Encoding.Statement i
  | .lda o => Encoding.lda o
  | .ldx o => Encoding.ldx o
  | .ldy o => Encoding.ldy o
  | .sta m => Encoding.sta m
  | .stx m => Encoding.stx m
  | .sty m => Encoding.sty m
  | .tax => Encoding.tax
  | .tay => Encoding.tay
  | .txa => Encoding.txa
  | .tya => Encoding.tya
  | .tsx => Encoding.tsx
  | .txs => Encoding.txs
  | .adc o => Encoding.adc o
  | .sbc o => Encoding.sbc o
  | .and o => Encoding.and o
  | .ora o => Encoding.ora o
  | .eor o => Encoding.eor o
  | .bit m => Encoding.bit m
  | .asl o => Encoding.asl o
  | .lsr o => Encoding.lsr o
  | .rol o => Encoding.rol o
  | .ror o => Encoding.ror o
  | .cmp o => Encoding.cmp o
  | .cpx o => Encoding.cpx o
  | .cpy o => Encoding.cpy o
  | .inc m => Encoding.inc m
  | .dec m => Encoding.dec m
  | .inx => Encoding.inx
  | .iny => Encoding.iny
  | .dex => Encoding.dex
  | .dey => Encoding.dey
  | .pha => Encoding.pha
  | .pla => Encoding.pla
  | .php => Encoding.php
  | .plp => Encoding.plp
  | .jsr target => Encoding.jsr target
  | .rts => Encoding.rts
  | .brk => Encoding.brk
  | .rti => Encoding.rti
  | .jmp o => Encoding.jmp o
  | .bpl offset => Encoding.bpl offset
  | .bmi offset => Encoding.bmi offset
  | .bvc offset => Encoding.bvc offset
  | .bvs offset => Encoding.bvs offset
  | .bcc offset => Encoding.bcc offset
  | .bcs offset => Encoding.bcs offset
  | .bne offset => Encoding.bne offset
  | .beq offset => Encoding.beq offset
  | .clc => Encoding.clc
  | .sec => Encoding.sec
  | .cli => Encoding.cli
  | .sei => Encoding.sei
  | .cld => Encoding.cld
  | .sed => Encoding.sed
  | .clv => Encoding.clv
  | .nop => Encoding.nop
  | .slo m => Encoding.slo m
  | .rla m => Encoding.rla m
  | .sre m => Encoding.sre m
  | .rra m => Encoding.rra m
  | .dcp m => Encoding.dcp m
  | .isc m => Encoding.isc m
  | .lax m => Encoding.lax m
  | .sax m => Encoding.sax m
  | .nopImplied op => Encoding.nopImplied op
  | .nopImmediate op v => Encoding.nopImmediate op v
  | .nopMemory op m => Encoding.nopMemory op m
  | .sbcImmediateEB v => Encoding.sbcImmediateEB v
  | .unknown op => Encoding.unknown op

/-- Settles O1, by the lemma of each instruction. -/
theorem decodeOfEncodeIsTheInstruction : Obligations.DecodeOfEncodeIsTheInstruction :=
  fun usbcEb i rest => encoding_statement i usbcEb rest

/-- Settles O2: an instruction made by the entry of `op` is well-formed, its opcode byte is `op`, and its operand bytes are
those the entry took. -/
theorem encodeOfDecodeIsTheBytes : Obligations.EncodeOfDecodeIsTheBytes := by
  intro usbcEb bytes rest i h
  obtain ⟨op, b1, b2, rfl, rfl⟩ := decode_ok h
  refine ⟨entryOf_wellFormed usbcEb op b1 b2, ?_⟩
  rw [encode, entryOf_opcode, entryOf_operandBytes]

/-- Settles O3, by whether the operand bytes the entry needs stand there. -/
theorem decodeFailsOnlyOnMissingBytes : Obligations.DecodeFailsOnlyOnMissingBytes := by
  refine fun usbcEb => ⟨rfl, fun op operands => ⟨decode_truncated, fun hlen => ?_⟩⟩
  obtain ⟨b1, b2, -, hdecode⟩ := decode_entry hlen
  exact ⟨_, hdecode⟩

/-- Settles O5: each word is read off the map. -/
theorem wordsOfTheSpecDecode : Obligations.WordsOfTheSpecDecode :=
  ⟨rfl, rfl, rfl, rfl, rfl, rfl, rfl, rfl, rfl, rfl, rfl, rfl, rfl, rfl, rfl, rfl, rfl, rfl, rfl⟩

/-! ### Unrecognised bytes (R107) -/

theorem unknown_wellFormed_iff {usbcEb : Bool} {op : Byte} :
    (Instr.unknown op).wellFormed usbcEb = true ↔ op ∈ unrecognisedBytes ∨ (op = 0xEB ∧ usbcEb = false) := by
  rw [Instr.wellFormed, Bool.or_eq_true, List.contains_iff_mem, Bool.and_eq_true, beq_iff_eq, Bool.not_eq_true']

/-- The bytes whose entry is the unrecognised-byte instruction: both round trips, at that instruction. -/
theorem entryOf_eq_unknown_iff {usbcEb : Bool} {op : Byte} :
    entryOf usbcEb op = .f1 (.unknown op) ↔ op ∈ unrecognisedBytes ∨ (op = 0xEB ∧ usbcEb = false) := by
  rw [← unknown_wellFormed_iff]
  constructor
  · intro h
    exact (encodeOfDecodeIsTheBytes usbcEb [op] [] _ (decode_f1 h [])).1
  · intro h
    have hdecode : decode usbcEb [op] = .ok (.unknown op, []) := decodeOfEncodeIsTheInstruction usbcEb (.unknown op) [] h
    cases hentry : entryOf usbcEb op with
    | f1 i =>
      rw [decode_f1 hentry] at hdecode
      cases hdecode
      rfl
    | f2 _ | f3 _ =>
      rw [decode_truncated (by rw [hentry]; exact Nat.zero_lt_succ _)] at hdecode
      cases hdecode

theorem recognised_eq_false_iff {usbcEb : Bool} {op : Byte} :
    recognised usbcEb op = false ↔ entryOf usbcEb op = .f1 (.unknown op) := by
  constructor
  · intro h
    have hop := entryOf_opcode usbcEb op 0 0
    unfold recognised at h
    split at h
    case h_1 op' hentry =>
      rw [hentry] at hop ⊢
      cases hop
      rfl
    case h_2 => cases h
  · intro h
    rw [recognised, h]

/-- Settles O4: the bytes are those of `entryOf_eq_unknown_iff`, and the counts are read off the map. -/
theorem unrecognisedBytesAreTheListedOnes : Obligations.UnrecognisedBytesAreTheListedOnes :=
  ⟨fun _ _ => recognised_eq_false_iff.trans entryOf_eq_unknown_iff, by decide +kernel, by decide +kernel⟩

theorem fetch_of_entryOf_f1 {s : State} {op : Byte} {i : Instr} (hop : s.readByte s.pc = some op)
    (hentry : entryOf s.cfg.usbcEb op = .f1 i) : fetch s = .ok i := by
  rw [fetch, memRead_ok.2 hop, Res.bind_ok, hentry]

/-- Settles O8: the entry of such a byte reads no operand byte, and its instruction raises UnknownOpcode. -/
theorem unrecognisedOpcodeOnlyStopsTheRun : Obligations.UnrecognisedOpcodeOnlyStopsTheRun := by
  refine ⟨fun s op hrun hop hbyte => ?_, fun s op => rfl⟩
  have hfetch : fetch s = .ok (.unknown op) := fetch_of_entryOf_f1 hop (entryOf_eq_unknown_iff.2 hbyte)
  simp only [step, hrun, hfetch]
  rfl

end Sys2Proof.Machine
end

section
/-! PROOFS. Addressing (40_addressing.md R120 to R138): the address arithmetic in numbers, what the resolvers answer, the loads
and the jumps that use them, and the step as the execution of the decoded bytes. -/

namespace Sys2Proof.Machine

/-! ### Address arithmetic -/

theorem zext16_eq_ofNat (v : Byte) : zext16 v = BitVec.ofNat 16 v.toNat := (BitVec.ofNat_toNat 16 v).symm

theorem zext16_toNat (v : Byte) : (zext16 v).toNat = v.toNat := BitVec.toNat_setWidth_of_le (by decide)

/-- A zero-page address plus an index wraps inside page 0 (R123). -/
theorem zext16_add_eq_ofNat (v w : Byte) : zext16 (v + w) = BitVec.ofNat 16 ((v.toNat + w.toNat) % 256) := by
  rw [zext16_eq_ofNat, BitVec.toNat_add]

theorem crossed_eq_decide (base ea : Word) : crossed base ea = decide (base.toNat / 256 ≠ ea.toNat / 256) := by
  simp only [crossed, bne, beq_eq_decide, ← BitVec.toNat_inj, hi_toNat, ne_eq, decide_not]

theorem indexed_ea_toNat (base : Word) (index : Byte) :
    (indexed base index).ea.toNat = (base.toNat + index.toNat) % 65536 := by
  rw [indexed, BitVec.toNat_add, zext16_toNat]

theorem indexed_cross (base : Word) (index : Byte) :
    (indexed base index).cross = decide (base.toNat / 256 ≠ (indexed base index).ea.toNat / 256) :=
  crossed_eq_decide base (indexed base index).ea

theorem w16_toNat_div (l h : Byte) : (w16 l h).toNat / 256 = h.toNat := by rw [← hi_toNat, hi_w16]

/-- The next address inside the page (00_scope.md R18). -/
theorem samepage_one (w : Word) : samepage w 1 = BitVec.ofNat 16 (w.toNat / 256 * 256 + (w.toNat % 256 + 1) % 256) := by
  have hw : w.toNat < 65536 := w.isLt
  have hone : (1 : Byte).toNat = 1 := rfl
  apply BitVec.eq_of_toNat_eq
  rw [samepage, w16_toNat, hi_toNat, BitVec.toNat_add, lo_toNat, hone, BitVec.toNat_ofNat]
  omega

/-! ### Pointers -/

theorem readPair_low_unreadable {la ha : Word} {s : State} (h : s.readByte la = none) :
    readPair la ha s = .err (.memoryAccess la .read) s := by
  rw [readPair, memRead_err.2 ⟨h, rfl, rfl⟩, Res.bind_err]

theorem readPair_high_unreadable {la ha : Word} {s : State} {l : Byte} (hl : s.readByte la = some l)
    (h : s.readByte ha = none) : readPair la ha s = .err (.memoryAccess ha .read) s := by
  rw [readPair, memRead_ok.2 hl, Res.bind_ok, memRead_err.2 ⟨h, rfl, rfl⟩, Res.bind_err]

theorem zeroPagePointer_of {p l h : Byte} {s : State} (hl : s.readByte (BitVec.ofNat 16 p.toNat) = some l)
    (hh : s.readByte (BitVec.ofNat 16 ((p.toNat + 1) % 256)) = some h) : zeroPagePointer p s = .ok (w16 l h) := by
  rw [zeroPagePointer, zext16_eq_ofNat, zext16_add_eq_ofNat]
  exact readPair_of hl hh

theorem resolve_indexedIndirect {b : Byte} {s : State} {ea : Word} (h : zeroPagePointer (b + s.x) s = .ok ea) :
    resolve (.indexedIndirect b) s = .ok ⟨ea, false⟩ := by
  rw [resolve, h, Res.bind_ok]

theorem resolve_indirectIndexed {b : Byte} {s : State} {base : Word} (h : zeroPagePointer b s = .ok base) :
    resolve (.indirectIndexed b) s = .ok (indexed base s.y) := by
  rw [resolve, h, Res.bind_ok]

/-! ### The modes -/

/-- The instructions with an encoding in Zero-page,Y (R124, R136). -/
theorem wellFormed_zeroPageY (usbcEb : Bool) (b op : Byte) :
    (readersOf (.zeroPageY b) op ++ storersOf (.zeroPageY b)).filter (·.wellFormed usbcEb) =
      [.ldx (.mem (.zeroPageY b)), .lax (.zeroPageY b), .stx (.zeroPageY b), .sax (.zeroPageY b)] := rfl

/-- Settles O30: the sum of two bytes is widened, and filtering the list leaves the Zero-page,Y instructions. -/
theorem zeroPageModesStayInPageZero : Obligations.ZeroPageModesStayInPageZero := by
  intro b s
  refine ⟨?zeroPage, ?zeroPageX, ?zeroPageY, rfl, rfl, rfl, ?users⟩
  case zeroPage => rw [resolve, zext16_eq_ofNat]
  case zeroPageX => rw [resolve, zext16_add_eq_ofNat]
  case zeroPageY => rw [resolve, zext16_add_eq_ofNat]
  case users =>
    intro usbcEb op i hi
    have hfilter : i ∈ (readersOf (.zeroPageY b) op ++ storersOf (.zeroPageY b)).filter (·.wellFormed usbcEb) ↔
        i.wellFormed usbcEb = true := List.mem_filter.trans (and_iff_right hi)
    rw [wellFormed_zeroPageY] at hfilter
    exact hfilter.symm.trans ((List.Perm.swap _ _ _).cons _).mem_iff

/-- Settles O31: both indexed modes are `indexed`. -/
theorem absoluteModesCarryFully : Obligations.AbsoluteModesCarryFully := fun w s =>
  ⟨rfl, ⟨indexed w s.x, rfl, indexed_ea_toNat w s.x, indexed_cross w s.x⟩,
    ⟨indexed w s.y, rfl, indexed_ea_toNat w s.y, indexed_cross w s.y⟩⟩

/-- Settles O32: both modes read a zero-page pointer; (Indirect),Y goes on as an indexed mode whose base is the word read. -/
theorem indirectModesReadTheirPointer : Obligations.IndirectModesReadTheirPointer := by
  intro b s l h
  constructor
  · intro hl hh
    refine resolve_indexedIndirect (zeroPagePointer_of ?_ ?_)
    · rwa [BitVec.toNat_add]
    · rwa [BitVec.toNat_add, Nat.mod_add_mod]
  · intro hl hh
    refine ⟨_, resolve_indirectIndexed (zeroPagePointer_of hl hh), ?_, ?_⟩
    · rw [indexed_ea_toNat, w16_toNat]
    · rw [indexed_cross, w16_toNat_div]

/-! ### Loads -/

/-- A read-class instruction whose operand can be read: its own update, then PC and CYC (R128, R138). -/
theorem readWith_done {o : ReadOperand} {s : State} {v : Byte} {cross : Bool} (f : Byte → State → State)
    (h : load o s = .ok ⟨v, cross⟩) :
    readWith o f s = .next { f v s with
      pc := (f v s).pc + BitVec.ofNat 16 o.len, cyc := (f v s).cyc + readCycles o + cross.toNat } := by
  rw [readWith_of h, Nat.add_assoc]
  rfl

/-- Settles O34: each load is a read-class instruction that puts the byte into its registers. -/
theorem loadsComplete : Obligations.LoadsComplete := by
  refine ⟨fun _ _ => rfl, fun _ _ => rfl, fun _ _ _ _ => loadMem_of, fun o s v cross h => ?registers,
    fun m s v cross h => ?both⟩
  case registers =>
    rw [← setZN_eq_withZN]
    exact ⟨readWith_done (fun v s => s.loadA v) h, readWith_done (fun v s => s.loadX v) h,
      readWith_done (fun v s => s.loadY v) h⟩
  case both =>
    rw [← setZN_eq_withZN]
    exact readWith_done (o := .mem m) (fun v s => (s.setA v).loadX v) h

/-! ### Jumps -/

theorem exec_jmp_of_target {o : JumpOperand} {s : State} {target : Word} (h : jumpTarget o s = .ok target) :
    exec (.jmp o) s = .next { s with pc := target, cyc := s.cyc + jumpCycles o } := by
  rw [exec, execJmp, h, Res.bind_ok, finish_ok]
  rfl

theorem exec_jmp_of_error {o : JumpOperand} {s t : State} {e : StepError} (h : jumpTarget o s = .err e t) :
    exec (.jmp o) s = .next { t with run := .stopped e } := by
  rw [exec, execJmp, h, Res.bind_err, finish_err]
  rfl

theorem jumpTarget_indirect (ptr : Word) (s : State) :
    jumpTarget (.indirect ptr) s =
      readPair ptr (BitVec.ofNat 16 (ptr.toNat / 256 * 256 + (ptr.toNat % 256 + 1) % 256)) s := by
  rw [jumpTarget, samepage_one]

/-- Settles O48: the four ends of `jumpTarget`. -/
theorem jumpsComplete : Obligations.JumpsComplete := by
  refine ⟨fun target s => exec_jmp_of_target rfl, fun ptr s l h hl hh => exec_jmp_of_target ?word,
    fun ptr s hnone => exec_jmp_of_error ?low, fun ptr q s hq hsome hnone => exec_jmp_of_error ?high⟩
  case word => rw [jumpTarget_indirect, readPair_of hl hh]
  case low => rw [jumpTarget_indirect, readPair_low_unreadable hnone]
  case high =>
    obtain ⟨l, hl⟩ := Option.isSome_iff_exists.1 hsome
    rw [jumpTarget_indirect, ← hq, readPair_high_unreadable hl hnone]

/-! ### The step -/

theorem step_of_fetch {s : State} {i : Instr} (hrun : s.run = .running) (h : fetch s = .ok i) : step s = exec i s := by
  simp only [step, hrun, h]

/-- The fetch reads the opcode byte and the operand bytes its entry takes, each at its offset from PC (R138). -/
theorem fetch_of_bytes {s : State} {op b1 b2 : Byte} {rest : List Byte}
    (h : ∀ k, k < 1 + (entryOperands b1 b2 (entryOf s.cfg.usbcEb op)).length →
      s.readByte (s.pc + BitVec.ofNat 16 k) = (op :: entryOperands b1 b2 (entryOf s.cfg.usbcEb op) ++ rest)[k]?) :
    fetch s = .ok (entryInstr b1 b2 (entryOf s.cfg.usbcEb op)) := by
  have hop : s.readByte s.pc = some op := by simpa using h 0 (by omega)
  rw [fetch, memRead_ok.2 hop, Res.bind_ok]
  cases hentry : entryOf s.cfg.usbcEb op with
  | f1 i => rfl
  | f2 make =>
    rw [hentry] at h
    have h1 : s.readByte (s.pc + 1) = some b1 := h 1 (by simp [entryOperands])
    simp only [memRead_ok.2 h1, Res.bind_ok, entryInstr]
  | f3 make =>
    rw [hentry, entryOperands, wordBytes_w16] at h
    have h1 : s.readByte (s.pc + 1) = some b1 := h 1 (by simp)
    have h2 : s.readByte (s.pc + 2) = some b2 := h 2 (by simp)
    simp only [memRead_ok.2 h1, memRead_ok.2 h2, Res.bind_ok, entryInstr]

/-- Settles O6: the fetch reads as many bytes as the decoder takes. -/
theorem stepRunsTheDecodedInstruction : Obligations.StepRunsTheDecodedInstruction := by
  intro s bytes rest i hrun hdecode hbytes
  obtain ⟨op, b1, b2, rfl, rfl⟩ := decode_ok hdecode
  rw [Instr.length, entryOf_operandBytes] at hbytes
  exact step_of_fetch hrun (fetch_of_bytes hbytes)

end Sys2Proof.Machine
end

section
/-! PROOFS. 41_load_store.md: the stores and the transfers. A store is `storeValue` of its byte, a transfer `implied` of its
register copy; each of the two shapes has one lemma that says what it leaves. -/

namespace Sys2Proof.Machine

/-! ### Stores -/

/-- A store at a mapped effective address writes its byte through the mapper and advances (R153, 40 R138). -/
theorem storeValue_done {m : MemOperand} {s : State} {r : Resolved} (v : Byte) (hs : s.Inv) (hr : resolve m s = .ok r)
    (hmapped : (resolveCell s.cfg r.ea).isSome = true) :
    ∃ t, storeValue m v s = .next t ∧ WroteByte s t r.ea v ∧
      t = { s with mem := t.mem, pc := s.pc + BitVec.ofNat 16 m.len, cyc := s.cyc + storeCycles m } := by
  obtain ⟨u, hu⟩ := writeByte_some v hmapped
  refine ⟨u.advance m.len (storeCycles m), storeValue_of hr hu, (writeByte_wrote hs hu).congr rfl rfl rfl rfl, ?_⟩
  rw [writeByte_eq hu]
  rfl

/-- Each of the four stores is `storeValue` of its own byte (R153 to R155, 49 R288). -/
theorem exec_store_eq {m : MemOperand} {s : State} {i : Instr} {v : Byte}
    (h : (i, v) ∈ [(Instr.sta m, s.a), (.stx m, s.x), (.sty m, s.y), (.sax m, s.a &&& s.x)]) :
    exec i s = storeValue m v s := by
  simp only [List.mem_cons, Prod.mk.injEq, List.not_mem_nil, or_false] at h
  obtain ⟨rfl, rfl⟩ | ⟨rfl, rfl⟩ | ⟨rfl, rfl⟩ | ⟨rfl, rfl⟩ := h <;> rfl

/-- Settles O35: the four instructions differ only in the byte they store. -/
theorem storesComplete : Obligations.StoresComplete := by
  intro m s r hs hr hmapped i v hi
  rw [exec_store_eq hi]
  exact storeValue_done v hs hr hmapped

/-! ### Transfers -/

/-- An Implied instruction is its own update, then PC and CYC (40 R138). -/
theorem implied_done (f : State → State) (s : State) :
    implied f s = .next { f s with pc := (f s).pc + 1, cyc := (f s).cyc + 2 } := rfl

/-- Settles O36: each transfer is an Implied instruction that copies one register. -/
theorem transfersComplete : Obligations.TransfersComplete := by
  intro s
  simp only [← setZN_eq_withZN]
  exact ⟨implied_done (fun s => s.loadX s.a) s, implied_done (fun s => s.loadY s.a) s,
    implied_done (fun s => s.loadA s.x) s, implied_done (fun s => s.loadA s.y) s,
    implied_done (fun s => s.loadX s.sp) s, implied_done (fun s => s.setSP s.x) s⟩

end Sys2Proof.Machine
end

section
/-! PROOFS. 42_arithmetic.md: the adder in numbers (R170), and ADC and SBC as read-class instructions around it (R172, R173,
49 R292). -/

namespace Sys2Proof.Machine

/-! ### The adder -/

theorem addC_value_toNat (a m : Byte) (f : Flags) : (addC a m f).value.toNat = (a.toNat + m.toNat + f.c.toNat) % 256 :=
  BitVec.toNat_ofNat _ 8

/-- Masking with 0x80 tests the sign bit. -/
theorem and_0x80_ne_zero (v : Byte) : (v &&& 0x80 ≠ 0) ↔ v.msb = true := by
  have hmask : v &&& 0x80 = if v.getLsbD 7 then 0x80 else 0 := BitVec.and_twoPow v 7
  rw [hmask, BitVec.msb_eq_getLsbD_last]
  cases v.getLsbD 7 <;> decide

/-- The overflow formula of R170: the operands have one sign and the result the other (R172). -/
theorem overflow_formula_iff (a m r : Byte) :
    ((a ^^^ r) &&& (m ^^^ r) &&& 0x80 ≠ 0) ↔ (a.msb = m.msb ∧ r.msb ≠ a.msb) := by
  rw [and_0x80_ne_zero, BitVec.msb_and, BitVec.msb_xor, BitVec.msb_xor]
  cases a.msb <;> cases m.msb <;> cases r.msb <;> decide

theorem addC_v (a m : Byte) (f : Flags) :
    (addC a m f).flags.v = decide ((a ^^^ (addC a m f).value) &&& (m ^^^ (addC a m f).value) &&& 0x80 ≠ 0) :=
  (decide_not ..).symm

/-- All flags the adder leaves, in the terms of the statements. -/
theorem addC_flags (a m : Byte) (f : Flags) :
    (addC a m f).flags = { withZN f (addC a m f).value with
      c := decide (255 < a.toNat + m.toNat + f.c.toNat)
      v := decide (a.msb = m.msb ∧ (addC a m f).value.msb ≠ a.msb) } := by
  rw [← setZN_eq_withZN, ← decide_eq_decide.2 (overflow_formula_iff a m (addC a m f).value), ← addC_v]
  rfl

/-- Settles O27: C and the frame are the adder's own definition. -/
theorem adderIsExact : Obligations.AdderIsExact := fun s m =>
  ⟨addC_value_toNat s.a m s.flags, rfl, addC_v s.a m s.flags, rfl, BitVec.msb_eq_getLsbD_last (s.adc m).a, rfl⟩

/-! ### ADC -/

/-- Settles O37: ADC is a read-class instruction that runs the adder. -/
theorem addWithCarryCompletes : Obligations.AddWithCarryCompletes := by
  intro o s m cross h
  refine ⟨(s.adc m).a, addC_value_toNat s.a m s.flags, ?_⟩
  rw [adc_a, ← addC_flags]
  exact readWith_done (fun m s => s.adc m) h

/-! ### SBC: the adder on the complement -/

/-- Adding the complement subtracts, and the carry is the missing borrow (R173). -/
theorem addC_complement_value_toInt (a m : Byte) (f : Flags) :
    ((addC a (~~~m) f).value.toNat : Int) = ((a.toNat : Int) - m.toNat - (1 - f.c.toNat)) % 256 := by
  have hm := m.isLt
  rw [addC_value_toNat, BitVec.toNat_not]
  omega

/-- The carry-out of the complement's sum says that no borrow was needed. -/
theorem carry_complement_iff (a m : Byte) (c : Bool) :
    255 < a.toNat + (~~~m).toNat + c.toNat ↔ m.toNat + (1 - c.toNat) ≤ a.toNat := by
  have hm := m.isLt
  have hc := c.toNat_le
  rw [BitVec.toNat_not]
  omega

/-- The complement has the other sign. -/
theorem msb_eq_msb_complement_iff (a m : Byte) : a.msb = (~~~m).msb ↔ a.msb ≠ m.msb := by
  rw [BitVec.msb_not]
  cases a.msb <;> cases m.msb <;> decide

/-- All flags a subtraction leaves, in the terms of the statements. -/
theorem addC_complement_flags (a m : Byte) (f : Flags) :
    (addC a (~~~m) f).flags = { withZN f (addC a (~~~m) f).value with
      c := decide (m.toNat + (1 - f.c.toNat) ≤ a.toNat)
      v := decide (a.msb ≠ m.msb ∧ (addC a (~~~m) f).value.msb ≠ a.msb) } := by
  rw [addC_flags]
  simp only [carry_complement_iff, msb_eq_msb_complement_iff]

theorem exec_sbcImmediateEB_recognised {s : State} (v : Byte) (h : s.cfg.usbcEb = true) :
    exec (.sbcImmediateEB v) s = exec (.sbc (.immediate v)) s := if_pos h

theorem exec_sbcImmediateEB_unrecognised {s : State} (v : Byte) (h : s.cfg.usbcEb = false) :
    exec (.sbcImmediateEB v) s = raise (.unknownOpcode 0xEB) s := if_neg (Bool.eq_false_iff.1 h)

/-- Settles O38: SBC is a read-class instruction that runs the adder on the complement, and EB is SBC or unknown. -/
theorem subtractWithBorrowCompletes : Obligations.SubtractWithBorrowCompletes := by
  intro o s m cross h
  refine ⟨(s.sbc m).a, addC_complement_value_toInt s.a m s.flags, ?_⟩
  rintro t rfl
  rw [sbc_a, ← addC_complement_flags]
  have hsbc := readWith_done (fun m s => s.sbc m) h
  refine ⟨hsbc, ?recognised, ?unrecognised⟩
  case recognised =>
    rintro rfl heb
    exact (exec_sbcImmediateEB_recognised m heb).trans hsbc
  case unrecognised =>
    rintro - heb
    exact exec_sbcImmediateEB_unrecognised m heb

end Sys2Proof.Machine
end

section
/-! PROOFS. D does not reach the arithmetic (42 R171): every part of ADC, SBC, RRA and ISC commutes with setting D. -/

namespace Sys2Proof.Machine

/-! ### Setting D, and the parts of a step -/

/-- The state with `d` in the decimal flag. -/
def State.withD (s : State) (d : Bool) : State := { s with flags := { s.flags with d := d } }

/-- The result with `d` in the decimal flag of every state in it; `g` puts it into the value. -/
def Res.withD {α : Type} (d : Bool) (g : α → α) : Res α → Res α
  | .ok v => .ok (g v)
  | .err e s => .err e (s.withD d)

/-- Setting D before the meaning is setting it after. -/
def CommutesWithD (F : State → Out) : Prop := ∀ s t d, F s = .next t → F (s.withD d) = .next (t.withD d)

theorem Res.bind_withD {α β : Type} {d : Bool} {g : α → α} {g' : β → β} {r r' : Res α} {k k' : α → Res β}
    (hr : r' = r.withD d g) (hk : ∀ v, k' (g v) = (k v).withD d g') : r'.bind k' = (r.bind k).withD d g' := by
  subst hr
  cases r with
  | ok v => exact hk v
  | err e s => rfl

/-- Two results whose values hold no state. -/
theorem Res.bind_withD_id {α β : Type} {d : Bool} {g' : β → β} {r r' : Res α} {k k' : α → Res β}
    (hr : r' = r.withD d id) (hk : ∀ v, k' v = (k v).withD d g') : r'.bind k' = (r.bind k).withD d g' :=
  Res.bind_withD hr hk

theorem finish_withD {d : Bool} {r : Res State} {t : State} (h : finish r = .next t) :
    finish (r.withD d (State.withD · d)) = .next (t.withD d) := by
  cases r with
  | ok s => cases h; rfl
  | err e s => cases h; rfl

theorem readByte_withD (s : State) (d : Bool) (a : Word) : (s.withD d).readByte a = s.readByte a := readByte_congr rfl rfl a

theorem memRead_withD (s : State) (d : Bool) (a : Word) : memRead a (s.withD d) = (memRead a s).withD d id := by
  rw [memRead, memRead, readByte_withD]
  cases s.readByte a <;> rfl

theorem writeByte_withD (s : State) (d : Bool) (a : Word) (v : Byte) :
    (s.withD d).writeByte a v = (s.writeByte a v).map (State.withD · d) := by
  unfold State.writeByte
  change (resolveCell s.cfg a).map _ = _
  cases resolveCell s.cfg a with
  | none => rfl
  | some cell => exact congrArg some (apply_ite (State.withD · d) (writable s.cfg cell = true) (s.setCell cell v) s).symm

theorem memWrite_withD (s : State) (d : Bool) (a : Word) (v : Byte) :
    memWrite a v (s.withD d) = (memWrite a v s).withD d (State.withD · d) := by
  rw [memWrite, memWrite, writeByte_withD]
  cases s.writeByte a v <;> rfl

theorem zeroPagePointer_withD (s : State) (d : Bool) (p : Byte) :
    zeroPagePointer p (s.withD d) = (zeroPagePointer p s).withD d id :=
  Res.bind_withD_id (memRead_withD s d _) fun _ => Res.bind_withD_id (memRead_withD s d _) fun _ => rfl

theorem resolve_withD (s : State) (d : Bool) (m : MemOperand) : resolve m (s.withD d) = (resolve m s).withD d id := by
  cases m with
  | indexedIndirect b => exact Res.bind_withD_id (zeroPagePointer_withD s d _) fun _ => rfl
  | indirectIndexed b => exact Res.bind_withD_id (zeroPagePointer_withD s d b) fun _ => rfl
  | zeroPage b => rfl
  | zeroPageX b => rfl
  | zeroPageY b => rfl
  | absolute w => rfl
  | absoluteX w => rfl
  | absoluteY w => rfl

theorem load_withD (s : State) (d : Bool) (o : ReadOperand) : load o (s.withD d) = (load o s).withD d id := by
  cases o with
  | immediate v => rfl
  | mem m => exact Res.bind_withD_id (resolve_withD s d m) fun r => Res.bind_withD_id (memRead_withD s d r.ea) fun _ => rfl

/-! ### The shapes -/

theorem CommutesWithD.readWith (o : ReadOperand) {f : Byte → State → State}
    (hf : ∀ v s d, f v (s.withD d) = (f v s).withD d) : CommutesWithD (readWith o f) := by
  intro s t d h
  refine (congrArg finish ?_).trans (finish_withD h)
  exact Res.bind_withD_id (load_withD s d o) fun l =>
    congrArg (fun u => Res.ok (u.advance o.len (readCycles o + crossPenalty l.cross))) (hf l.value s d)

theorem CommutesWithD.modifyWith (m : MemOperand) {prim : Primitive} {after : Byte → State → State}
    (hprim : ∀ v f d, prim v { f with d := d } = ⟨(prim v f).value, { (prim v f).flags with d := d }⟩)
    (hafter : ∀ r s d, after r (s.withD d) = (after r s).withD d) : CommutesWithD (modifyWith m prim after) := by
  intro s t d h
  refine (congrArg finish ?_).trans (finish_withD h)
  refine Res.bind_withD_id (resolve_withD s d m) fun r => Res.bind_withD_id (memRead_withD s d r.ea) fun v => ?_
  have hflags : prim v (s.withD d).flags = ⟨(prim v s.flags).value, { (prim v s.flags).flags with d := d }⟩ :=
    hprim v s.flags d
  rw [hflags]
  exact Res.bind_withD (memWrite_withD (s.setFlags (prim v s.flags).flags) d r.ea _) fun u =>
    congrArg (fun w => Res.ok (w.advance m.len (modifyCycles m))) (hafter _ u d)

theorem CommutesWithD.raise (e : StepError) : CommutesWithD (raise e) := by
  rintro s t d ⟨⟩
  rfl

/-! ### The arithmetic instructions -/

/-- SBC at EB is SBC immediate or the raise, as the configuration has it, which D is no part of. -/
theorem CommutesWithD.sbcImmediateEB (v : Byte) : CommutesWithD (exec (.sbcImmediateEB v)) := by
  intro s t d h
  cases heb : s.cfg.usbcEb with
  | true =>
    rw [exec_sbcImmediateEB_recognised v heb] at h
    rw [exec_sbcImmediateEB_recognised (s := s.withD d) v heb]
    exact CommutesWithD.readWith (.immediate v) (f := fun m s => s.sbc m) (fun _ _ _ => rfl) s t d h
  | false =>
    rw [exec_sbcImmediateEB_unrecognised v heb] at h
    rw [exec_sbcImmediateEB_unrecognised (s := s.withD d) v heb]
    exact CommutesWithD.raise _ s t d h

/-- A meaning that commutes with setting D leaves D: setting it to what it already is changes nothing before, so nothing after. -/
theorem CommutesWithD.keeps_d {F : State → Out} (hF : CommutesWithD F) {s t : State} (h : F s = .next t) :
    t.flags.d = s.flags.d := by
  have hsame : t = t.withD s.flags.d := Host.Outcome.next.inj (h.symm.trans (hF s t s.flags.d h))
  rw [hsame]
  rfl

/-- Settles O24: the five instructions are two reading shapes around the adder, two modifying ones, and SBC at EB. -/
theorem decimalFlagDoesNotChangeArithmetic : Obligations.DecimalFlagDoesNotChangeArithmetic := by
  intro o m v i hi s t d h
  have hcomm : CommutesWithD (exec i) := by
    simp only [List.mem_cons, List.not_mem_nil, or_false] at hi
    obtain rfl | rfl | rfl | rfl | rfl := hi
    · exact .readWith o (f := fun m s => s.adc m) fun _ _ _ => rfl
    · exact .readWith o (f := fun m s => s.sbc m) fun _ _ _ => rfl
    · exact .sbcImmediateEB v
    · exact .modifyWith m (prim := rorOp) (after := fun r t => t.adc r) (fun _ _ _ => rfl) fun _ _ _ => rfl
    · exact .modifyWith m (prim := incOp) (after := fun r t => (t.setZN r).sbc r) (fun _ _ _ => rfl) fun _ _ _ => rfl
  exact ⟨hcomm s t d h, hcomm.keeps_d h⟩

end Sys2Proof.Machine
end

section
/-! PROOFS. 43_logic.md: AND, ORA and EOR as read-class instructions that load A (R180 to R182), and the bit test (R183). -/

namespace Sys2Proof.Machine

/-- The bit test in the terms of the statements: V and N as binary digits of the operand. -/
theorem Flags.bitTest_eq (f : Flags) (a m : Byte) :
    f.bitTest a m = { f with
      z := decide (a &&& m = 0), v := decide (m.toNat / 64 % 2 = 1), n := decide (128 ≤ m.toNat) } := by
  have hv : m.getLsbD 6 = decide (m.toNat / 64 % 2 = 1) := getLsbD_eq_binary_digit m 6
  have hn : m.getLsbD 7 = decide (128 ≤ m.toNat) := (BitVec.msb_eq_getLsbD_last m).symm.trans (BitVec.msb_eq_decide m)
  rw [Flags.bitTest, hv, hn]
  rfl

/-- Settles O39: AND, ORA and EOR are read-class instructions that load A, BIT one that sets the flags of the bit test. -/
theorem logicCompletes : Obligations.LogicCompletes := by
  refine ⟨fun o s m cross h i r hi => ?logic, fun p s m cross h => ?bit⟩
  case logic =>
    rw [← setZN_eq_withZN]
    simp only [List.mem_cons, Prod.mk.injEq, List.not_mem_nil, or_false] at hi
    obtain ⟨rfl, rfl⟩ | ⟨rfl, rfl⟩ | ⟨rfl, rfl⟩ := hi
    · exact readWith_done (fun m s => s.loadA (s.a &&& m)) h
    · exact readWith_done (fun m s => s.loadA (s.a ||| m)) h
    · exact readWith_done (fun m s => s.loadA (s.a ^^^ m)) h
  case bit =>
    rw [← Flags.bitTest_eq]
    exact readWith_done (o := .mem p) (fun m s => s.setFlags (s.flags.bitTest s.a m)) h

end Sys2Proof.Machine
end

section
/-! PROOFS. 44_shift.md, and INC and DEC of 45_compare_incdec.md: the primitives in numbers (R191 to R194, R204, R205), and the
two shapes that run them, on A and on memory (R190). -/

namespace Sys2Proof.Machine

/-! ### The primitives in numbers -/

theorem eq_ofNat_of_toNat {v : Byte} {n : Nat} (h : v.toNat = n) : v = BitVec.ofNat 8 n := by
  rw [← h, BitVec.ofNat_toNat, BitVec.setWidth_eq]

/-- The bit a left shift drops. -/
theorem getLsbD_seven_eq_decide (v : Byte) : v.getLsbD 7 = decide (128 ≤ v.toNat) :=
  (BitVec.msb_eq_getLsbD_last v).symm.trans (BitVec.msb_eq_decide v)

/-- The bit a right shift drops. -/
theorem getLsbD_zero_eq_decide (v : Byte) : v.getLsbD 0 = decide (v.toNat % 2 = 1) := by
  rw [getLsbD_eq_binary_digit, Nat.pow_zero, Nat.div_one]

theorem shiftLeft_one_toNat (v : Byte) : (v <<< 1).toNat = v.toNat * 2 % 256 := by
  rw [BitVec.toNat_shiftLeft, Nat.shiftLeft_eq, Nat.pow_one]

theorem ushiftRight_one_toNat (v : Byte) : (v >>> 1).toNat = v.toNat / 2 := by
  rw [BitVec.toNat_ushiftRight, Nat.shiftRight_one]

/-- The carry as a byte, which the rotates put into the bit the shift cleared. -/
theorem carryByte_toNat (c : Bool) : ((BitVec.ofBool c).setWidth 8).toNat = c.toNat := by
  cases c <;> rfl

/-- The carry goes into bit 0, so the rotate to the left is a sum (R193). -/
theorem rolOp_value_toNat (v : Byte) (f : Flags) : (rolOp v f).value.toNat = (v.toNat * 2 + f.c.toNat) % 256 := by
  have hc : f.c.toNat < 2 ^ 1 := f.c.toNat_lt
  have hlow : f.c.toNat % 2 ^ 8 = f.c.toNat := Nat.mod_eq_of_lt (by omega)
  calc (v <<< 1 ||| (BitVec.ofBool f.c).setWidth 8).toNat
      = v.toNat <<< 1 % 2 ^ 8 ||| f.c.toNat % 2 ^ 8 := by
        rw [BitVec.toNat_or, BitVec.toNat_shiftLeft, carryByte_toNat, hlow]
    _ = (v.toNat * 2 + f.c.toNat) % 256 := by
        rw [← Nat.or_mod_two_pow, ← Nat.shiftLeft_add_eq_or_of_lt hc, Nat.shiftLeft_eq, Nat.pow_one]

/-- The carry goes into bit 7, so the rotate to the right is a sum (R194). -/
theorem rorOp_value_toNat (v : Byte) (f : Flags) : (rorOp v f).value.toNat = v.toNat / 2 + 128 * f.c.toNat := by
  have hhalf : v.toNat / 2 < 2 ^ 7 := by have := v.isLt; omega
  have hc : f.c.toNat ≤ 1 := f.c.toNat_le
  calc (v >>> 1 ||| (BitVec.ofBool f.c).setWidth 8 <<< 7).toNat
      = v.toNat / 2 ||| f.c.toNat <<< 7 % 2 ^ 8 := by
        rw [BitVec.toNat_or, ushiftRight_one_toNat, BitVec.toNat_shiftLeft, carryByte_toNat]
    _ = v.toNat / 2 ||| f.c.toNat <<< 7 := by
        rw [Nat.mod_eq_of_lt (by rw [Nat.shiftLeft_eq]; omega)]
    _ = v.toNat / 2 + 128 * f.c.toNat := by
        rw [Nat.or_comm, ← Nat.shiftLeft_add_eq_or_of_lt hhalf, Nat.shiftLeft_eq, Nat.add_comm, Nat.mul_comm]

theorem aslOp_eq (v : Byte) (f : Flags) :
    aslOp v f = ⟨BitVec.ofNat 8 (v.toNat * 2 % 256), { f with c := decide (128 ≤ v.toNat) }⟩ := by
  rw [aslOp, ← getLsbD_seven_eq_decide, ← eq_ofNat_of_toNat (shiftLeft_one_toNat v)]

theorem lsrOp_eq (v : Byte) (f : Flags) :
    lsrOp v f = ⟨BitVec.ofNat 8 (v.toNat / 2), { f with c := decide (v.toNat % 2 = 1) }⟩ := by
  rw [lsrOp, ← getLsbD_zero_eq_decide, ← eq_ofNat_of_toNat (ushiftRight_one_toNat v)]

theorem rolOp_eq (v : Byte) (f : Flags) :
    rolOp v f = ⟨BitVec.ofNat 8 ((v.toNat * 2 + f.c.toNat) % 256), { f with c := decide (128 ≤ v.toNat) }⟩ := by
  rw [← getLsbD_seven_eq_decide, ← eq_ofNat_of_toNat (rolOp_value_toNat v f), rolOp]

theorem rorOp_eq (v : Byte) (f : Flags) :
    rorOp v f = ⟨BitVec.ofNat 8 (v.toNat / 2 + 128 * f.c.toNat), { f with c := decide (v.toNat % 2 = 1) }⟩ := by
  rw [← getLsbD_zero_eq_decide, ← eq_ofNat_of_toNat (rorOp_value_toNat v f), rorOp]

/-- INC leaves C (R204). -/
theorem incOp_eq (v : Byte) (f : Flags) : incOp v f = ⟨BitVec.ofNat 8 ((v.toNat + 1) % 256), { f with c := f.c }⟩ := by
  have hvalue : v + 1 = BitVec.ofNat 8 ((v.toNat + 1) % 256) := eq_ofNat_of_toNat (BitVec.toNat_add v 1)
  rw [incOp, hvalue]

/-- DEC adds 255 modulo 256, and leaves C (R205). -/
theorem decOp_eq (v : Byte) (f : Flags) : decOp v f = ⟨BitVec.ofNat 8 ((v.toNat + 255) % 256), { f with c := f.c }⟩ := by
  have hvalue : v - 1 = BitVec.ofNat 8 ((v.toNat + 255) % 256) := by
    rw [BitVec.sub_eq_add_neg]
    exact eq_ofNat_of_toNat (BitVec.toNat_add v 255)
  rw [decOp, hvalue]

/-! ### Which primitive an instruction runs -/

/-- The rows of the statements for the four shifts of the byte `v`: the instruction, its result and its carry. -/
def shiftRows (o : ShiftOperand) (v : Byte) (f : Flags) : List (Instr × Nat × Bool) :=
  [(.asl o, v.toNat * 2 % 256, decide (128 ≤ v.toNat)),
   (.lsr o, v.toNat / 2, decide (v.toNat % 2 = 1)),
   (.rol o, (v.toNat * 2 + f.c.toNat) % 256, decide (128 ≤ v.toNat)),
   (.ror o, v.toNat / 2 + 128 * f.c.toNat, decide (v.toNat % 2 = 1))]

/-- The rows of the statements for INC and DEC of the byte `v`. -/
def counterRows (m : MemOperand) (v : Byte) (f : Flags) : List (Instr × Nat × Bool) :=
  [(.inc m, (v.toNat + 1) % 256, f.c), (.dec m, (v.toNat + 255) % 256, f.c)]

/-- On the byte `v` and the flags `f` the primitive gives `value` and `carry`, and no other flag. -/
def Primitive.Gives (prim : Primitive) (v : Byte) (f : Flags) (value : Nat) (carry : Bool) : Prop :=
  prim v f = ⟨BitVec.ofNat 8 value, { f with c := carry }⟩

section
variable {i : Instr} {m : MemOperand} {v : Byte} {f : Flags} {value : Nat} {carry : Bool}

/-- Each shift is `shiftWith` of its primitive, which gives the row (R191 to R194). -/
theorem shiftRows_prim {o : ShiftOperand} (h : (i, value, carry) ∈ shiftRows o v f) :
    ∃ prim : Primitive, exec i = shiftWith o prim ∧ prim.Gives v f value carry := by
  simp only [shiftRows, List.mem_cons, Prod.mk.injEq, List.not_mem_nil, or_false] at h
  obtain ⟨rfl, rfl, rfl⟩ | ⟨rfl, rfl, rfl⟩ | ⟨rfl, rfl, rfl⟩ | ⟨rfl, rfl, rfl⟩ := h
  · exact ⟨aslOp, rfl, aslOp_eq v f⟩
  · exact ⟨lsrOp, rfl, lsrOp_eq v f⟩
  · exact ⟨rolOp, rfl, rolOp_eq v f⟩
  · exact ⟨rorOp, rfl, rorOp_eq v f⟩

/-- INC and DEC are read-modify-writes that set Z and N, as a shift of memory is (R204, R205). -/
theorem counterRows_prim (h : (i, value, carry) ∈ counterRows m v f) :
    ∃ prim : Primitive, exec i = shiftWith (.mem m) prim ∧ prim.Gives v f value carry := by
  simp only [counterRows, List.mem_cons, Prod.mk.injEq, List.not_mem_nil, or_false] at h
  obtain ⟨rfl, rfl, rfl⟩ | ⟨rfl, rfl, rfl⟩ := h
  · exact ⟨incOp, rfl, incOp_eq v f⟩
  · exact ⟨decOp, rfl, decOp_eq v f⟩

/-! ### The two shapes -/

/-- A shift of A: the result in A, the carry in C, Z and N of the result (R190). -/
theorem shiftA_done {prim : Primitive} {s : State} (hprim : prim.Gives s.a s.flags value carry) :
    shiftWith .accumulator prim s = .next { s with
      a := BitVec.ofNat 8 value, flags := { withZN s.flags (BitVec.ofNat 8 value) with c := carry }
      pc := s.pc + 1, cyc := s.cyc + 2 } := by
  rw [← setZN_eq_withZN, shiftWith, hprim]
  rfl

/-- A shift of a readable byte of memory: the result at the address read, the carry in C, Z and N of the result (R190). -/
theorem shiftMem_done {prim : Primitive} {s : State} {r : Resolved} (hs : s.Inv) (hr : resolve m s = .ok r)
    (hv : s.readByte r.ea = some v) (hprim : prim.Gives v s.flags value carry) :
    ∃ t, shiftWith (.mem m) prim s = .next t ∧ WroteByte s t r.ea (BitVec.ofNat 8 value) ∧
      t = { s with
        mem := t.mem, flags := { withZN s.flags (BitVec.ofNat 8 value) with c := carry }
        pc := s.pc + BitVec.ofNat 16 m.len, cyc := s.cyc + modifyCycles m } := by
  obtain ⟨u, hwrote, hu, hnext⟩ := modifyWith_done (prim := prim) (fun r t => t.setZN r) hs hr hv
  rw [hprim] at hwrote hu hnext
  refine ⟨_, hnext, hwrote.congr rfl rfl rfl rfl, ?_⟩
  rw [← setZN_eq_withZN, hu]
  rfl

end

/-! ### The statements -/

/-- Settles O41: each row's primitive, run on A. -/
theorem accumulatorShiftsComplete : Obligations.AccumulatorShiftsComplete := by
  intro s i value carry hi
  obtain ⟨prim, hexec, hprim⟩ := shiftRows_prim hi
  rw [hexec]
  exact shiftA_done hprim

/-- Settles O42: each row's primitive, run on the byte read. -/
theorem memoryModifiesComplete : Obligations.MemoryModifiesComplete := by
  intro m s r v hs hr hv i value carry hi
  have hrow : (i, value, carry) ∈ shiftRows (.mem m) v s.flags ++ counterRows m v s.flags := hi
  obtain ⟨prim, hexec, hprim⟩ := (List.mem_append.1 hrow).elim shiftRows_prim counterRows_prim
  rw [hexec]
  exact shiftMem_done hs hr hv hprim

end Sys2Proof.Machine
end

section
/-! PROOFS. 45_compare_incdec.md: the compare in the terms of the statements (R200), CMP, CPX and CPY as read-class instructions
around it (R201 to R203), and the register counters as Implied instructions (R206 to R209). -/

namespace Sys2Proof.Machine

/-! ### The compare -/

/-- The difference of two bytes, its borrow taken modulo 256. -/
theorem sub_toNat_eq_mod (reg m : Byte) : (reg - m).toNat = (reg.toNat + 256 - m.toNat) % 256 := by
  have hm := m.isLt
  rw [BitVec.toNat_sub]
  omega

/-- The compare in the terms of the statements: its N as a comparison of numbers (R200). -/
theorem Flags.compare_eq (f : Flags) (reg m : Byte) :
    f.compare reg m = { f with
      c := decide (m.toNat ≤ reg.toNat), z := decide (reg = m)
      n := decide (128 ≤ (reg.toNat + 256 - m.toNat) % 256) } := by
  rw [Flags.compare, BitVec.msb_eq_decide, sub_toNat_eq_mod]
  rfl

/-- Settles O28: C, Z and the frame are the compare's own definition. -/
theorem compareSubtractsWithoutStoring : Obligations.CompareSubtractsWithoutStoring := by
  intro s reg m
  have hn : (reg - m).getLsbD 7 = (reg - m).msb := (BitVec.msb_eq_getLsbD_last (reg - m)).symm
  rw [hn]
  rfl

/-- Settles O40: the three instructions differ only in the register they compare. -/
theorem comparesComplete : Obligations.ComparesComplete := by
  intro o s m cross h i reg hi
  rw [← Flags.compare_eq]
  simp only [List.mem_cons, Prod.mk.injEq, List.not_mem_nil, or_false] at hi
  obtain ⟨rfl, rfl⟩ | ⟨rfl, rfl⟩ | ⟨rfl, rfl⟩ := hi
  · exact readWith_done (fun m s => s.compare s.a m) h
  · exact readWith_done (fun m s => s.compare s.x m) h
  · exact readWith_done (fun m s => s.compare s.y m) h

/-! ### The register counters -/

/-- Settles O45: each counter is an Implied instruction that loads a register with its own value plus or minus 1. -/
theorem registerCountersComplete : Obligations.RegisterCountersComplete := by
  intro s
  simp only [← setZN_eq_withZN]
  exact ⟨implied_done (fun s => s.loadX (s.x + 1)) s, implied_done (fun s => s.loadY (s.y + 1)) s,
    implied_done (fun s => s.loadX (s.x - 1)) s, implied_done (fun s => s.loadY (s.y - 1)) s⟩

end Sys2Proof.Machine
end

section
/-! PROOFS. 46_stack_subroutine.md: a word pushed and a word pulled, and with them JSR, RTS, RTI and BRK (R226 to R229). -/

namespace Sys2Proof.Machine

/-! ### A word pushed -/

theorem sp_ne_zero {sp : Byte} (h : 0 < sp.toNat) : sp ≠ 0x00 := by
  bv_omega

theorem sp_sub_two_toNat {sp : Byte} (h : 2 ≤ sp.toNat) : (sp - 2).toNat = sp.toNat - 2 := by
  bv_omega

/-- A word pushed with room and two mapped cells: its high byte at the stack cell, its low byte below (R226). -/
theorem pushWord_done {s : State} (w : Word) (hs : s.Inv) (hroom : 2 ≤ s.sp.toNat)
    (hhigh : (resolveCell s.cfg (BitVec.ofNat 16 (256 + s.sp.toNat))).isSome = true)
    (hlow : (resolveCell s.cfg (BitVec.ofNat 16 (255 + s.sp.toNat))).isSome = true) :
    ∃ u t, pushWord w s = .ok t ∧ WroteByte s u (BitVec.ofNat 16 (256 + s.sp.toNat)) (hi w) ∧ u = { s with mem := u.mem } ∧
      WroteByte u t (BitVec.ofNat 16 (255 + s.sp.toNat)) (lo w) ∧ t = { s with mem := t.mem, sp := s.sp - 2 } ∧ t.Inv := by
  have hsp : s.sp ≠ 0x00 := sp_ne_zero (by omega)
  obtain ⟨p, hpushHi, hwroteHi, hp, hpinv⟩ := push_done (hi w) hs hsp hhigh
  have hpcfg : p.cfg = s.cfg := by rw [hp]
  have hpsp : p.sp = s.sp - 1 := by rw [hp]
  have hpspNat : p.sp.toNat = s.sp.toNat - 1 := by rw [hpsp, sp_pred_toNat hsp]
  have haddr : 256 + p.sp.toNat = 255 + s.sp.toNat := by omega
  have hmapped : (resolveCell p.cfg (BitVec.ofNat 16 (256 + p.sp.toNat))).isSome = true := by rwa [hpcfg, haddr]
  obtain ⟨t, hpushLo, hwroteLo, ht, htinv⟩ := push_done (lo w) hpinv (sp_ne_zero (by omega)) hmapped
  have htsp : p.sp - 1 = s.sp - 2 := by rw [hpsp]; exact BitVec.sub_sub s.sp 1 1
  rw [haddr] at hwroteLo
  refine ⟨p.setSP s.sp, t, ?pushed, hwroteHi.congr rfl rfl rfl rfl, ?restored, hwroteLo.congr rfl rfl rfl rfl, ?state, htinv⟩
  case pushed => rw [pushWord, hpushHi, Res.bind_ok, hpushLo]
  case restored => rw [hp]; rfl
  case state => rw [ht, htsp, hp]

/-- Settles O54: JSR is one pushed word and then the jump. -/
theorem subroutineCallCompletes : Obligations.SubroutineCallCompletes := by
  intro target s hs hroom hhigh hlow
  obtain ⟨u, t, hpush, hwroteHi, hu, hwroteLo, ht, -⟩ := pushWord_done (s.pc + 2) hs hroom hhigh hlow
  have hexec : exec (.jsr target) s = .next (t.jumpTo target 6) := by
    simp only [exec, execJsr, hpush, Res.bind_ok, finish_ok]
  refine ⟨t.jumpTo target 6, u, hexec, hwroteHi, hu, hwroteLo.congr rfl rfl rfl rfl, ?_⟩
  rw [ht]
  rfl

/-! ### A word pulled -/

/-- A word pulled where two bytes can be read: the low byte lies above SP, the high byte above it (R227). -/
theorem pullWord_done {s : State} {l h : Byte} (hroom : s.sp.toNat < 254)
    (hl : s.readByte (BitVec.ofNat 16 (257 + s.sp.toNat)) = some l)
    (hh : s.readByte (BitVec.ofNat 16 (258 + s.sp.toNat)) = some h) :
    pullWord s = .ok ⟨w16 l h, s.setSP (s.sp + 2)⟩ := by
  have hsp : (s.setSP (s.sp + 1)).sp.toNat = s.sp.toNat + 1 := sp_succ_toNat (by omega)
  have haddr : 257 + (s.setSP (s.sp + 1)).sp.toNat = 258 + s.sp.toNat := by omega
  have hpull : pull (s.setSP (s.sp + 1)) = .ok ⟨h, s.setSP (s.sp + 1 + 1)⟩ :=
    pull_done (s := s.setSP (s.sp + 1)) (by omega) (by rw [haddr]; exact hh)
  have hsum : s.sp + 1 + 1 = s.sp + 2 := BitVec.add_assoc s.sp 1 1
  rw [pullWord, pull_done (by omega) hl, Res.bind_ok, hpull, Res.bind_ok, hsum]

/-- RTS goes to the pulled word plus 1 (R227). -/
theorem exec_rts_done {s : State} {l h : Byte} (hroom : s.sp.toNat < 254)
    (hl : s.readByte (BitVec.ofNat 16 (257 + s.sp.toNat)) = some l)
    (hh : s.readByte (BitVec.ofNat 16 (258 + s.sp.toNat)) = some h) :
    exec .rts s = .next { s with sp := s.sp + 2, pc := w16 l h + 1, cyc := s.cyc + 6 } := by
  rw [exec_rts_eq, pullWord_done hroom hl hh]
  rfl

/-- RTI pulls the status byte and then PC (R229). -/
theorem exec_rti_done {s : State} {p l h : Byte} (hroom : s.sp.toNat < 253)
    (hp : s.readByte (BitVec.ofNat 16 (257 + s.sp.toNat)) = some p)
    (hl : s.readByte (BitVec.ofNat 16 (258 + s.sp.toNat)) = some l)
    (hh : s.readByte (BitVec.ofNat 16 (259 + s.sp.toNat)) = some h) :
    exec .rti s = .next { s with sp := s.sp + 3, flags := s.flags.unpack true p, pc := w16 l h, cyc := s.cyc + 6 } := by
  have hsp : (s.sp + 1).toNat = s.sp.toNat + 1 := sp_succ_toNat (by omega)
  have hlowAddr : 257 + (s.sp + 1).toNat = 258 + s.sp.toNat := by omega
  have hhighAddr : 258 + (s.sp + 1).toNat = 259 + s.sp.toNat := by omega
  have hword : pullWord ((s.setSP (s.sp + 1)).setFlags (s.flags.unpack true p)) =
      .ok ⟨w16 l h, (s.setSP (s.sp + 1 + 2)).setFlags (s.flags.unpack true p)⟩ :=
    pullWord_done (s := (s.setSP (s.sp + 1)).setFlags (s.flags.unpack true p)) (by rw [setFlags_sp, setSP_sp]; omega)
      (by rw [setFlags_sp, setSP_sp, hlowAddr]; exact hl) (by rw [setFlags_sp, setSP_sp, hhighAddr]; exact hh)
  have hsum : s.sp + 1 + 2 = s.sp + 3 := BitVec.add_assoc s.sp 1 2
  rw [exec_rti_of_pull (pull_done (by omega) hp), setSP_flags, hword, hsum]
  rfl

/-- Settles O55: RTS is one pulled word, RTI a pulled status byte and then a pulled word. -/
theorem returnsComplete : Obligations.ReturnsComplete :=
  ⟨fun _ _ _ => exec_rts_done, fun _ _ _ _ => exec_rti_done⟩

/-! ### BRK -/

/-- A third byte pushed below a pushed word, with room and a mapped cell. -/
theorem push_below_word {s p : State} (v : Byte) (hpinv : p.Inv) (hp : p = { s with mem := p.mem, sp := s.sp - 2 })
    (hroom : 3 ≤ s.sp.toNat) (hm : (resolveCell s.cfg (BitVec.ofNat 16 (254 + s.sp.toNat))).isSome = true) :
    ∃ q, push v p = .ok q ∧ WroteByte p q (BitVec.ofNat 16 (254 + s.sp.toNat)) v ∧
      q = { s with mem := q.mem, sp := s.sp - 3 } := by
  have hpcfg : p.cfg = s.cfg := by rw [hp]
  have hpsp : p.sp = s.sp - 2 := by rw [hp]
  have hpspNat : p.sp.toNat = s.sp.toNat - 2 := by rw [hpsp, sp_sub_two_toNat (by omega)]
  have haddr : 256 + p.sp.toNat = 254 + s.sp.toNat := by omega
  have hqsp : p.sp - 1 = s.sp - 3 := by rw [hpsp]; exact BitVec.sub_sub s.sp 2 1
  rw [← hpcfg, ← haddr] at hm
  obtain ⟨q, hpush, hwrote, hq, -⟩ := push_done v hpinv (sp_ne_zero (by omega)) hm
  rw [haddr] at hwrote
  exact ⟨q, hpush, hwrote, by rw [hq, hqsp, hp]⟩

/-- The vector is read after the pushes, and I set before it is (R228). -/
theorem breakVector_done {u : State} (hlow : (resolveCell u.cfg 0xFFFE).isSome = true)
    (hhigh : (resolveCell u.cfg 0xFFFF).isSome = true) :
    ∃ l h, u.readByte 0xFFFE = some l ∧ u.readByte 0xFFFF = some h ∧
      breakVector u = .ok ((u.setFlags { u.flags with i := true }).setPC (w16 l h)) := by
  obtain ⟨l, hl⟩ := readByte_mapped hlow
  obtain ⟨h, hh⟩ := readByte_mapped hhigh
  have hread : read16 0xFFFE (u.setFlags { u.flags with i := true }) = .ok (w16 l h) :=
    readPair_of (s := u.setFlags { u.flags with i := true }) hl hh
  exact ⟨l, h, hl, hh, by rw [breakVector, hread, Res.bind_ok]⟩

/-- BRK under full whose pushes are done: its vector, and then Break (R228, 60 R303). -/
theorem exec_brk_of_pushes {s t u : State} (hfull : s.cfg.brkEffects = .full) (hword : pushWord (s.pc + 2) s = .ok t)
    (hstatus : push (t.flags.pack true) t = .ok u) :
    exec .brk s = finish ((breakVector u).bind fun v => .err .brk v) := by
  have hentry : breakEntry s = breakVector u := by
    rw [breakEntry, hword, Res.bind_ok, hstatus]
    rfl
  simp only [exec, execBrk, hfull, hentry]

/-- Settles O56: under full, a pushed word, a pushed status byte and the vector. -/
theorem breakTakesItsEntry : Obligations.BreakTakesItsEntry := by
  refine ⟨fun s hsignal => ?signalOnly, fun s hs hfull hroom hm₀ hm₁ hm₂ hlow hhigh => ?full⟩
  case signalOnly =>
    simp only [exec, execBrk, hsignal]
    rfl
  case full =>
    obtain ⟨u, p, hword, hwroteHi, hu, hwroteLo, hp, hpinv⟩ := pushWord_done (s.pc + 2) hs (by omega) hm₀ hm₁
    have hpflags : p.flags = s.flags := by rw [hp]
    obtain ⟨q, hstatus, hwroteP, hq⟩ := push_below_word (p.flags.pack true) hpinv hp hroom hm₂
    have hqcfg : q.cfg = s.cfg := by rw [hq]
    rw [← hqcfg] at hlow hhigh
    obtain ⟨l, h, hl, hh, hvector⟩ := breakVector_done hlow hhigh
    have hexec := exec_brk_of_pushes hfull hword hstatus
    rw [hvector] at hexec
    rw [hpflags] at hwroteP
    refine ⟨_, u, p.setSP s.sp, l, h, hexec, hwroteHi, hu, hwroteLo.congr rfl rfl rfl rfl, ?restored,
      hwroteP.congr rfl rfl rfl rfl, hl, hh, ?state⟩
    case restored => rw [hp]; rfl
    case state => rw [hq]; rfl

/-! ### The return of a call -/

/-- Below PRG-RAM no two addresses share a cell (20_memory.md R78). -/
theorem SameCell.eq_of_low {c : Config} {a b : Word} (ha : a.toNat < 0x6000) (h : SameCell c a b) : a = b := by
  rcases h with hab | ⟨-, hrom, -⟩ | ⟨-, hram, -⟩
  · exact hab
  · omega
  · omega

/-- A byte written below PRG-RAM is read back there. -/
theorem WroteByte.readByte_same {s t : State} {a : Word} {v : Byte} (h : WroteByte s t a v) (ha : a.toNat < 0x6000) :
    t.readByte a = some v := by
  obtain ⟨-, hstored, -⟩ := h
  have htaken : ignoresWrite s.cfg a = false := by
    rw [Bool.eq_false_iff, ne_eq, ignoresWrite_iff]
    omega
  exact hstored htaken a rfl

/-- A byte written below PRG-RAM changes no other address. -/
theorem WroteByte.readByte_of_ne {s t : State} {a b : Word} {v : Byte} (h : WroteByte s t a v) (ha : a.toNat < 0x6000)
    (hmapped : (resolveCell s.cfg a).isSome = true) (hne : a ≠ b) : t.readByte b = s.readByte b := by
  obtain ⟨-, -, hframe⟩ := h
  exact hframe b fun hcell => hne (((sameCell_iff hmapped).2 hcell).eq_of_low ha)

/-- Settles O58: RTS reads back the two bytes of PC + 2 that JSR wrote, the low one without disturbing the high one. -/
theorem returnComesBackAfterTheCall : Obligations.ReturnComesBackAfterTheCall := by
  intro target s hs hroom hhigh hlow
  obtain ⟨t, u, hjsr, hwroteHi, hu, hwroteLo, ht⟩ := subroutineCallCompletes target s hs hroom hhigh hlow
  have hucfg : u.cfg = s.cfg := by rw [hu]
  have htsp : t.sp = s.sp - 2 := by rw [ht]
  have hspNat : t.sp.toNat = s.sp.toNat - 2 := by rw [htsp, sp_sub_two_toNat hroom]
  have hl : t.readByte (BitVec.ofNat 16 (257 + t.sp.toNat)) = some (lo (s.pc + 2)) := by
    rw [show 257 + t.sp.toNat = 255 + s.sp.toNat by omega]
    exact hwroteLo.readByte_same (by bv_omega)
  have hh : t.readByte (BitVec.ofNat 16 (258 + t.sp.toNat)) = some (hi (s.pc + 2)) := by
    rw [show 258 + t.sp.toNat = 256 + s.sp.toNat by omega,
      hwroteLo.readByte_of_ne (by bv_omega) (by rwa [hucfg]) (by bv_omega)]
    exact hwroteHi.readByte_same (by bv_omega)
  have hrts := exec_rts_done (by omega) hl hh
  have hpc : w16 (lo (s.pc + 2)) (hi (s.pc + 2)) + 1 = s.pc + 3 := by
    rw [w16_lo_hi]
    exact BitVec.add_assoc s.pc 2 1
  have hsp : t.sp + 2 = s.sp := by rw [htsp]; exact BitVec.sub_add_cancel s.sp 2
  exact ⟨t, _, hjsr, hrts, hpc, hsp, by rw [ht], by rw [ht], by rw [ht], by rw [ht]⟩

end Sys2Proof.Machine
end

section
/-! PROOFS. How a step ends (60_exceptions.md R300 to R310): that there always is a next state, what an error leaves of PC and
CYC, and the errors of the fetch. -/

namespace Sys2Proof.Machine

/-! ### There is a next state -/

theorem finish_next (r : Res State) : ∃ t, finish r = .next t := by
  cases r with
  | ok s => exact ⟨s, rfl⟩
  | err e s => exact ⟨s.setRun (.stopped e), rfl⟩

/-- Every shape ends by `finish`, or has its next state written out. -/
theorem Meaning.next {i : Instr} {F : State → Out} (hF : Meaning i F) (s : State) : ∃ t, F s = .next t := by
  cases hF with
  | read o f _ _ _ => exact finish_next _
  | store m g _ _ _ => exact finish_next _
  | modify m prim after _ _ _ _ => exact finish_next _
  | shiftA prim _ _ _ => exact ⟨_, rfl⟩
  | implied f _ _ _ => exact ⟨_, rfl⟩
  | branch cond offset _ _ =>
    dsimp only
    unfold branchIf
    cases cond s with
    | true => exact ⟨_, rfl⟩
    | false => exact ⟨_, rfl⟩
  | jmp o _ => exact finish_next _
  | pha _ => exact finish_next _
  | php _ => exact finish_next _
  | pla _ => exact finish_next _
  | plp _ => exact finish_next _
  | jsr target _ => exact finish_next _
  | rts _ => exact finish_next _
  | brk _ =>
    unfold execBrk
    cases s.cfg.brkEffects with
    | full => exact finish_next _
    | signalOnly => exact ⟨_, rfl⟩
  | rti _ => exact finish_next _
  | sbcEB v _ =>
    unfold execSbcImmediateEB
    split
    · exact finish_next _
    · exact ⟨_, rfl⟩
  | unknown op _ => exact ⟨_, rfl⟩

theorem step_of_fetch_err {s t : State} {e : StepError} (hrun : s.run = .running) (h : fetch s = .err e t) :
    step s = raise e t := by
  simp only [step, hrun, h]

theorem step_next {s : State} (hrun : s.run = .running) : ∃ t, step s = .next t := by
  cases hfetch : fetch s with
  | ok i =>
    rw [step_of_fetch hrun hfetch]
    exact (exec_meaning i).next s
  | err e t =>
    rw [step_of_fetch_err hrun hfetch]
    exact ⟨_, rfl⟩

theorem stepResult_running {t : State} (h : t.run = .running) : stepResult (.next t) = some .ok := by
  simp only [stepResult, h]

theorem stepResult_stopped {t : State} {e : StepError} (h : t.run = .stopped e) : stepResult (.next t) = some (.err e) := by
  simp only [stepResult, h]

/-- Settles O10: every shape has a next state, and the result is read off its run status. -/
theorem everyInstructionHasANextState : Obligations.EveryInstructionHasANextState := by
  refine ⟨fun i s => (exec_meaning i).next s, fun s hrun => ?_⟩
  obtain ⟨t, ht⟩ := step_next hrun
  rw [ht]
  refine ⟨t, rfl, ?_⟩
  cases hstatus : t.run with
  | running => exact .inl ⟨rfl, stepResult_running hstatus⟩
  | stopped e => exact .inr ⟨e, rfl, stepResult_stopped hstatus⟩

/-- Settles O9: `step` looks at the run status first. -/
theorem stoppedRunRepeatsItsError : Obligations.StoppedRunRepeatsItsError := by
  intro s e hstopped
  have hstep : step s = .fault (.stopped e) := by simp only [step, hstopped]
  rw [hstep]
  exact ⟨rfl, rfl⟩

/-! ### What an error leaves -/

/-- Settles O18: of what an instruction can leave, a success still runs, a raise holds PC and CYC, and only BRK that went
through its entry has another PC. -/
theorem errorStepsKeepPcAndCycles : Obligations.ErrorStepsKeepPcAndCycles := by
  intro s t e hrun h hstopped
  rcases step_cases h with ⟨i, -, hexec⟩ | ⟨e', rfl⟩
  · cases exec_left hexec with
    | advanced k hu =>
      rw [advance_run, hu.run, hrun] at hstopped
      cases hstopped
    | jumped target k hu _ =>
      rw [jumpTo_run, hu.run, hrun] at hstopped
      cases hstopped
    | raised e' hu => exact ⟨hu.cyc, fun _ => hu.pc, fun _ => hu.pc⟩
    | broke target hu _ hfull =>
      cases hstopped
      refine ⟨hu.cyc, fun hne => absurd rfl hne, fun hsignal => ?_⟩
      rw [hfull] at hsignal
      cases hsignal
  · exact ⟨rfl, fun _ => rfl, fun _ => rfl⟩

/-! ### The fetch -/

/-- An error of the fetch stops the run and does nothing else (60 R302). -/
theorem step_of_unreadable_fetch {s : State} {a : Word} (hrun : s.run = .running)
    (h : fetch s = .err (.memoryAccess a .read) s) : step s = .next { s with run := .stopped (.memoryAccess a .read) } :=
  step_of_fetch_err hrun h

theorem memRead_unreadable {a : Word} {s : State} (h : s.readByte a = none) :
    memRead a s = .err (.memoryAccess a .read) s := memRead_err.2 ⟨h, rfl, rfl⟩

theorem fetch_opcode_unreadable {s : State} (h : s.readByte s.pc = none) :
    fetch s = .err (.memoryAccess s.pc .read) s := by
  rw [fetch, memRead_unreadable h, Res.bind_err]

/-- The first operand byte, of an entry that needs one. -/
theorem fetch_operand_unreadable {s : State} {op : Byte} (hop : s.readByte s.pc = some op)
    (hneeds : 1 ≤ (entryOf s.cfg.usbcEb op).operandBytes) (h : s.readByte (s.pc + 1) = none) :
    fetch s = .err (.memoryAccess (s.pc + 1) .read) s := by
  rw [fetch, memRead_ok.2 hop, Res.bind_ok]
  cases hentry : entryOf s.cfg.usbcEb op with
  | f1 i => simp [hentry, Entry.operandBytes] at hneeds
  | f2 make => simp only [memRead_unreadable h, Res.bind_err]
  | f3 make => simp only [memRead_unreadable h, Res.bind_err]

/-- The second operand byte, of an entry that needs two. -/
theorem fetch_second_operand_unreadable {s : State} {op b : Byte} (hop : s.readByte s.pc = some op)
    (hneeds : (entryOf s.cfg.usbcEb op).operandBytes = 2) (hb : s.readByte (s.pc + 1) = some b)
    (h : s.readByte (s.pc + 2) = none) : fetch s = .err (.memoryAccess (s.pc + 2) .read) s := by
  rw [fetch, memRead_ok.2 hop, Res.bind_ok]
  cases hentry : entryOf s.cfg.usbcEb op with
  | f1 i => simp [hentry, Entry.operandBytes] at hneeds
  | f2 make => simp [hentry, Entry.operandBytes] at hneeds
  | f3 make => simp only [memRead_ok.2 hb, memRead_unreadable h, Res.bind_ok, Res.bind_err]

/-- Settles O7: the fetch reads the opcode, and then as many bytes as its entry needs, in order. -/
theorem fetchErrorsComeInAccessOrder : Obligations.FetchErrorsComeInAccessOrder := fun _ hrun =>
  ⟨fun h => step_of_unreadable_fetch hrun (fetch_opcode_unreadable h),
    fun _ hop hneeds h => step_of_unreadable_fetch hrun (fetch_operand_unreadable hop hneeds h),
    fun _ _ hop hneeds hb h => step_of_unreadable_fetch hrun (fetch_second_operand_unreadable hop hneeds hb h)⟩

end Sys2Proof.Machine
end

section
/-! PROOFS. Where each error of a step comes from (60_exceptions.md R300, R303 to R307): every part of a step goes on running,
or raises an error that its instruction has a cause for. -/

namespace Sys2Proof.Machine

/-- The instructions that push, under configuration `c` (10_state.md R41). -/
inductive Pushes (c : Config) : Instr → Prop where
  | pha : Pushes c .pha
  | php : Pushes c .php
  | jsr (target : Word) : Pushes c (.jsr target)
  | brk (hfull : c.brkEffects = .full) : Pushes c .brk

/-- The instructions that pull (10_state.md R42). -/
inductive Pulls : Instr → Prop where
  | pla : Pulls .pla
  | plp : Pulls .plp
  | rts : Pulls .rts
  | rti : Pulls .rti

/-- The causes R300 gives instruction `i` for an error that leaves `u`; the address of a MemoryAccessError is
`step_memoryAccess_unmapped`. -/
inductive Cause (c : Config) (i : Instr) (u : State) : StepError → Prop where
  | memoryAccess (a : Word) (d : Access) : Cause c i u (.memoryAccess a d)
  | stackOverflow (hi : Pushes c i) (hsp : u.sp = 0x00) : Cause c i u .stackOverflow
  | stackEmpty (hi : Pulls i) (hsp : u.sp = 0xFF) : Cause c i u .stackEmpty
  | brk (hi : i = .brk) : Cause c i u .brk
  | unknown (op : Byte) (hi : i = .unknown op) : Cause c i u (.unknownOpcode op)
  | unknownEB (v : Byte) (hi : i = .sbcImmediateEB v) (heb : c.usbcEb = false) : Cause c i u (.unknownOpcode 0xEB)

/-- Part of a step of `i`: a value of which `P` holds, or an error that has a cause. -/
inductive Res.Caused (c : Config) (i : Instr) {α : Type} (P : α → Prop) : Res α → Prop where
  | ok {v : α} (h : P v) : Res.Caused c i P (.ok v)
  | err {e : StepError} {u : State} (h : Cause c i u e) : Res.Caused c i P (.err e u)

/-- An outcome of `i`: if an error stops its next state, it has a cause. -/
def OutCaused (c : Config) (i : Instr) (o : Out) : Prop := ∀ t e, o = .next t → t.run = .stopped e → Cause c i t e

section
variable {c : Config} {i : Instr} {s : State}

theorem Res.Caused.bind {α β : Type} {P : α → Prop} {Q : β → Prop} {r : Res α} {f : α → Res β} (h : r.Caused c i P)
    (hf : ∀ v, P v → (f v).Caused c i Q) : (r.bind f).Caused c i Q := by
  cases h with
  | ok h => exact hf _ h
  | err h => exact .err h

/-- The cause is about SP alone of the state. -/
theorem Cause.setRun {e : StepError} (h : Cause c i s e) (status : RunStatus) : Cause c i (s.setRun status) e := by
  cases h with
  | memoryAccess a d => exact .memoryAccess a d
  | stackOverflow hi hsp => exact .stackOverflow hi hsp
  | stackEmpty hi hsp => exact .stackEmpty hi hsp
  | brk hi => exact .brk hi
  | unknown op hi => exact .unknown op hi
  | unknownEB v hi heb => exact .unknownEB v hi heb

theorem finish_caused {r : Res State} (h : r.Caused c i (Going c)) : OutCaused c i (finish r) := by
  intro t e hnext hstopped
  cases h with
  | ok h =>
    cases hnext
    rw [h.running] at hstopped
    cases hstopped
  | err h =>
    cases hnext
    cases hstopped
    exact h.setRun _

theorem next_caused (h : Going c s) : OutCaused c i (.next s) := finish_caused (.ok h)

theorem raise_caused {e : StepError} (h : Cause c i s e) : OutCaused c i (raise e s) := finish_caused (.err h)

/-! ### The shared operations -/

theorem memRead_caused (a : Word) : (memRead a s).Caused c i fun _ => True := by
  unfold memRead
  split
  · exact .ok trivial
  · exact .err (.memoryAccess _ _)

theorem memWrite_caused (hs : Going c s) (a : Word) (v : Byte) : (memWrite a v s).Caused c i (Going c) := by
  unfold memWrite
  split
  case h_1 t h => exact .ok ((writeByte_held h).going hs)
  case h_2 => exact .err (.memoryAccess _ _)

theorem readPair_caused (la ha : Word) : (readPair la ha s).Caused c i fun _ => True :=
  (memRead_caused la).bind fun _ _ => (memRead_caused ha).bind fun _ _ => .ok trivial

theorem push_caused (hi : Pushes c i) (hs : Going c s) (v : Byte) : (push v s).Caused c i (Going c) := by
  refine (memWrite_caused hs _ v).bind fun t ht => ?_
  split
  case isTrue hsp => exact .err (.stackOverflow hi hsp)
  case isFalse => exact .ok ht

theorem pull_caused (hi : Pulls i) (hs : Going c s) : (pull s).Caused c i fun p => Going c p.state := by
  unfold pull
  split
  case isTrue hsp => exact .err (.stackEmpty hi hsp)
  case isFalse => exact (memRead_caused _).bind fun _ _ => .ok hs

theorem pushWord_caused (hi : Pushes c i) (hs : Going c s) (w : Word) : (pushWord w s).Caused c i (Going c) :=
  (push_caused hi hs _).bind fun _ ht => push_caused hi ht _

theorem pullWord_caused (hi : Pulls i) (hs : Going c s) : (pullWord s).Caused c i fun r => Going c r.state :=
  (pull_caused hi hs).bind fun _ hl => (pull_caused hi hl).bind fun _ hh => .ok hh

theorem breakEntry_caused (hi : Pushes c i) (hs : Going c s) : (breakEntry s).Caused c i (Going c) :=
  (pushWord_caused hi hs _).bind fun _ ht => (push_caused hi ht _).bind fun _ hu =>
    (readPair_caused _ _).bind fun _ _ => .ok hu

theorem interruptReturn_caused (hi : Pulls i) (hs : Going c s) (k : Nat) : (interruptReturn k s).Caused c i (Going c) :=
  (pull_caused hi hs).bind fun p hp =>
    (pullWord_caused (s := p.state.setFlags (p.state.flags.unpack true p.value)) hi hp).bind fun _ hr => .ok hr

theorem resolve_caused (m : MemOperand) : (resolve m s).Caused c i fun _ => True := by
  cases hr : resolve m s with
  | ok r => exact .ok trivial
  | err e t =>
    obtain ⟨-, a, -, rfl⟩ := resolve_err hr
    exact .err (.memoryAccess _ _)

theorem load_caused (o : ReadOperand) : (load o s).Caused c i fun _ => True := by
  cases hl : load o s with
  | ok l => exact .ok trivial
  | err e t =>
    obtain ⟨-, a, -, rfl⟩ := load_err hl
    exact .err (.memoryAccess _ _)

theorem jumpTarget_caused (o : JumpOperand) : (jumpTarget o s).Caused c i fun _ => True := by
  cases o with
  | absolute target => exact .ok trivial
  | indirect ptr => exact readPair_caused _ _

/-! ### The shapes -/

theorem readWith_caused {o : ReadOperand} {f : Byte → State → State} (hf : ∀ v, Plain (f v)) (hs : Going c s) :
    OutCaused c i (readWith o f s) :=
  finish_caused ((load_caused o).bind fun l _ => .ok (((hf l.value).held s).going hs))

theorem storeValue_caused (hs : Going c s) (m : MemOperand) (v : Byte) : OutCaused c i (storeValue m v s) :=
  finish_caused ((resolve_caused m).bind fun r _ => (memWrite_caused hs r.ea v).bind fun _ ht => .ok ht)

theorem modifyWith_caused {m : MemOperand} {prim : Primitive} {after : Byte → State → State} (hafter : ∀ r, Plain (after r))
    (hs : Going c s) : OutCaused c i (modifyWith m prim after s) :=
  finish_caused ((resolve_caused m).bind fun r _ => (memRead_caused r.ea).bind fun v _ =>
    (memWrite_caused (s := s.setFlags (prim v s.flags).flags) hs r.ea _).bind fun t ht => .ok (((hafter _).held t).going ht))

theorem branchIf_caused (hs : Going c s) (cond : Bool) (offset : Byte) : OutCaused c i (branchIf cond offset s) := by
  unfold branchIf
  cases cond with
  | true => exact next_caused hs
  | false => exact next_caused hs

/-- BRK under signal_only raises Break alone (46 R228). -/
theorem execBrk_caused (hi : i = .brk) (hs : Going c s) : OutCaused c i (execBrk s) := by
  unfold execBrk
  split
  case h_1 hfull =>
    have hpush : Pushes c i := hi ▸ .brk (hs.cfg ▸ hfull)
    exact finish_caused ((breakEntry_caused hpush hs).bind fun _ _ => .err (.brk hi))
  case h_2 => exact raise_caused (.brk hi)

theorem execSbcImmediateEB_caused {v : Byte} (hi : i = .sbcImmediateEB v) (hs : Going c s) :
    OutCaused c i (execSbcImmediateEB v s) := by
  unfold execSbcImmediateEB
  split
  case isTrue => exact readWith_caused plain_sbc hs
  case isFalse heb => exact raise_caused (.unknownEB v hi (Bool.eq_false_iff.2 (hs.cfg ▸ heb)))

theorem Meaning.caused {F : State → Out} (hF : Meaning i F) (hs : Going c s) : OutCaused c i (F s) := by
  cases hF with
  | read o f hf _ _ => exact readWith_caused hf hs
  | store m g _ _ _ => exact storeValue_caused hs m (g s)
  | modify m prim after _ hafter _ _ => exact modifyWith_caused hafter hs
  | shiftA prim _ _ _ => exact next_caused hs
  | implied f hf _ _ => exact next_caused ((hf.held s).going hs)
  | branch cond offset _ _ => exact branchIf_caused hs (cond s) offset
  | jmp o _ => exact finish_caused ((jumpTarget_caused o).bind fun _ _ => .ok hs)
  | pha hi => exact finish_caused ((push_caused (hi ▸ .pha) hs _).bind fun _ ht => .ok ht)
  | php hi => exact finish_caused ((push_caused (hi ▸ .php) hs _).bind fun _ ht => .ok ht)
  | pla hi => exact finish_caused ((pull_caused (hi ▸ .pla) hs).bind fun _ hp => .ok hp)
  | plp hi => exact finish_caused ((pull_caused (hi ▸ .plp) hs).bind fun _ hp => .ok hp)
  | jsr target hi => exact finish_caused ((pushWord_caused (hi ▸ .jsr target) hs _).bind fun _ ht => .ok ht)
  | rts hi => exact finish_caused ((pullWord_caused (hi ▸ .rts) hs).bind fun _ hr => .ok hr)
  | brk hi => exact execBrk_caused hi hs
  | rti hi => exact finish_caused (interruptReturn_caused (hi ▸ .rti) hs 6)
  | sbcEB v hi => exact execSbcImmediateEB_caused hi hs
  | unknown op hi => exact raise_caused (.unknown op hi)

end

/-! ### The step -/

/-- An error of the fetch is a MemoryAccessError (60 R306). -/
theorem fetch_err_memoryAccess {s t : State} {e : StepError} (h : fetch s = .err e t) : ∃ a, e = .memoryAccess a .read := by
  have hread : ∀ {a : Word} {u : State}, memRead a s = .err e u → ∃ a, e = .memoryAccess a .read :=
    fun h => let ⟨_, he, _⟩ := memRead_err.1 h; ⟨_, he⟩
  rcases Res.bind_eq_err h with h | ⟨op, -, h⟩
  · exact hread h
  · split at h
    · cases h
    · rcases Res.bind_eq_err h with h | ⟨b1, -, h⟩
      · exact hread h
      · cases h
    · rcases Res.bind_eq_err h with h | ⟨b1, -, h⟩
      · exact hread h
      · rcases Res.bind_eq_err h with h | ⟨b2, -, h⟩
        · exact hread h
        · cases h

/-- An error of a step other than MemoryAccessError has a cause in the fetched instruction. -/
theorem step_stopped_cause {s t : State} {e : StepError} (hrun : s.run = .running) (h : step s = .next t)
    (ht : t.run = .stopped e) (hne : ∀ a d, e ≠ .memoryAccess a d) : ∃ i, fetch s = .ok i ∧ Cause s.cfg i t e := by
  cases hfetch : fetch s with
  | ok i =>
    rw [step_of_fetch hrun hfetch] at h
    exact ⟨i, rfl, (exec_meaning i).caused ⟨hrun, rfl⟩ t e h ht⟩
  | err e' u =>
    rw [step_of_fetch_err hrun hfetch] at h
    obtain ⟨a, rfl⟩ := fetch_err_memoryAccess hfetch
    cases h
    cases ht
    exact absurd rfl (hne a .read)

/-- What is fetched is well-formed (40_addressing.md R136). -/
theorem fetch_wellFormed {s : State} {i : Instr} (h : fetch s = .ok i) : i.wellFormed s.cfg.usbcEb = true := by
  obtain ⟨op, b1, b2, -, rfl⟩ := fetch_ok h
  exact entryOf_wellFormed s.cfg.usbcEb op b1 b2

/-- SBC at EB is not fetched where EB is not recognised (49 R292). -/
theorem usbcEb_of_fetch_sbcImmediateEB {s : State} {v : Byte} (h : fetch s = .ok (.sbcImmediateEB v)) :
    s.cfg.usbcEb = true := fetch_wellFormed h

/-- The instruction of an unrecognised byte is fetched from that byte (30 R107). -/
theorem fetch_unknown {s : State} {op : Byte} (h : fetch s = .ok (.unknown op)) :
    s.readByte s.pc = some op ∧ recognised s.cfg.usbcEb op = false :=
  ⟨(fetch_opcode h).symm,
    recognised_eq_false_iff.2 (entryOf_eq_unknown_iff.2 (unknown_wellFormed_iff.1 (fetch_wellFormed h)))⟩

/-- Settles O19: each error but MemoryAccessError has a cause in the fetched instruction, and its causes are of one kind. -/
theorem eachErrorComesFromItsCause : Obligations.EachErrorComesFromItsCause := by
  intro s t hrun h
  have hcause := fun e => step_stopped_cause (e := e) hrun h
  refine ⟨fun ht => ?brk, fun op ht => ?unknown, fun ht => ?overflow, fun ht => ?empty,
    fun a d => step_memoryAccess_unmapped hrun h, fun ht => ?entryPoint⟩
  case brk =>
    obtain ⟨i, hi, hbrk⟩ := hcause _ ht nofun
    cases hbrk with
    | brk h => rw [hi, h]
  case unknown =>
    obtain ⟨i, hi, hunknown⟩ := hcause _ ht nofun
    cases hunknown with
    | unknown _ h => exact fetch_unknown (h ▸ hi)
    | unknownEB v h heb =>
      rw [usbcEb_of_fetch_sbcImmediateEB (h ▸ hi)] at heb
      cases heb
  case overflow =>
    obtain ⟨i, hi, hoverflow⟩ := hcause _ ht nofun
    cases hoverflow with
    | stackOverflow hpush hsp =>
      refine ⟨hsp, ?_⟩
      cases hpush with
      | pha => exact .inl hi
      | php => exact .inr (.inl hi)
      | jsr target => exact .inr (.inr (.inl ⟨target, hi⟩))
      | brk hfull => exact .inr (.inr (.inr ⟨hi, hfull⟩))
  case empty =>
    obtain ⟨i, hi, hempty⟩ := hcause _ ht nofun
    cases hempty with
    | stackEmpty hpull hsp =>
      refine ⟨hsp, ?_⟩
      cases hpull with
      | pla => exact .inl hi
      | plp => exact .inr (.inl hi)
      | rts => exact .inr (.inr (.inl hi))
      | rti => exact .inr (.inr (.inr hi))
  case entryPoint =>
    obtain ⟨i, -, hnone⟩ := hcause _ ht nofun
    cases hnone

end Sys2Proof.Machine
end

section
/-! PROOFS. What a successful step pays (70_reset_and_hazards.md R349 to R352): the cycle table by opcode byte against the costs
of the instructions, and the cost each shape charges. -/

namespace Sys2Proof.Machine

/-! ### The table -/

/-- The conditional branches (47_jump_branch.md R242 to R249). -/
def isBranch : Instr → Bool
  | .bpl _ | .bmi _ | .bvc _ | .bvs _ | .bcc _ | .bcs _ | .bne _ | .beq _ => true
  | _ => false

/-- They are the instructions of `branchTests`, whatever the state. -/
theorem isBranch_iff (s : State) (i : Instr) :
    isBranch i = true ↔ ∃ offset test, test ∈ branchTests s offset ∧ i = test.1 := by
  simp only [branchTests, List.mem_cons, List.not_mem_nil, or_false, exists_eq_or_imp, exists_eq_left]
  cases i <;> simp [isBranch]

/-- What the instruction says of its cost: base cycles, page-cross mark, branch rule. -/
def costsOf (i : Instr) : Nat × Bool × Bool := (i.baseCycles, i.pageCrossPenalty, isBranch i)

/-- What the table of R352 says of an opcode byte. -/
def tableCosts (op : Byte) : Nat × Bool × Bool := (baseCost op, crossMarks.contains op, branchOpcodes.contains op)

/-- Each entry of the map makes instructions with the costs of their opcode byte. -/
theorem opcodeMap_getD_costs (op b1 b2 : Byte) :
    some (costsOf (entryInstr b1 b2 (opcodeMap.getD op.toNat (bad op)))) =
      (entryInstr b1 b2 (opcodeMap.getD op.toNat (bad op))).opcode.map tableCosts :=
  opcodeMap_getD_congr (f := fun entry => some (costsOf (entryInstr b1 b2 entry)))
    (g := fun entry => (entryInstr b1 b2 entry).opcode.map tableCosts) rfl rfl rfl rfl op

/-- A fetched instruction has the costs of its byte; but EB, where it is not recognised, has none (R349). -/
theorem fetch_costs {s : State} {op : Byte} {i : Instr} (hop : s.readByte s.pc = some op) (h : fetch s = .ok i)
    (hknown : i ≠ .unknown 0xEB) : costsOf i = tableCosts op := by
  have hopcode : i.opcode = some op := (fetch_opcode h).trans hop
  obtain ⟨op', b1, b2, -, rfl⟩ := fetch_ok h
  unfold entryOf at hknown hopcode ⊢
  split at hknown
  case isTrue => exact absurd rfl hknown
  case isFalse hrecognised =>
    rw [if_neg hrecognised] at hopcode ⊢
    have hcosts := opcodeMap_getD_costs op' b1 b2
    rw [hopcode] at hcosts
    exact Option.some.inj hcosts

/-! ### Page crosses -/

/-- The read operand's mode can set the page-cross bit (40 R128). -/
def readCanCross : ReadOperand → Bool
  | .immediate _ => false
  | .mem m => m.canCross

theorem resolve_cross {m : MemOperand} {s : State} {r : Resolved} (h : resolve m s = .ok r) (hcross : r.cross = true) :
    m.canCross = true := by
  cases m with
  | absoluteX _ | absoluteY _ | indirectIndexed _ => rfl
  | zeroPage _ | zeroPageX _ | zeroPageY _ | absolute _ => cases h; cases hcross
  | indexedIndirect b =>
    obtain ⟨ea, -, h⟩ := Res.bind_eq_ok h
    cases h
    cases hcross

theorem load_cross {o : ReadOperand} {s : State} {l : Loaded} (h : load o s = .ok l) (hcross : l.cross = true) :
    readCanCross o = true := by
  cases o with
  | immediate v => cases h; cases hcross
  | mem m =>
    obtain ⟨r, hr, -, hrcross⟩ := loadMem_ok h
    exact resolve_cross hr (hrcross ▸ hcross)

/-- BIT, CPX and CPY have no mode that crosses a page (40 R136). -/
theorem canCross_ne_true_of_isIn {m : MemOperand} (h : m.isIn [.zeroPage, .absolute] = true) : ¬ m.canCross = true := by
  cases m with
  | zeroPage b | absolute w => exact nofun
  | zeroPageX _ | zeroPageY _ | absoluteX _ | absoluteY _ | indexedIndirect _ | indirectIndexed _ => cases h

theorem readCanCross_ne_true_of_isIn {o : ReadOperand} (h : o.isIn [.zeroPage, .absolute] = true) :
    ¬ readCanCross o = true := by
  cases o with
  | immediate v => exact nofun
  | mem m => exact canCross_ne_true_of_isIn h

/-! ### What each shape charges -/

/-- The most cycles an instruction can be charged beyond its base cost. -/
def surcharge (i : Instr) : Nat := if i.pageCrossPenalty then 1 else if isBranch i then 2 else 0

/-- From `s` to `t` the cycles of `i` were charged. -/
def Paid (i : Instr) (s t : State) : Prop := ∃ extra, t.cyc = s.cyc + i.baseCycles + extra ∧ extra ≤ surcharge i

section
variable {i : Instr} {s t : State}

theorem Paid.base (h : t.cyc = s.cyc + i.baseCycles) : Paid i s t := ⟨0, h, Nat.zero_le _⟩

theorem not_running_of_raise {e : StepError} (h : raise e s = .next t) : t.run ≠ .running := by
  cases h
  exact nofun

/-- A body that ends by `finish` succeeds with its last state. -/
theorem paid_of_finish {r : Res State} (h : finish r = .next t) (ht : t.run = .running) (hok : r = .ok t → Paid i s t) :
    Paid i s t := by
  rcases finish_eq_next h with hr | ⟨e, u, -, rfl⟩
  · exact hok hr
  · cases ht

/-- A body that does one operation and then ends. -/
theorem paid_of_bind {α : Type} {r : Res α} {k : α → State} (h : finish (r.bind fun a => .ok (k a)) = .next t)
    (ht : t.run = .running) (hk : ∀ a, r = .ok a → Paid i s (k a)) : Paid i s t := by
  refine paid_of_finish h ht fun hok => ?_
  obtain ⟨a, ha, hok⟩ := Res.bind_eq_ok hok
  cases hok
  exact hk a ha

/-- The read class alone is charged a page cross (40 R128, 70 R351). -/
theorem readWith_paid {o : ReadOperand} {f : Byte → State → State} (h : readWith o f s = .next t) (ht : t.run = .running)
    (hf : ∀ v s, (f v s).cyc = s.cyc) (hbase : i.baseCycles = readCycles o)
    (hcross : readCanCross o = true → i.pageCrossPenalty = true) : Paid i s t := by
  refine paid_of_bind h ht fun l hl => ⟨l.cross.toNat, ?_, ?_⟩
  · rw [advance_cyc, hf, hbase, crossPenalty, Nat.add_assoc]
  · cases hcrossed : l.cross with
    | false => exact Nat.zero_le _
    | true =>
      rw [surcharge, if_pos (hcross (load_cross hl hcrossed))]
      exact Nat.le_refl 1

theorem readMemWith_paid {m : MemOperand} {f : Byte → State → State} (h : readMemWith m f s = .next t)
    (ht : t.run = .running) (hf : ∀ v s, (f v s).cyc = s.cyc) (hbase : i.baseCycles = readMemCycles m)
    (hcross : m.canCross = true → i.pageCrossPenalty = true) : Paid i s t :=
  readWith_paid (o := .mem m) h ht hf hbase hcross

theorem storeValue_paid {m : MemOperand} {v : Byte} (h : storeValue m v s = .next t) (ht : t.run = .running)
    (hbase : i.baseCycles = storeCycles m) : Paid i s t := by
  rcases storeValue_cases h with ⟨r, u, -, hu, rfl⟩ | ⟨a, d, -, rfl⟩
  · exact .base (by rw [advance_cyc, (writeByte_held hu).cyc, hbase])
  · cases ht

theorem modifyWith_paid {m : MemOperand} {prim : Primitive} {after : Byte → State → State}
    (h : modifyWith m prim after s = .next t) (ht : t.run = .running) (hafter : ∀ r s, (after r s).cyc = s.cyc)
    (hbase : i.baseCycles = modifyCycles m) : Paid i s t := by
  rcases modifyWith_cases h with ⟨r, v, u, -, -, hu, rfl⟩ | ⟨a, -, rfl⟩
  · exact .base (by rw [advance_cyc, hafter, (writeByte_held hu).cyc, setFlags_cyc, hbase])
  · cases ht

theorem shiftWith_paid {o : ShiftOperand} {prim : Primitive} (h : shiftWith o prim s = .next t) (ht : t.run = .running)
    (hbase : i.baseCycles = shiftCycles o) : Paid i s t := by
  cases o with
  | mem m => exact modifyWith_paid (after := fun r t => t.setZN r) h ht (fun _ _ => rfl) hbase
  | accumulator =>
    cases h
    exact .base (by rw [hbase]; rfl)

theorem implied_paid {f : State → State} (h : implied f s = .next t) (hf : ∀ s, (f s).cyc = s.cyc)
    (hbase : i.baseCycles = 2) : Paid i s t := by
  cases h
  exact .base (by rw [advance_cyc, hf, hbase])

/-- A taken branch pays one or two cycles more (70 R350). -/
theorem branchIf_paid {cond : Bool} {offset : Byte} (h : branchIf cond offset s = .next t) (hbase : i.baseCycles = 2)
    (hsurcharge : surcharge i = 2) : Paid i s t := by
  unfold branchIf at h
  cases cond with
  | true =>
    cases h
    refine ⟨branchPenalty (s.pc + 2) (branchTarget s.pc offset), ?_, ?_⟩
    · rw [jumpTo_cyc, hbase, Nat.add_assoc]
    · rw [hsurcharge, branchPenalty]
      exact Nat.add_le_add_left (Bool.toNat_le _) 1
  | false =>
    cases h
    exact .base (by rw [advance_cyc, hbase])

/-- BRK never succeeds (46 R228). -/
theorem execBrk_not_running (h : execBrk s = .next t) : t.run ≠ .running := by
  unfold execBrk at h
  split at h
  · rcases finish_eq_next h with hr | ⟨e, u, -, rfl⟩
    · obtain ⟨u, -, hu⟩ := Res.bind_eq_ok hr
      cases hu
    · exact nofun
  · exact not_running_of_raise h

theorem execSbcImmediateEB_paid {v : Byte} (h : execSbcImmediateEB v s = .next t) (ht : t.run = .running) :
    Paid (.sbcImmediateEB v) s t := by
  unfold execSbcImmediateEB at h
  split at h
  · exact readWith_paid h ht (fun _ _ => rfl) rfl nofun
  · exact absurd ht (not_running_of_raise h)

/-- A successful instruction that has an encoding charges its base cycles, and a surcharge at most (R349 to R351). -/
theorem exec_paid {usbcEb : Bool} (hwf : i.wellFormed usbcEb = true) (h : exec i s = .next t) (ht : t.run = .running) :
    Paid i s t := by
  unfold exec at h
  cases i with
  | lda o | ldx o | ldy o | adc o | sbc o | and o | ora o | eor o | cmp o =>
    exact readWith_paid h ht (fun _ _ => rfl) rfl (by cases o <;> exact id)
  | cpx o | cpy o => exact readWith_paid h ht (fun _ _ => rfl) rfl (readCanCross_ne_true_of_isIn hwf).elim
  | bit m => exact readMemWith_paid h ht (fun _ _ => rfl) rfl (canCross_ne_true_of_isIn hwf).elim
  | lax m | nopMemory _ m => exact readMemWith_paid h ht (fun _ _ => rfl) rfl id
  | nopImmediate _ v => exact readWith_paid h ht (fun _ _ => rfl) rfl nofun
  | sbcImmediateEB v => exact execSbcImmediateEB_paid h ht
  | sta m | stx m | sty m | sax m => exact storeValue_paid h ht rfl
  | asl o | lsr o | rol o | ror o => exact shiftWith_paid h ht rfl
  | inc m | dec m | slo m | rla m | sre m | rra m | dcp m | isc m => exact modifyWith_paid h ht (fun _ _ => rfl) rfl
  | tax | tay | txa | tya | tsx | txs | inx | iny | dex | dey => exact implied_paid h (fun _ => rfl) rfl
  | clc | sec | cli | sei | cld | sed | clv | nop | nopImplied _ => exact implied_paid h (fun _ => rfl) rfl
  | bpl _ | bmi _ | bvc _ | bvs _ | bcc _ | bcs _ | bne _ | beq _ => exact branchIf_paid h rfl rfl
  | jmp o => exact paid_of_bind h ht fun _ _ => .base rfl
  | jsr target => exact paid_of_bind h ht fun _ hu => .base (congrArg (· + 6) (pushWord_held hu).cyc)
  | pha | php => exact paid_of_bind h ht fun _ hu => .base (congrArg (· + 3) (push_held hu).cyc)
  | pla | plp => exact paid_of_bind h ht fun _ hp => .base (congrArg (· + 4) (pull_held hp).cyc)
  | rts => exact paid_of_bind h ht fun _ hr => .base (congrArg (· + 6) (pullWord_held hr).cyc)
  | rti =>
    refine paid_of_finish h ht fun hr => ?_
    obtain ⟨u, target, hu, rfl⟩ := interruptReturn_ok hr
    exact .base (congrArg (· + 6) hu.cyc)
  | brk => exact absurd ht (execBrk_not_running h)
  | unknown op => exact absurd ht (not_running_of_raise h)

end

/-! ### The statement -/

/-- Settles O20: the fetched instruction has the costs of its byte, and a successful execution charges them. -/
theorem successfulStepsPayTheirCycles : Obligations.SuccessfulStepsPayTheirCycles := by
  intro s t op i hrun hop hfetch h ht
  have hexec : exec i s = .next t := by rwa [step_of_fetch hrun hfetch] at h
  have hknown : i ≠ .unknown 0xEB := by
    rintro rfl
    exact not_running_of_raise hexec ht
  have hcosts := fetch_costs hop hfetch hknown
  simp only [costsOf, tableCosts, Prod.mk.injEq] at hcosts
  obtain ⟨hbase, hcross, hbranch⟩ := hcosts
  have hcrossIff : i.pageCrossPenalty = true ↔ op ∈ crossMarks := by rw [hcross, List.contains_iff_mem]
  have hbranchIff : isBranch i = true ↔ op ∈ branchOpcodes := by rw [hbranch, List.contains_iff_mem]
  obtain ⟨extra, hcyc, hextra⟩ := exec_paid (fetch_wellFormed hfetch) hexec ht
  refine ⟨hbase, hcrossIff, (isBranch_iff s i).symm.trans hbranchIff, extra, hbase ▸ hcyc, ?_⟩
  simp only [surcharge, hcrossIff, hbranchIff] at hextra
  refine ⟨fun hin => ?crosses, fun hin => ?branches, fun hnot hnot' => ?other⟩
  case crosses => rwa [if_pos hin] at hextra
  case branches => split at hextra <;> omega
  case other => rwa [if_neg hnot, if_neg hnot', Nat.le_zero] at hextra

end Sys2Proof.Machine
end

section
/-! PROOFS. Operands that cannot be read or stored to (60_exceptions.md R302, R306, R309): the pointer reads of a resolver in
order, and the instructions with a memory operand as a resolver and an access, before anything else. -/

namespace Sys2Proof.Machine

/-! ### The pointer -/

section
variable {s : State} {la ha p : Word}

/-- The first of the two addresses that cannot be read ends the pair. -/
theorem readPair_first_unreadable (h : [la, ha].find? (fun a => (s.readByte a).isNone) = some p) :
    readPair la ha s = .err (.memoryAccess p .read) s := by
  cases hl : s.readByte la with
  | none =>
    simp only [List.find?_cons, hl, Option.isNone_none, Option.some.injEq] at h
    rw [readPair_low_unreadable hl, h]
  | some l =>
    cases hh : s.readByte ha with
    | none =>
      simp only [List.find?_cons, hl, hh, Option.isNone_some, Option.isNone_none, Option.some.injEq] at h
      rw [readPair_high_unreadable hl hh, h]
    | some _ => simp [hl, hh] at h

theorem readPair_all_readable (h : [la, ha].find? (fun a => (s.readByte a).isNone) = none) :
    ∃ w, readPair la ha s = .ok w := by
  cases hr : readPair la ha s with
  | ok w => exact ⟨w, rfl⟩
  | err e t =>
    obtain ⟨-, ⟨hl, -⟩ | ⟨-, hh, -⟩⟩ := readPair_err hr
    · simp [hl] at h
    · simp [hh] at h

end

/-- The pointer reads of the two indirect modes, in the model's own terms. -/
theorem pointerReads_indexedIndirect (b : Byte) (s : State) :
    pointerReads (.indexedIndirect b) s = [zext16 (b + s.x), zext16 (b + s.x + 1)] := by
  rw [pointerReads, zext16_add_eq_ofNat, zext16_add_eq_ofNat, BitVec.toNat_add, Nat.mod_add_mod]
  rfl

theorem pointerReads_indirectIndexed (b : Byte) (s : State) :
    pointerReads (.indirectIndexed b) s = [zext16 b, zext16 (b + 1)] := by
  rw [pointerReads, zext16_add_eq_ofNat, zext16_eq_ofNat]
  rfl

section
variable {m : MemOperand} {s : State}

theorem resolve_of_unreadable_pointer {p : Word}
    (h : (pointerReads m s).find? (fun a => (s.readByte a).isNone) = some p) :
    resolve m s = .err (.memoryAccess p .read) s := by
  cases m with
  | indexedIndirect b =>
    rw [pointerReads_indexedIndirect] at h
    rw [resolve, zeroPagePointer, readPair_first_unreadable h, Res.bind_err]
  | indirectIndexed b =>
    rw [pointerReads_indirectIndexed] at h
    rw [resolve, zeroPagePointer, readPair_first_unreadable h, Res.bind_err]
  | zeroPage _ | zeroPageX _ | zeroPageY _ | absolute _ | absoluteX _ | absoluteY _ => cases h

theorem resolve_of_readable_pointer (h : (pointerReads m s).find? (fun a => (s.readByte a).isNone) = none) :
    ∃ r, resolve m s = .ok r := by
  cases m with
  | indexedIndirect b =>
    rw [pointerReads_indexedIndirect] at h
    obtain ⟨ea, hea⟩ := readPair_all_readable h
    exact ⟨_, resolve_indexedIndirect hea⟩
  | indirectIndexed b =>
    rw [pointerReads_indirectIndexed] at h
    obtain ⟨base, hbase⟩ := readPair_all_readable h
    exact ⟨_, resolve_indirectIndexed hbase⟩
  | zeroPage _ | zeroPageX _ | zeroPageY _ | absolute _ | absoluteX _ | absoluteY _ => exact ⟨_, rfl⟩

/-! ### The instructions -/

/-- The outcome of an instruction that resolves `m` in `s`, then does `access` at the address, and then goes on. -/
def AccessesOperand (m : MemOperand) (s : State) {α : Type} (access : Word → State → Res α) (o : Out) : Prop :=
  ∃ next : Resolved → α → Res State, o = finish ((resolve m s).bind fun r => (access r.ea s).bind (next r))

theorem AccessesOperand.unresolved {α : Type} {access : Word → State → Res α} {o : Out} {e : StepError}
    (h : AccessesOperand m s access o) (hr : resolve m s = .err e s) : o = .next { s with run := .stopped e } := by
  obtain ⟨next, rfl⟩ := h
  rw [hr]
  rfl

theorem AccessesOperand.inaccessible {α : Type} {access : Word → State → Res α} {o : Out} {r : Resolved} {e : StepError}
    (h : AccessesOperand m s access o) (hr : resolve m s = .ok r) (hea : access r.ea s = .err e s) :
    o = .next { s with run := .stopped e } := by
  obtain ⟨next, rfl⟩ := h
  rw [hr, Res.bind_ok, hea]
  rfl

theorem readWith_accesses (f : Byte → State → State) : AccessesOperand m s memRead (readWith (.mem m) f s) := by
  refine ⟨fun r v => .ok ((f v s).advance m.len (readMemCycles m + crossPenalty r.cross)), congrArg finish ?_⟩
  rw [load, loadMem, Res.bind_assoc]
  exact congrArg _ (funext fun r => Res.bind_assoc _ _ _)

theorem readMemWith_accesses (f : Byte → State → State) : AccessesOperand m s memRead (readMemWith m f s) :=
  readWith_accesses f

theorem modifyWith_accesses (prim : Primitive) (after : Byte → State → State) :
    AccessesOperand m s memRead (modifyWith m prim after s) := ⟨_, rfl⟩

theorem shiftWith_accesses (prim : Primitive) : AccessesOperand m s memRead (shiftWith (.mem m) prim s) := ⟨_, rfl⟩

/-- Every instruction that reads its memory operand is of the read class or a read-modify-write. -/
theorem exec_reader_accesses {op : Byte} {i : Instr} (hi : i ∈ readersOf m op) :
    AccessesOperand m s memRead (exec i s) := by
  unfold exec
  cases i with
  | lda o | ldx o | ldy o | adc o | sbc o | and o | ora o | eor o | cmp o | cpx o | cpy o =>
    obtain rfl : o = .mem m := by simpa [readersOf] using hi
    exact readWith_accesses _
  | bit n | lax n =>
    obtain rfl : n = m := by simpa [readersOf] using hi
    exact readMemWith_accesses _
  | nopMemory op' n =>
    obtain ⟨-, rfl⟩ : op' = op ∧ n = m := by simpa [readersOf] using hi
    exact readMemWith_accesses _
  | asl o | lsr o | rol o | ror o =>
    obtain rfl : o = .mem m := by simpa [readersOf] using hi
    exact shiftWith_accesses _
  | inc n | dec n | slo n | rla n | sre n | rra n | dcp n | isc n =>
    obtain rfl : n = m := by simpa [readersOf] using hi
    exact modifyWith_accesses _ _
  | _ => simp [readersOf] at hi

theorem exec_storer_accesses {i : Instr} (hi : i ∈ storersOf m) :
    ∃ v, AccessesOperand m s (memWrite · v) (exec i s) := by
  have hrows : i ∈ [(Instr.sta m, s.a), (.stx m, s.x), (.sty m, s.y), (.sax m, s.a &&& s.x)].map Prod.fst := hi
  obtain ⟨⟨i, v⟩, hrow, rfl⟩ := List.mem_map.1 hrows
  exact ⟨v, fun r t => .ok (t.advance m.len (storeCycles m)), exec_store_eq hrow⟩

theorem memWrite_unwritable {a : Word} {v : Byte} (h : s.readByte a = none) :
    memWrite a v s = .err (.memoryAccess a .write) s :=
  memWrite_err.2 ⟨writeByte_eq_none_iff.2 (readByte_eq_none_iff.1 h), rfl, rfl⟩

end

/-- Settles O33: each of these instructions is its resolver and one access before anything else. -/
theorem unreadableOperandOnlyStopsTheRun : Obligations.UnreadableOperandOnlyStopsTheRun := by
  intro m op s
  refine ⟨fun p hp i hi => ?pointer, resolve_of_readable_pointer, fun r hr hnone => ⟨fun i hi => ?read, fun i hi => ?store⟩⟩
  case pointer =>
    have hresolve := resolve_of_unreadable_pointer hp
    rcases List.mem_append.1 hi with hi | hi
    · exact (exec_reader_accesses hi).unresolved hresolve
    · obtain ⟨v, haccess⟩ := exec_storer_accesses (s := s) hi
      exact haccess.unresolved hresolve
  case read => exact (exec_reader_accesses hi).inaccessible hr (memRead_unreadable hnone)
  case store =>
    obtain ⟨v, haccess⟩ := exec_storer_accesses (s := s) hi
    exact haccess.inaccessible hr (memWrite_unwritable hnone)

end Sys2Proof.Machine
end

section
/-! PROOFS. 47_jump_branch.md and 48_flags_nop.md: the branches as `branchIf` of their flag test (R241 to R249), and the flag
instructions as Implied instructions (R260 to R267). -/

namespace Sys2Proof.Machine

/-! ### Branches -/

/-- Each branch tests its flag for its value. -/
theorem exec_branch_eq {s : State} {offset : Byte} {i : Instr} {flag on : Bool}
    (h : (i, flag, on) ∈ branchTests s offset) : exec i s = branchIf (flag == on) offset s := by
  have hclear : ∀ b : Bool, (!b) = (b == false) := by decide
  have hset : ∀ b : Bool, b = (b == true) := by decide
  simp only [branchTests, List.mem_cons, Prod.mk.injEq, List.not_mem_nil, or_false] at h
  obtain ⟨rfl, rfl, rfl⟩ | ⟨rfl, rfl, rfl⟩ | ⟨rfl, rfl, rfl⟩ | ⟨rfl, rfl, rfl⟩ | ⟨rfl, rfl, rfl⟩ | ⟨rfl, rfl, rfl⟩ |
    ⟨rfl, rfl, rfl⟩ | ⟨rfl, rfl, rfl⟩ := h
  · exact congrArg (branchIf · offset s) (hclear s.flags.n)
  · exact congrArg (branchIf · offset s) (hset s.flags.n)
  · exact congrArg (branchIf · offset s) (hclear s.flags.v)
  · exact congrArg (branchIf · offset s) (hset s.flags.v)
  · exact congrArg (branchIf · offset s) (hclear s.flags.c)
  · exact congrArg (branchIf · offset s) (hset s.flags.c)
  · exact congrArg (branchIf · offset s) (hclear s.flags.z)
  · exact congrArg (branchIf · offset s) (hset s.flags.z)

/-- The cost of a taken branch, by the pages of the next instruction and the target (70 R350). -/
theorem taken_branch_cycles (next target : Word) :
    2 + branchPenalty next target = if target.toNat / 256 = next.toNat / 256 then 3 else 4 := by
  rw [branchPenalty, crossed_eq_decide]
  by_cases hpage : target.toNat / 256 = next.toNat / 256
  · rw [if_pos hpage, decide_eq_false (not_not_intro hpage.symm)]
    rfl
  · rw [if_neg hpage, decide_eq_true (Ne.symm hpage)]
    rfl

/-- Settles O49: the target is `branchTarget`. -/
theorem branchesComplete : Obligations.BranchesComplete := by
  intro s offset i flag on hi
  rw [exec_branch_eq hi]
  refine ⟨fun htaken => ⟨branchTarget s.pc offset, branchTarget_toNat s.pc offset, ?_⟩, fun hnot => ?_⟩
  · rw [beq_iff_eq.2 htaken, ← taken_branch_cycles]
    rfl
  · rw [beq_false_of_ne hnot]
    rfl

/-! ### Flag instructions -/

/-- Settles O46: each is an Implied instruction that sets the flags named in its row, NOP one that sets nothing. -/
theorem flagInstructionsComplete : Obligations.FlagInstructionsComplete := by
  intro s i f hi
  have himplied : exec i s = implied (fun s => s.setFlags f) s := by
    simp only [List.mem_cons, Prod.mk.injEq, List.not_mem_nil, or_false] at hi
    obtain ⟨rfl, rfl⟩ | ⟨rfl, rfl⟩ | ⟨rfl, rfl⟩ | ⟨rfl, rfl⟩ | ⟨rfl, rfl⟩ | ⟨rfl, rfl⟩ | ⟨rfl, rfl⟩ | ⟨rfl, rfl⟩ := hi <;> rfl
  rw [himplied]
  exact implied_done (fun s => s.setFlags f) s

end Sys2Proof.Machine
end

section
/-! PROOFS. 49_unofficial.md: the combined opcodes as read-modify-writes that go on with A (R280 to R286), and the unofficial
NOPs (R289 to R291). -/

namespace Sys2Proof.Machine

/-! ### Shift and logic -/

section
variable {m : MemOperand} {s : State} {r : Resolved} {v : Byte}

/-- A read-modify-write that goes on with a logic operation `op` of A and the byte written (R281 to R283). -/
theorem modifyLogic_done {prim : Primitive} {value : Nat} {carry : Bool} (op : Byte → Byte → Byte) (hs : s.Inv)
    (hr : resolve m s = .ok r) (hv : s.readByte r.ea = some v) (hprim : prim.Gives v s.flags value carry) :
    ∃ t, modifyWith m prim (fun w t => t.loadA (op t.a w)) s = .next t ∧ WroteByte s t r.ea (BitVec.ofNat 8 value) ∧
      t = { s with
        mem := t.mem
        a := op s.a (BitVec.ofNat 8 value)
        flags := { withZN s.flags (op s.a (BitVec.ofNat 8 value)) with c := carry }
        pc := s.pc + BitVec.ofNat 16 m.len
        cyc := s.cyc + modifyCycles m } := by
  obtain ⟨u, hwrote, hu, hnext⟩ := modifyWith_done (prim := prim) (fun w t => t.loadA (op t.a w)) hs hr hv
  rw [hprim] at hwrote hu hnext
  refine ⟨_, hnext, hwrote.congr rfl rfl rfl rfl, ?_⟩
  rw [← setZN_eq_withZN, hu]
  rfl

/-- A byte is a number modulo 256. -/
theorem ofNat_byte_mod (n : Nat) : BitVec.ofNat 8 (n % 256) = BitVec.ofNat 8 n :=
  (eq_ofNat_of_toNat (BitVec.toNat_ofNat n 8)).symm

theorem aslOp_gives (f : Flags) : aslOp.Gives v f (v.toNat * 2) (decide (128 ≤ v.toNat)) := by
  rw [Primitive.Gives, aslOp_eq, ofNat_byte_mod]

theorem rolOp_gives (f : Flags) : rolOp.Gives v f (v.toNat * 2 + f.c.toNat) (decide (128 ≤ v.toNat)) := by
  rw [Primitive.Gives, rolOp_eq, ofNat_byte_mod]

end

/-- Settles O43: the shifts of R191 to R193, and then OR, AND and EOR with A. -/
theorem shiftAndLogicCompletes : Obligations.ShiftAndLogicCompletes := by
  intro m s r v hs hr hv i w a' carry hi
  simp only [List.mem_cons, Prod.mk.injEq, List.not_mem_nil, or_false] at hi
  obtain ⟨rfl, rfl, rfl, rfl⟩ | ⟨rfl, rfl, rfl, rfl⟩ | ⟨rfl, rfl, rfl, rfl⟩ := hi
  · exact modifyLogic_done (· ||| ·) hs hr hv (aslOp_gives s.flags)
  · exact modifyLogic_done (· &&& ·) hs hr hv (rolOp_gives s.flags)
  · exact modifyLogic_done (· ^^^ ·) hs hr hv (lsrOp_eq v s.flags)

/-! ### Modify and arithmetic -/

/-- The complement is the difference from 255 (R286). -/
theorem sub_from_255_eq_not (v : Byte) : 255 - v = ~~~v := BitVec.allOnes_sub_eq_not v

/-- Settles O44: each writes its byte, and goes on with the adder or the compare, which set Z and N afresh. -/
theorem modifyAndArithmeticCompletes : Obligations.ModifyAndArithmeticCompletes := by
  intro m s r v hs hr hv
  refine ⟨?rra, ?isc, ?dcp⟩
  case rra =>
    obtain ⟨u, hwrote, hu, hnext⟩ := modifyWith_done (prim := rorOp) (fun w t => t.adc w) hs hr hv
    rw [rorOp_eq] at hwrote hu hnext
    exact ⟨_, _, rfl, hnext, hwrote.congr rfl rfl rfl rfl, by rw [hu]; rfl⟩
  case isc =>
    obtain ⟨u, hwrote, hu, hnext⟩ := modifyWith_done (prim := incOp) (fun w t => (t.setZN w).sbc w) hs hr hv
    rw [sub_from_255_eq_not]
    exact ⟨_, hnext, hwrote.congr rfl rfl rfl rfl, by rw [hu]; rfl⟩
  case dcp =>
    obtain ⟨u, hwrote, hu, hnext⟩ := modifyWith_done (prim := decOp) (fun w t => (t.setZN w).compare t.a w) hs hr hv
    exact ⟨_, hnext, hwrote.congr rfl rfl rfl rfl, by rw [hu]; rfl⟩

/-! ### NOPs -/

/-- Settles O47: an Implied instruction, and two of the read class, that change nothing of their own. -/
theorem unofficialNopsComplete : Obligations.UnofficialNopsComplete :=
  ⟨fun _ v s => ⟨implied_done (fun s => s) s, readWith_done (o := .immediate v) (fun _ s => s) rfl⟩,
    fun _ m _ _ _ h => readWith_done (o := .mem m) (fun _ s => s) h⟩

end Sys2Proof.Machine
end

section
/-! PROOFS. The host's accessors (60_exceptions.md R320, R321). -/

namespace Sys2Proof.Machine

theorem writeMem_done {s : State} {a : Word} (v : Byte) (hs : s.Inv) (hmapped : (resolveCell s.cfg a).isSome = true) :
    ∃ t, writeMem a v s = .ok t ∧ t = { s with mem := t.mem } ∧ WroteByte s t a v := by
  obtain ⟨t, ht⟩ := writeByte_some v hmapped
  exact ⟨t, by simp only [writeMem, ht], writeByte_eq ht, writeByte_wrote hs ht⟩

theorem writeMem_unmapped {s : State} {a : Word} (v : Byte) (h : resolveCell s.cfg a = none) :
    writeMem a v s = .error (.memoryAccess a .write) := by
  simp only [writeMem, writeByte_eq_none_iff.2 h]

theorem readMem_unmapped {s : State} {a : Word} (h : resolveCell s.cfg a = none) :
    readMem a s = .error (.memoryAccess a .read) := by
  simp only [readMem, readByte_eq_none_iff.2 h]

theorem readMem_done {s : State} {a : Word} {v : Byte} (h : s.readByte a = some v) : readMem a s = .ok v := by
  simp only [readMem, h]

/-- Settles O60: the setters are updates of one field, and the memory accesses are those of the mapper. -/
theorem hostAccessorsGoThroughTheMapper : Obligations.HostAccessorsGoThroughTheMapper := fun _ =>
  ⟨fun _ => ⟨rfl, rfl, rfl⟩, fun _ => rfl, fun _ v hs hmapped => writeMem_done v hs hmapped,
    fun _ v hnone => ⟨writeMem_unmapped v hnone, readMem_unmapped hnone⟩, fun _ _ => readMem_done⟩

end Sys2Proof.Machine
end
